-- ==== Sys2Proof/Word.lean ====
section
/-! DEFINITION. The two word types of the machine (R5): 8-bit bytes, 16-bit words and addresses. -/

namespace Sys2Proof

/-- An 8-bit register, memory byte or instruction byte (R5). -/
abbrev Byte := BitVec 8

/-- A 16-bit register pair, stack pointer, program counter or bus address (R5). -/
abbrev Word := BitVec 16

end Sys2Proof
end

