-- ==== Sys2Proof/Config.lean ====
section
/-! DEFINITION. The parameters the spec leaves to the model as named arguments (R6), each with the spec's default.
The ones that shape a step are the fields of `Params`, which `State` carries unchanged.
The ones that shape the power-on contents of memory (`ROM`, `IO_RESET`, `IE_RESET`, `RAM_INIT`) are the further fields of
`PowerOn`, from which `Machine/Memory.lean` makes a power-on state.
Last stands the one value that the spec leaves open: a free value. -/

namespace Sys2Proof

/-- What a write to the mirror of work RAM does: `ECHO_WRITE : {ignore, fault}` (R68, D5). -/
inductive EchoWrite where
  | ignore | fault
  deriving DecidableEq, Repr

/-- What STOP does: `STOP_POLICY : {fault, nop2}` (R302, D11). -/
inductive StopPolicy where
  | fault | nop2
  deriving DecidableEq, Repr

/-- The four timer periods, in M-cycles (R38, R384). -/
inductive TimerPeriod where
  | cycles4 | cycles16 | cycles64 | cycles256
  deriving DecidableEq, Repr

/-- The parameters of the step, R6 (`EI_DELAY`, `ECHO_WRITE`, `STOP_POLICY`, `WINDOW_STALL_DOTS`, `TAC_PERIOD`,
`SERIAL_RAISES_IRQ`, `CLK_WIDTH`). -/
structure Params where
  /-- `EI_DELAY = 1` is `true` (R29, R304). -/
  eiDelay : Bool
  echoWrite : EchoWrite
  stopPolicy : StopPolicy
  windowStallDots : Nat
  /-- `TAC_PERIOD` of the selectors `0b00`, `0b01`, `0b10`, `0b11`. -/
  tacPeriod0 : TimerPeriod
  tacPeriod1 : TimerPeriod
  tacPeriod2 : TimerPeriod
  tacPeriod3 : TimerPeriod
  serialRaisesIrq : Bool
  clkWidth : Nat
  deriving DecidableEq, Repr

/-- The defaults of R6. -/
def Params.default : Params where
  eiDelay := true
  echoWrite := .ignore
  stopPolicy := .fault
  windowStallDots := 6
  tacPeriod0 := .cycles256
  tacPeriod1 := .cycles4
  tacPeriod2 := .cycles16
  tacPeriod3 := .cycles64
  serialRaisesIrq := true
  clkWidth := 64

/-- The settings the spec allows: `CLK_WIDTH >= 8` (R6, R50); every other parameter may have any value of its type. -/
abbrev Params.wf (p : Params) : Prop := 8 ≤ p.clkWidth

/-- All the parameters of R6: what a power-on state is made from. -/
structure PowerOn where
  params : Params
  /-- `ROM`, the cartridge image (R64, R408). -/
  rom : Fin 32768 → Byte
  /-- `IO_RESET`, by offset in the I/O region (R57). -/
  ioReset : Fin 128 → Byte
  /-- `IE_RESET` (R57). -/
  ieReset : Byte
  /-- `RAM_INIT` (R58). -/
  ramInit : Byte

/-- FREE VALUE (log 8): how many dots more than one HBlank has after a Draw that leaves it none by R333, from
`WINDOW_STALL_DOTS` and the dots of that Draw. R51 gives HBlank at least one dot, R333's `456 - 80 - dots` is below 1 there,
and the spec states no other number. -/
opaque longDrawHBlank : Nat → Nat → Nat

end Sys2Proof
end

