-- ==== Sys2Proof/Syntax.lean ====
section
/-! DEFINITION. The instructions: one constructor per row of spec/opcode_table.json (R109 to R111, R113).
Register, pair and condition operands are constructors, immediates are bytes and words (`e` is the operand byte itself,
whose sign the meaning reads), a bit number and an RST number are natural numbers that `WellFormed.lean` bounds. -/

namespace Sys2Proof

/-- The seven registers of the operand table `r8` (R103); its eighth entry, `(HL)`, has constructors of its own. -/
inductive Reg8 where
  | b | c | d | e | h | l | a
  deriving DecidableEq, Repr

/-- The pairs of the table `r16` (R104). -/
inductive Reg16 where
  | bc | de | hl | sp
  deriving DecidableEq, Repr

/-- The pairs of the table `r16stk` (R104). -/
inductive StkReg where
  | bc | de | hl | af
  deriving DecidableEq, Repr

/-- The conditions of the table `cc` (R105). -/
inductive Cond where
  | nz | z | nc | c
  deriving DecidableEq, Repr

/-- The instruction set: one constructor per row of the opcode table, its mnemonic and rule beside it. -/
inductive Instr where
  /-- `LD r,r'` (R130). -/
  | ldRR (dst : Reg8) (src : Reg8)
  /-- `LD r,n` (R131). -/
  | ldRN (dst : Reg8) (n : Byte)
  /-- `LD r,(HL)` (R132). -/
  | ldRInd (dst : Reg8)
  /-- `LD (HL),r` (R133). -/
  | ldIndR (src : Reg8)
  /-- `LD (HL),n` (R134). -/
  | ldIndN (n : Byte)
  /-- `LD A,(BC)` (R135). -/
  | ldABc
  /-- `LD A,(DE)` (R136). -/
  | ldADe
  /-- `LD (BC),A` (R137). -/
  | ldBcA
  /-- `LD (DE),A` (R138). -/
  | ldDeA
  /-- `LD A,(nn)` (R139). -/
  | ldANn (nn : Word)
  /-- `LD (nn),A` (R140). -/
  | ldNnA (nn : Word)
  /-- `LDH A,(C)` (R141). -/
  | ldhAC
  /-- `LDH (C),A` (R142). -/
  | ldhCA
  /-- `LDH A,(n)` (R143). -/
  | ldhAN (n : Byte)
  /-- `LDH (n),A` (R144). -/
  | ldhNA (n : Byte)
  /-- `LD A,(HL-)` (R145). -/
  | ldAHlDec
  /-- `LD (HL-),A` (R146). -/
  | ldHlDecA
  /-- `LD A,(HL+)` (R147). -/
  | ldAHlInc
  /-- `LD (HL+),A` (R148). -/
  | ldHlIncA
  /-- `LD rr,nn` (R162). -/
  | ldRrNn (rr : Reg16) (nn : Word)
  /-- `LD (nn),SP` (R163). -/
  | ldNnSp (nn : Word)
  /-- `LD SP,HL` (R164). -/
  | ldSpHl
  /-- `PUSH rr` (R165). -/
  | pushRr (rr : StkReg)
  /-- `POP rr` (R166). -/
  | popRr (rr : StkReg)
  /-- `LD HL,SP+e` (R167). -/
  | ldHlSpE (e : Byte)
  /-- `ADD A,r` (R182). -/
  | addR (src : Reg8)
  /-- `ADD A,(HL)` (R183). -/
  | addInd
  /-- `ADD A,n` (R184). -/
  | addN (n : Byte)
  /-- `ADC A,r` (R185). -/
  | adcR (src : Reg8)
  /-- `ADC A,(HL)` (R186). -/
  | adcInd
  /-- `ADC A,n` (R187). -/
  | adcN (n : Byte)
  /-- `SUB r` (R188). -/
  | subR (src : Reg8)
  /-- `SUB (HL)` (R189). -/
  | subInd
  /-- `SUB n` (R190). -/
  | subN (n : Byte)
  /-- `SBC A,r` (R191). -/
  | sbcR (src : Reg8)
  /-- `SBC A,(HL)` (R192). -/
  | sbcInd
  /-- `SBC A,n` (R193). -/
  | sbcN (n : Byte)
  /-- `AND r` (R194). -/
  | andR (src : Reg8)
  /-- `AND (HL)` (R195). -/
  | andInd
  /-- `AND n` (R196). -/
  | andN (n : Byte)
  /-- `XOR r` (R197). -/
  | xorR (src : Reg8)
  /-- `XOR (HL)` (R198). -/
  | xorInd
  /-- `XOR n` (R199). -/
  | xorN (n : Byte)
  /-- `OR r` (R200). -/
  | orR (src : Reg8)
  /-- `OR (HL)` (R201). -/
  | orInd
  /-- `OR n` (R202). -/
  | orN (n : Byte)
  /-- `CP r` (R203). -/
  | cpR (src : Reg8)
  /-- `CP (HL)` (R204). -/
  | cpInd
  /-- `CP n` (R205). -/
  | cpN (n : Byte)
  /-- `INC r` (R206). -/
  | incR (dst : Reg8)
  /-- `INC (HL)` (R207). -/
  | incInd
  /-- `DEC r` (R208). -/
  | decR (dst : Reg8)
  /-- `DEC (HL)` (R209). -/
  | decInd
  /-- `DAA` (R210). -/
  | daa
  /-- `CPL` (R211). -/
  | cpl
  /-- `SCF` (R212). -/
  | scf
  /-- `CCF` (R213). -/
  | ccf
  /-- `ADD HL,rr` (R230). -/
  | addHlRr (rr : Reg16)
  /-- `INC rr` (R231). -/
  | incRr (rr : Reg16)
  /-- `DEC rr` (R232). -/
  | decRr (rr : Reg16)
  /-- `ADD SP,e` (R233). -/
  | addSpE (e : Byte)
  /-- `RLCA` (R240). -/
  | rlca
  /-- `RRCA` (R241). -/
  | rrca
  /-- `RLA` (R242). -/
  | rla
  /-- `RRA` (R243). -/
  | rra
  /-- `JP nn` (R281). -/
  | jpNn (nn : Word)
  /-- `JP cc,nn` (R282). -/
  | jpCcNn (cc : Cond) (nn : Word)
  /-- `JP HL` (R283). -/
  | jpHl
  /-- `JR e` (R284). -/
  | jrE (e : Byte)
  /-- `JR cc,e` (R285). -/
  | jrCcE (cc : Cond) (e : Byte)
  /-- `CALL nn` (R286). -/
  | callNn (nn : Word)
  /-- `CALL cc,nn` (R287). -/
  | callCcNn (cc : Cond) (nn : Word)
  /-- `RET` (R288). -/
  | ret
  /-- `RET cc` (R289). -/
  | retCc (cc : Cond)
  /-- `RETI` (R290). -/
  | reti
  /-- `RST t` (R291). -/
  | rstT (t : Nat)
  /-- `NOP` (R300). -/
  | nop
  /-- `HALT` (R301). -/
  | halt
  /-- `STOP` (R302). -/
  | stop
  /-- `DI` (R303). -/
  | di
  /-- `EI` (R304). -/
  | ei
  /-- `PREFIX CB` (R244). -/
  | prefixCb
  /-- `ILLEGAL_D3` (R305). -/
  | illegalD3
  /-- `ILLEGAL_DB` (R305). -/
  | illegalDB
  /-- `ILLEGAL_DD` (R305). -/
  | illegalDD
  /-- `ILLEGAL_E3` (R305). -/
  | illegalE3
  /-- `ILLEGAL_E4` (R305). -/
  | illegalE4
  /-- `ILLEGAL_EB` (R305). -/
  | illegalEB
  /-- `ILLEGAL_EC` (R305). -/
  | illegalEC
  /-- `ILLEGAL_ED` (R305). -/
  | illegalED
  /-- `ILLEGAL_F4` (R305). -/
  | illegalF4
  /-- `ILLEGAL_FC` (R305). -/
  | illegalFC
  /-- `ILLEGAL_FD` (R305). -/
  | illegalFD
  /-- `RLC r` (R245). -/
  | rlcR (r : Reg8)
  /-- `RLC (HL)` (R246). -/
  | rlcInd
  /-- `RRC r` (R247). -/
  | rrcR (r : Reg8)
  /-- `RRC (HL)` (R248). -/
  | rrcInd
  /-- `RL r` (R249). -/
  | rlR (r : Reg8)
  /-- `RL (HL)` (R250). -/
  | rlInd
  /-- `RR r` (R251). -/
  | rrR (r : Reg8)
  /-- `RR (HL)` (R252). -/
  | rrInd
  /-- `SLA r` (R253). -/
  | slaR (r : Reg8)
  /-- `SLA (HL)` (R254). -/
  | slaInd
  /-- `SRA r` (R255). -/
  | sraR (r : Reg8)
  /-- `SRA (HL)` (R256). -/
  | sraInd
  /-- `SWAP r` (R257). -/
  | swapR (r : Reg8)
  /-- `SWAP (HL)` (R258). -/
  | swapInd
  /-- `SRL r` (R259). -/
  | srlR (r : Reg8)
  /-- `SRL (HL)` (R260). -/
  | srlInd
  /-- `BIT b,r` (R261). -/
  | bitBR (b : Nat) (r : Reg8)
  /-- `BIT b,(HL)` (R262). -/
  | bitBInd (b : Nat)
  /-- `RES b,r` (R263). -/
  | resBR (b : Nat) (r : Reg8)
  /-- `RES b,(HL)` (R264). -/
  | resBInd (b : Nat)
  /-- `SET b,r` (R265). -/
  | setBR (b : Nat) (r : Reg8)
  /-- `SET b,(HL)` (R266). -/
  | setBInd (b : Nat)
  deriving DecidableEq, Repr

end Sys2Proof
end

