-- ==== Sys2Proof/WellFormed.lean ====
section
/-! DEFINITION. Which instruction terms an encoding exists for.
Register, pair and condition operands and immediates fit by their types.
A bit number and an RST number are 3-bit fields (R106, R291), so they must be less than 8. -/

namespace Sys2Proof

/-- The operands of an instruction fit the fields of its encoding (R102, R106). -/
def Instr.wf : Instr → Bool
  | .rstT t => decide (t < 8)
  | .bitBR b _ => decide (b < 8)
  | .bitBInd b => decide (b < 8)
  | .resBR b _ => decide (b < 8)
  | .resBInd b => decide (b < 8)
  | .setBR b _ => decide (b < 8)
  | .setBInd b => decide (b < 8)
  | .ldRR _ _ | .ldRN _ _ | .ldRInd _ | .ldIndR _ | .ldIndN _ | .ldABc | .ldADe | .ldBcA | .ldDeA | .ldANn _
  | .ldNnA _ | .ldhAC | .ldhCA | .ldhAN _ | .ldhNA _ | .ldAHlDec | .ldHlDecA | .ldAHlInc | .ldHlIncA
  | .ldRrNn _ _ | .ldNnSp _ | .ldSpHl | .pushRr _ | .popRr _ | .ldHlSpE _ | .addR _ | .addInd | .addN _
  | .adcR _ | .adcInd | .adcN _ | .subR _ | .subInd | .subN _ | .sbcR _ | .sbcInd | .sbcN _ | .andR _
  | .andInd | .andN _ | .xorR _ | .xorInd | .xorN _ | .orR _ | .orInd | .orN _ | .cpR _ | .cpInd | .cpN _
  | .incR _ | .incInd | .decR _ | .decInd | .daa | .cpl | .scf | .ccf | .addHlRr _ | .incRr _ | .decRr _
  | .addSpE _ | .rlca | .rrca | .rla | .rra | .jpNn _ | .jpCcNn _ _ | .jpHl | .jrE _ | .jrCcE _ _ | .callNn _
  | .callCcNn _ _ | .ret | .retCc _ | .reti | .nop | .halt | .stop | .di | .ei | .prefixCb | .illegalD3
  | .illegalDB | .illegalDD | .illegalE3 | .illegalE4 | .illegalEB | .illegalEC | .illegalED | .illegalF4
  | .illegalFC | .illegalFD | .rlcR _ | .rlcInd | .rrcR _ | .rrcInd | .rlR _ | .rlInd | .rrR _ | .rrInd
  | .slaR _ | .slaInd | .sraR _ | .sraInd | .swapR _ | .swapInd | .srlR _ | .srlInd => true

/-- An instruction that has an encoding. -/
abbrev Instr.WellFormed (i : Instr) : Prop := i.wf = true

end Sys2Proof
end

