-- ==== Sys2Proof/Decode.lean ====
section
/-! DEFINITION. Byte-order and field helpers, the decoder (R102 to R111, R113) and, after it, the encoder.
The decoder goes by the octal fields x, y, z of R102 and R109; the encoder by the opcode values each instruction's own
rule gives, so that the two are independent readings of the spec. -/

namespace Sys2Proof

/-! ## Byte order, fields and operand tables -/

/-- `hi(w)`, bits 15:8 (R7). -/
def hiByte (w : Word) : Byte := w.extractLsb' 8 8

/-- `lo(w)`, bits 7:0 (R7). -/
def loByte (w : Word) : Byte := w.extractLsb' 0 8

/-- `{h, l}` (R7): the first-named byte is the high half (R21). -/
def wordOf (h l : Byte) : Word := h ++ l

/-- `zext_16(b)` (R7). -/
def zext16 (b : Byte) : Word := b.setWidth 16

/-- `sext_16(b)`: the signed byte, modulo 65536 (R7, R106). -/
def sext16 (b : Byte) : Word := b.signExtend 16

/-- A number below 256 as a byte. -/
def byteOf (n : Nat) : Byte := BitVec.ofNat 8 n

/-- `x = op[7:6]` (R102). -/
def fieldX (op : Byte) : Nat := (op >>> 6).toNat

/-- `y = op[5:3]` (R102). -/
def fieldY (op : Byte) : Nat := ((op >>> 3) &&& 7#8).toNat

/-- `z = op[2:0]` (R102). -/
def fieldZ (op : Byte) : Nat := (op &&& 7#8).toNat

/-- The operand table `r8` (R103): `none` is the HL-indirect operand, code 6. -/
def reg8OfCode : Nat → Option Reg8
  | 0 => some .b
  | 1 => some .c
  | 2 => some .d
  | 3 => some .e
  | 4 => some .h
  | 5 => some .l
  | 6 => none
  | _ => some .a

/-- The table `r16` (R104). -/
def reg16OfCode : Nat → Reg16
  | 0 => .bc
  | 1 => .de
  | 2 => .hl
  | _ => .sp

/-- The table `r16stk` (R104). -/
def stkRegOfCode : Nat → StkReg
  | 0 => .bc
  | 1 => .de
  | 2 => .hl
  | _ => .af

/-- The condition table `cc` (R105). -/
def condOfCode : Nat → Cond
  | 0 => .nz
  | 1 => .z
  | 2 => .nc
  | _ => .c

/-! ## The decoder -/

/-- Quarter `x = 0` of the first-byte map: the miscellaneous instructions (R109, R110). -/
def decodeQuarter0 (y z : Nat) (n : Byte) (nn : Word) : Instr :=
  match z with
  | 0 =>
    match y with
    | 0 => .nop
    | 1 => .ldNnSp nn
    | 2 => .stop
    | 3 => .jrE n
    | _ => .jrCcE (condOfCode (y - 4)) n
  | 1 => if y % 2 = 0 then .ldRrNn (reg16OfCode (y / 2)) nn else .addHlRr (reg16OfCode (y / 2))
  | 2 =>
    match y with
    | 0 => .ldBcA
    | 1 => .ldABc
    | 2 => .ldDeA
    | 3 => .ldADe
    | 4 => .ldHlIncA
    | 5 => .ldAHlInc
    | 6 => .ldHlDecA
    | _ => .ldAHlDec
  | 3 => if y % 2 = 0 then .incRr (reg16OfCode (y / 2)) else .decRr (reg16OfCode (y / 2))
  | 4 =>
    match reg8OfCode y with
    | some r => .incR r
    | none => .incInd
  | 5 =>
    match reg8OfCode y with
    | some r => .decR r
    | none => .decInd
  | 6 =>
    match reg8OfCode y with
    | some r => .ldRN r n
    | none => .ldIndN n
  | _ =>
    match y with
    | 0 => .rlca
    | 1 => .rrca
    | 2 => .rla
    | 3 => .rra
    | 4 => .daa
    | 5 => .cpl
    | 6 => .scf
    | _ => .ccf

/-- Quarter `x = 1`: the register loads, and HALT in the slot `y = z = 6` (R109). -/
def decodeQuarter1 (y z : Nat) : Instr :=
  match reg8OfCode y, reg8OfCode z with
  | some r, some r' => .ldRR r r'
  | some r, none => .ldRInd r
  | none, some r' => .ldIndR r'
  | none, none => .halt

/-- The ALU operation `y` on A and a register or the byte at HL (R109). -/
def decodeAlu (y : Nat) (src : Option Reg8) : Instr :=
  match y, src with
  | 0, some r => .addR r
  | 0, none => .addInd
  | 1, some r => .adcR r
  | 1, none => .adcInd
  | 2, some r => .subR r
  | 2, none => .subInd
  | 3, some r => .sbcR r
  | 3, none => .sbcInd
  | 4, some r => .andR r
  | 4, none => .andInd
  | 5, some r => .xorR r
  | 5, none => .xorInd
  | 6, some r => .orR r
  | 6, none => .orInd
  | _, some r => .cpR r
  | _, none => .cpInd

/-- The ALU operation `y` on A and an immediate (R109). -/
def decodeAluImm (y : Nat) (n : Byte) : Instr :=
  match y with
  | 0 => .addN n
  | 1 => .adcN n
  | 2 => .subN n
  | 3 => .sbcN n
  | 4 => .andN n
  | 5 => .xorN n
  | 6 => .orN n
  | _ => .cpN n

/-- Quarter `x = 3`: control transfer, stack, I/O-page loads, the prefix and the eleven unassigned bytes
(R109, R110, R113). -/
def decodeQuarter3 (y z : Nat) (n : Byte) (nn : Word) : Instr :=
  match z with
  | 0 =>
    match y with
    | 4 => .ldhNA n
    | 5 => .addSpE n
    | 6 => .ldhAN n
    | 7 => .ldHlSpE n
    | _ => .retCc (condOfCode y)
  | 1 =>
    match y with
    | 1 => .ret
    | 3 => .reti
    | 5 => .jpHl
    | 7 => .ldSpHl
    | _ => .popRr (stkRegOfCode (y / 2))
  | 2 =>
    match y with
    | 4 => .ldhCA
    | 5 => .ldNnA nn
    | 6 => .ldhAC
    | 7 => .ldANn nn
    | _ => .jpCcNn (condOfCode y) nn
  | 3 =>
    match y with
    | 0 => .jpNn nn
    | 1 => .prefixCb
    | 2 => .illegalD3
    | 3 => .illegalDB
    | 4 => .illegalE3
    | 5 => .illegalEB
    | 6 => .di
    | _ => .ei
  | 4 =>
    match y with
    | 4 => .illegalE4
    | 5 => .illegalEC
    | 6 => .illegalF4
    | 7 => .illegalFC
    | _ => .callCcNn (condOfCode y) nn
  | 5 =>
    match y with
    | 1 => .callNn nn
    | 3 => .illegalDD
    | 5 => .illegalED
    | 7 => .illegalFD
    | _ => .pushRr (stkRegOfCode (y / 2))
  | 6 => decodeAluImm y n
  | _ => .rstT y

/-- The instruction that the first byte `op` selects (R109, R110), given the byte after it and, low byte first (R76,
R106), the word after it; 0xCB selects the prefix itself. -/
def decodeFirst (op n1 n2 : Byte) : Instr :=
  match fieldX op with
  | 0 => decodeQuarter0 (fieldY op) (fieldZ op) n1 (wordOf n2 n1)
  | 1 => decodeQuarter1 (fieldY op) (fieldZ op)
  | 2 => decodeAlu (fieldY op) (reg8OfCode (fieldZ op))
  | _ => decodeQuarter3 (fieldY op) (fieldZ op) n1 (wordOf n2 n1)

/-- The rotate, shift or swap `y` on a register or the byte at HL (R111). -/
def decodeShift (y : Nat) (opd : Option Reg8) : Instr :=
  match y, opd with
  | 0, some r => .rlcR r
  | 0, none => .rlcInd
  | 1, some r => .rrcR r
  | 1, none => .rrcInd
  | 2, some r => .rlR r
  | 2, none => .rlInd
  | 3, some r => .rrR r
  | 3, none => .rrInd
  | 4, some r => .slaR r
  | 4, none => .slaInd
  | 5, some r => .sraR r
  | 5, none => .sraInd
  | 6, some r => .swapR r
  | 6, none => .swapInd
  | _, some r => .srlR r
  | _, none => .srlInd

/-- The instruction that the byte after the prefix 0xCB selects (R111): all 256 values are assigned. -/
def decodeCb (op2 : Byte) : Instr :=
  match fieldX op2, reg8OfCode (fieldZ op2) with
  | 0, opd => decodeShift (fieldY op2) opd
  | 1, some r => .bitBR (fieldY op2) r
  | 1, none => .bitBInd (fieldY op2)
  | 2, some r => .resBR (fieldY op2) r
  | 2, none => .resBInd (fieldY op2)
  | _, some r => .setBR (fieldY op2) r
  | _, none => .setBInd (fieldY op2)

/-- The instruction at the head of three instruction bytes: what one opcode fetch and the fetches after it read
(R100, R101, R108). Total: each of the 256 first bytes and of the 256 second bytes after 0xCB is one row (R113, R244). -/
def decodeBytes (b0 b1 b2 : Byte) : Instr :=
  if b0 = 0xCB#8 then decodeCb b1 else decodeFirst b0 b1 b2

/-- How many bytes an instruction is fetched in: the table's `length` (R107). The rows STOP and PREFIX CB are one byte
there; the second byte of STOP under `STOP_POLICY = nop2` and the byte after a lone prefix are fetched by their meanings
(R302, R244). -/
def Instr.length : Instr → Nat
  | .ldANn _ | .ldNnA _ | .ldRrNn _ _ | .ldNnSp _ | .jpNn _ | .jpCcNn _ _ | .callNn _ | .callCcNn _ _ => 3
  | .ldRN _ _ | .ldIndN _ | .ldhAN _ | .ldhNA _ | .ldHlSpE _ | .addN _ | .adcN _ | .subN _ | .sbcN _
  | .andN _ | .xorN _ | .orN _ | .cpN _ | .addSpE _ | .jrE _ | .jrCcE _ _ | .rlcR _ | .rlcInd | .rrcR _
  | .rrcInd | .rlR _ | .rlInd | .rrR _ | .rrInd | .slaR _ | .slaInd | .sraR _ | .sraInd | .swapR _ | .swapInd
  | .srlR _ | .srlInd | .bitBR _ _ | .bitBInd _ | .resBR _ _ | .resBInd _ | .setBR _ _ | .setBInd _ => 2
  | .ldRR _ _ | .ldRInd _ | .ldIndR _ | .ldABc | .ldADe | .ldBcA | .ldDeA | .ldhAC | .ldhCA | .ldAHlDec
  | .ldHlDecA | .ldAHlInc | .ldHlIncA | .ldSpHl | .pushRr _ | .popRr _ | .addR _ | .addInd | .adcR _
  | .adcInd | .subR _ | .subInd | .sbcR _ | .sbcInd | .andR _ | .andInd | .xorR _ | .xorInd | .orR _ | .orInd
  | .cpR _ | .cpInd | .incR _ | .incInd | .decR _ | .decInd | .daa | .cpl | .scf | .ccf | .addHlRr _
  | .incRr _ | .decRr _ | .rlca | .rrca | .rla | .rra | .jpHl | .ret | .retCc _ | .reti | .rstT _ | .nop
  | .halt | .stop | .di | .ei | .prefixCb | .illegalD3 | .illegalDB | .illegalDD | .illegalE3 | .illegalE4
  | .illegalEB | .illegalEC | .illegalED | .illegalF4 | .illegalFC | .illegalFD => 1

/-- Why a list of bytes is not read as an instruction. -/
inductive DecodeError where
  /-- There is no byte. -/
  | empty
  /-- The first byte asks for more bytes than there are (R107). -/
  | truncated (op : Byte)
  deriving DecidableEq, Repr

/-- The instruction at the head of a list of bytes and the bytes after it, or why there is none. A prefix byte with
nothing after it is the row PREFIX CB. -/
def decode : List Byte → Except DecodeError (Instr × List Byte)
  | [] => .error .empty
  | [b0] =>
    if (decodeFirst b0 0 0).length = 1 then .ok (decodeFirst b0 0 0, []) else .error (.truncated b0)
  | [b0, b1] =>
    if (decodeBytes b0 b1 0).length ≤ 2 then
      .ok (decodeBytes b0 b1 0, [b0, b1].drop (decodeBytes b0 b1 0).length)
    else .error (.truncated b0)
  | b0 :: b1 :: b2 :: rest =>
    .ok (decodeBytes b0 b1 b2, (b0 :: b1 :: b2 :: rest).drop (decodeBytes b0 b1 b2).length)

/-- The three bytes, first at the lowest address, of an instruction whose `nbits` bits are `w`, numbered as
spec/opcode_table.json numbers them; every bit above them is 0. -/
def tableBytes (nbits w : Nat) : List Byte :=
  let v := w % 2 ^ nbits
  [byteOf v, byteOf (v / 0x100), byteOf (v / 0x10000)]

/-- The instruction the decoder reads from the bits of a row of spec/opcode_table.json. -/
def decodeTableWord (nbits w : Nat) : Option Instr :=
  match decode (tableBytes nbits w) with
  | .ok (i, _) => some i
  | .error _ => none

/-! ## The encoder -/

/-- The code of a register in the table `r8` (R103). -/
def Reg8.code : Reg8 → Nat
  | .b => 0
  | .c => 1
  | .d => 2
  | .e => 3
  | .h => 4
  | .l => 5
  | .a => 7

/-- The code of a pair in the table `r16` (R104). -/
def Reg16.code : Reg16 → Nat
  | .bc => 0
  | .de => 1
  | .hl => 2
  | .sp => 3

/-- The code of a pair in the table `r16stk` (R104). -/
def StkReg.code : StkReg → Nat
  | .bc => 0
  | .de => 1
  | .hl => 2
  | .af => 3

/-- The code of a condition in the table `cc` (R105). -/
def Cond.code : Cond → Nat
  | .nz => 0
  | .z => 1
  | .nc => 2
  | .c => 3

/-- The bytes of a well-formed instruction, first byte first, from the `Encoding:` line of its rule. -/
def encode : Instr → List Byte
  | .ldRR dst src => [byteOf (0x40 + 8 * dst.code + src.code)]
  | .ldRN dst n => [byteOf (0x06 + 8 * dst.code), n]
  | .ldRInd dst => [byteOf (0x46 + 8 * dst.code)]
  | .ldIndR src => [byteOf (0x70 + src.code)]
  | .ldIndN n => [0x36, n]
  | .ldABc => [0x0A]
  | .ldADe => [0x1A]
  | .ldBcA => [0x02]
  | .ldDeA => [0x12]
  | .ldANn nn => [0xFA, loByte nn, hiByte nn]
  | .ldNnA nn => [0xEA, loByte nn, hiByte nn]
  | .ldhAC => [0xF2]
  | .ldhCA => [0xE2]
  | .ldhAN n => [0xF0, n]
  | .ldhNA n => [0xE0, n]
  | .ldAHlDec => [0x3A]
  | .ldHlDecA => [0x32]
  | .ldAHlInc => [0x2A]
  | .ldHlIncA => [0x22]
  | .ldRrNn rr nn => [byteOf (0x01 + 16 * rr.code), loByte nn, hiByte nn]
  | .ldNnSp nn => [0x08, loByte nn, hiByte nn]
  | .ldSpHl => [0xF9]
  | .pushRr rr => [byteOf (0xC5 + 16 * rr.code)]
  | .popRr rr => [byteOf (0xC1 + 16 * rr.code)]
  | .ldHlSpE e => [0xF8, e]
  | .addR src => [byteOf (0x80 + src.code)]
  | .addInd => [0x86]
  | .addN n => [0xC6, n]
  | .adcR src => [byteOf (0x88 + src.code)]
  | .adcInd => [0x8E]
  | .adcN n => [0xCE, n]
  | .subR src => [byteOf (0x90 + src.code)]
  | .subInd => [0x96]
  | .subN n => [0xD6, n]
  | .sbcR src => [byteOf (0x98 + src.code)]
  | .sbcInd => [0x9E]
  | .sbcN n => [0xDE, n]
  | .andR src => [byteOf (0xA0 + src.code)]
  | .andInd => [0xA6]
  | .andN n => [0xE6, n]
  | .xorR src => [byteOf (0xA8 + src.code)]
  | .xorInd => [0xAE]
  | .xorN n => [0xEE, n]
  | .orR src => [byteOf (0xB0 + src.code)]
  | .orInd => [0xB6]
  | .orN n => [0xF6, n]
  | .cpR src => [byteOf (0xB8 + src.code)]
  | .cpInd => [0xBE]
  | .cpN n => [0xFE, n]
  | .incR dst => [byteOf (0x04 + 8 * dst.code)]
  | .incInd => [0x34]
  | .decR dst => [byteOf (0x05 + 8 * dst.code)]
  | .decInd => [0x35]
  | .daa => [0x27]
  | .cpl => [0x2F]
  | .scf => [0x37]
  | .ccf => [0x3F]
  | .addHlRr rr => [byteOf (0x09 + 16 * rr.code)]
  | .incRr rr => [byteOf (0x03 + 16 * rr.code)]
  | .decRr rr => [byteOf (0x0B + 16 * rr.code)]
  | .addSpE e => [0xE8, e]
  | .rlca => [0x07]
  | .rrca => [0x0F]
  | .rla => [0x17]
  | .rra => [0x1F]
  | .jpNn nn => [0xC3, loByte nn, hiByte nn]
  | .jpCcNn cc nn => [byteOf (0xC2 + 8 * cc.code), loByte nn, hiByte nn]
  | .jpHl => [0xE9]
  | .jrE e => [0x18, e]
  | .jrCcE cc e => [byteOf (0x20 + 8 * cc.code), e]
  | .callNn nn => [0xCD, loByte nn, hiByte nn]
  | .callCcNn cc nn => [byteOf (0xC4 + 8 * cc.code), loByte nn, hiByte nn]
  | .ret => [0xC9]
  | .retCc cc => [byteOf (0xC0 + 8 * cc.code)]
  | .reti => [0xD9]
  | .rstT t => [byteOf (0xC7 + 8 * t)]
  | .nop => [0x00]
  | .halt => [0x76]
  | .stop => [0x10]
  | .di => [0xF3]
  | .ei => [0xFB]
  | .prefixCb => [0xCB]
  | .illegalD3 => [0xD3]
  | .illegalDB => [0xDB]
  | .illegalDD => [0xDD]
  | .illegalE3 => [0xE3]
  | .illegalE4 => [0xE4]
  | .illegalEB => [0xEB]
  | .illegalEC => [0xEC]
  | .illegalED => [0xED]
  | .illegalF4 => [0xF4]
  | .illegalFC => [0xFC]
  | .illegalFD => [0xFD]
  | .rlcR r => [0xCB, byteOf (0x00 + r.code)]
  | .rlcInd => [0xCB, 0x06]
  | .rrcR r => [0xCB, byteOf (0x08 + r.code)]
  | .rrcInd => [0xCB, 0x0E]
  | .rlR r => [0xCB, byteOf (0x10 + r.code)]
  | .rlInd => [0xCB, 0x16]
  | .rrR r => [0xCB, byteOf (0x18 + r.code)]
  | .rrInd => [0xCB, 0x1E]
  | .slaR r => [0xCB, byteOf (0x20 + r.code)]
  | .slaInd => [0xCB, 0x26]
  | .sraR r => [0xCB, byteOf (0x28 + r.code)]
  | .sraInd => [0xCB, 0x2E]
  | .swapR r => [0xCB, byteOf (0x30 + r.code)]
  | .swapInd => [0xCB, 0x36]
  | .srlR r => [0xCB, byteOf (0x38 + r.code)]
  | .srlInd => [0xCB, 0x3E]
  | .bitBR b r => [0xCB, byteOf (0x40 + 8 * b + r.code)]
  | .bitBInd b => [0xCB, byteOf (0x46 + 8 * b)]
  | .resBR b r => [0xCB, byteOf (0x80 + 8 * b + r.code)]
  | .resBInd b => [0xCB, byteOf (0x86 + 8 * b)]
  | .setBR b r => [0xCB, byteOf (0xC0 + 8 * b + r.code)]
  | .setBInd b => [0xCB, byteOf (0xC6 + 8 * b)]

end Sys2Proof
end

