-- ==== Sys2Proof/Machine/State.lean ====
section
/-! DEFINITION. The machine's state as plain data (10_state.md), the reasons a step can stop, and the power-on state. -/

namespace Sys2Proof.Machine

/-- The three values of `halt_state` (R28). -/
inductive HaltState where
  | running | halted | haltBug
  deriving DecidableEq, Repr

/-- A sprite entry: a copy of one OAM entry and its index (R51). -/
structure Sprite where
  index : Nat
  y : Byte
  x : Byte
  tile : Byte
  flags : Byte
  deriving DecidableEq, Repr

/-- What the Draw mode carries (R51): the scanline, the sprites selected for it in priority order, the next column to
emit, the dots spent in this Draw, the penalty dots left, and whether the window was shown on this line. -/
structure DrawLine where
  ly : Nat
  sprites : List Sprite
  col : Nat
  dots : Nat
  penalty : Nat
  windowShown : Bool
  deriving DecidableEq, Repr

/-- The five modes of the VideoUnit with their payloads (R51). -/
inductive PpuMode where
  | stopped
  | oamScan (ly dotsLeft : Nat)
  | draw (line : DrawLine)
  | hBlank (ly dotsLeft : Nat)
  | vBlank (dotsLeft : Nat)
  deriving DecidableEq, Repr

/-- The VideoUnit's state: its mode (R51) and the window-line counter `wlc` (R52). -/
structure Video where
  mode : PpuMode
  wlc : Nat
  deriving DecidableEq, Repr

/-- The four colours (R53). -/
inductive Shade where
  | white | lightGray | darkGray | black
  deriving DecidableEq, Repr

/-- A pixel of the output stream (R53). -/
structure Pixel where
  x : Nat
  y : Nat
  color : Shade
  deriving DecidableEq, Repr

/-- What `execute_one` reports to the step: `cycles_consumed` and `entered_halt` (R112).
A value inside one step, not state across steps (R55): every step ends with it idle. -/
structure Report where
  cycles : Nat
  enteredHalt : Bool
  deriving DecidableEq, Repr

/-- Nothing reported: what stands in `State.report` between steps. -/
def Report.idle : Report := { cycles := 0, enteredHalt := false }

/-- The storage behind the bus: pairs of a bus address and the byte stored there (R54), for the bytes that differ from
their power-on value. `Machine/Memory.lean` gives its canonical form, what an unlisted address holds, and its
operations. -/
abbrev Memory := List Host.Cell

/-- The whole state. -/
structure State where
  /-- The eight 8-bit registers (R20); a pair is two of them (R21). -/
  a : Byte
  f : Byte
  b : Byte
  c : Byte
  d : Byte
  e : Byte
  h : Byte
  l : Byte
  /-- The stack pointer and the program counter (R22, R26). -/
  sp : Word
  pc : Word
  /-- The interrupt master enable (R27). -/
  ime : Bool
  /-- The delayed effect of EI (R29). -/
  imePending : Bool
  /-- `halt_state` (R28). -/
  haltState : HaltState
  /-- Every byte behind the bus, the control registers among them (R32 to R49, R54). -/
  mem : Memory
  /-- The Clock's cycle counter `cyc` (R50). -/
  cyc : Nat
  /-- The VideoUnit (R51, R52). -/
  video : Video
  /-- The parameters of R6, which no step changes (log 3). -/
  params : Params
  /-- The value `execute_one` hands to the rest of its step (R112, R55; log 4). -/
  report : Report
  /-- The serial port: the byte the last step emitted, if it did (R407, R410; log 4). -/
  serialOut : Option Byte
  /-- The pixel port: the pixels the last step emitted, in emission order (R407, R409; log 4). -/
  pixelsOut : List Pixel
  deriving DecidableEq, Repr

/-- The fatal conditions that can occur (R430). Both end the run with no successor state, as the spec says. -/
inductive Fault where
  /-- `UnknownOpcode(op, addr)`. Raised by the eleven unassigned first bytes (R305) and by STOP under
  `STOP_POLICY = fault` (R302). Safe: the spec's own abort. -/
  | unknownOpcode (op : Byte) (addr : Word)
  /-- `EchoWrite(addr)`. Raised by an instruction's write to 0xE000..0xFDFF under `ECHO_WRITE = fault` (R68).
  Safe: the spec's own abort. -/
  | echoWrite (addr : Word)
  deriving DecidableEq, Repr

/-- Why the model gives an instruction no meaning. -/
inductive Refusal where
  /-- No meaning yet: raised by an arm of `exec` only (no arm does). Safe. -/
  | notModelled (mnemonic : String)
  deriving DecidableEq, Repr

/-- What a meaning or a step answers. -/
abbrev Res := Host.Outcome State Fault Refusal

/-- The power-on state (R56 to R58, R460, R462) under the default parameters (R6): the Cpu registers by R56, memory with
nothing listed (its power-on contents are `resetByte`, R57, R58), `cyc = 0`, the VideoUnit Stopped with
`wlc = 0`, and nothing reported or emitted. -/
def State.reset : State where
  a := 0x01
  f := 0xB0
  b := 0x00
  c := 0x13
  d := 0x00
  e := 0xD8
  h := 0x01
  l := 0x4D
  sp := 0xFFFE
  pc := 0x0100
  ime := false
  imePending := false
  haltState := .running
  mem := []
  cyc := 0
  video := { mode := .stopped, wlc := 0 }
  params := Params.default
  report := Report.idle
  serialOut := none
  pixelsOut := []

end Sys2Proof.Machine
end

