-- ==== Sys2Proof/Machine/Memory.lean ====
section
/-! DEFINITION. The storage behind the bus and the bus router (20_memory.md): the address map, the power-on contents,
reading and writing one byte, and the OAM DMA copy. -/

namespace Sys2Proof.Machine

/-! ## The address map -/

/-- The ten regions of the address space, in address order (R63). -/
inductive Region where
  | rom | vram | eram | wram | echo | oam | gap | io | hram | ie
  deriving DecidableEq, Repr

/-- The partition table (R60, R63): total, one region for each address. -/
def regionOf (a : Nat) : Region :=
  if a ≤ 0x7FFF then .rom
  else if a ≤ 0x9FFF then .vram
  else if a ≤ 0xBFFF then .eram
  else if a ≤ 0xDFFF then .wram
  else if a ≤ 0xFDFF then .echo
  else if a ≤ 0xFE9F then .oam
  else if a ≤ 0xFEFF then .gap
  else if a ≤ 0xFF7F then .io
  else if a ≤ 0xFFFE then .hram
  else .ie

/-- The region has storage of its own (R54): all but the mirror and the gap. -/
def Region.hasStorage : Region → Bool
  | .rom | .vram | .eram | .wram | .oam | .io | .hram | .ie => true
  | .echo | .gap => false

/-- A write to the region stores the byte (R63): ROM, mirror and gap writes change nothing. -/
def Region.writable : Region → Bool
  | .vram | .eram | .wram | .oam | .io | .hram | .ie => true
  | .rom | .echo | .gap => false

/-! ## Power-on contents -/

/-- `RAM_INIT`, its default (R6, R58, D6). -/
def ramInit : Byte := 0x00

/-- The byte of a cartridge image that nothing has loaded. DESIGN CHOICE (log 1): the spec gives `ROM` no default. -/
def romInit : Byte := 0x00

/-- `IE_RESET`, its default (R6, R57). -/
def ieReset : Byte := 0x00

/-- `IO_RESET`'s default: serial, timer and interrupt request (R57). -/
def ioResetSystem : List Host.Cell :=
  [(0xFF00, 0xCF), (0xFF01, 0x00), (0xFF02, 0x7E), (0xFF04, 0xAB), (0xFF05, 0x00), (0xFF06, 0x00), (0xFF07, 0xF8),
   (0xFF0F, 0xE1)]

/-- `IO_RESET`'s default: the audio addresses, which have no function here (R57). -/
def ioResetAudio : List Host.Cell :=
  [(0xFF10, 0x80), (0xFF11, 0xBF), (0xFF12, 0xF3), (0xFF13, 0xFF), (0xFF14, 0xBF), (0xFF16, 0x3F), (0xFF17, 0x00),
   (0xFF18, 0xFF), (0xFF19, 0xBF), (0xFF1A, 0x7F), (0xFF1B, 0xFF), (0xFF1C, 0x9F), (0xFF1D, 0xFF), (0xFF1E, 0xBF),
   (0xFF20, 0xFF), (0xFF21, 0x00), (0xFF22, 0x00), (0xFF23, 0xBF), (0xFF24, 0x77), (0xFF25, 0xF3), (0xFF26, 0xF1)]

/-- `IO_RESET`'s default: the video registers and the DMA register (R57). -/
def ioResetVideo : List Host.Cell :=
  [(0xFF40, 0x91), (0xFF41, 0x85), (0xFF42, 0x00), (0xFF43, 0x00), (0xFF44, 0x00), (0xFF45, 0x00), (0xFF46, 0xFF),
   (0xFF47, 0xFC), (0xFF48, 0xFF), (0xFF49, 0xFF), (0xFF4A, 0x00), (0xFF4B, 0x00)]

/-- The byte of the first cell at an address, if the list has one. -/
def lookupCell : List Host.Cell → Nat → Option Byte
  | [], _ => none
  | (k, v) :: rest, a => if a = k then some v else lookupCell rest a

/-- `IO_RESET`, its default (R57): an I/O byte the table does not list resets to 0x00. -/
def ioReset (offset : Fin 128) : Byte :=
  (lookupCell (ioResetVideo ++ ioResetSystem ++ ioResetAudio) (0xFF00 + offset.val)).getD 0x00

/-- The defaults of R6. `ROM` has none there: the image is the model's (log 1). -/
def defaultPowerOn : PowerOn where
  params := Params.default
  rom := fun _ => romInit
  ioReset := ioReset
  ieReset := ieReset
  ramInit := ramInit

/-- What a byte of storage holds at power-on (R57, R58, R64). -/
def powerOnByte (p : PowerOn) (a : Nat) : Byte :=
  match regionOf a with
  | .rom => p.rom (Fin.ofNat 32768 a)
  | .io => p.ioReset (Fin.ofNat 128 (a - 0xFF00))
  | .ie => p.ieReset
  | _ => p.ramInit

/-- What an address that memory does not list holds: its power-on value by the defaults. -/
def resetByte (a : Nat) : Byte := powerOnByte defaultPowerOn a

/-! ## Storage -/

namespace Memory

/-- The byte stored at an address. -/
def get (m : Memory) (a : Nat) : Byte := (lookupCell m a).getD (resetByte a)

/-- Memory without any cell at an address. -/
def erase (m : Memory) (a : Nat) : Memory := m.filter fun cell => cell.1 ≠ a

/-- Put a cell before the first cell of a higher address. -/
def insertCell (a : Nat) (v : Byte) : Memory → Memory
  | [] => [(a, v)]
  | (k, w) :: rest => if a < k then (a, v) :: (k, w) :: rest else (k, w) :: insertCell a v rest

/-- Store a byte: the power-on value of an address is not listed, so that equal memories are equal lists. -/
def put (m : Memory) (a : Nat) (v : Byte) : Memory :=
  if v = resetByte a then m.erase a else insertCell a v (m.erase a)

/-- The canonical form: addresses strictly rising, each the address of a byte of storage (R54), and no byte equal to what
its address holds unlisted. -/
abbrev wf (m : Memory) : Prop :=
  List.Pairwise (fun c c' : Host.Cell => c.1 < c'.1) m ∧
    ∀ c ∈ m, c.1 < 0x10000 ∧ (regionOf c.1).hasStorage = true ∧ c.2 ≠ resetByte c.1

end Memory

/-! ## The bus -/

/-- `MemRead(addr, 1)` (R61, R64 to R74): the mirror reads work RAM 0x2000 below (R68), the gap reads 0xFF (R71), every
other region its own storage. -/
def memRead (m : Memory) (addr : Word) : Byte :=
  match regionOf addr.toNat with
  | .echo => m.get (addr.toNat - 0x2000)
  | .gap => 0xFF
  | _ => m.get addr.toNat

/-- `region.write(offset, v)` (R62 to R74): what is not writable keeps its contents (R64, R68 under
`ECHO_WRITE = ignore`, R71). -/
def writeRegion (m : Memory) (addr : Word) (v : Byte) : Memory :=
  if (regionOf addr.toNat).writable then m.put addr.toNat v else m

/-- Byte `i` of the OAM DMA copy from page `page` (R73). -/
def dmaByte (page : Byte) (m : Memory) (i : Nat) : Memory :=
  writeRegion m (0xFE00 + BitVec.ofNat 16 i) (memRead m (wordOf page 0 + BitVec.ofNat 16 i))

/-- The OAM DMA copy: 160 bytes, in ascending order, each through the bus (R73). -/
def dmaCopy (page : Byte) (m : Memory) : Memory := (List.range 160).foldl (dmaByte page) m

/-- The address whose write triggers the copy (R46, R62). -/
def dmaAddr : Word := 0xFF46

/-- `MemWrite(addr, 1, v)` (R62): the region's write and then, for the DMA trigger register, the copy. -/
def memWrite (m : Memory) (addr : Word) (v : Byte) : Memory :=
  if addr = dmaAddr then dmaCopy v (writeRegion m addr v) else writeRegion m addr v

/-! ## The power-on state -/

/-- The power-on value of a byte of storage, if it is not what its address holds unlisted. -/
def powerOnCell (p : PowerOn) (a : Nat) : Option Host.Cell :=
  if (regionOf a).hasStorage && decide (powerOnByte p a ≠ resetByte a) then some (a, powerOnByte p a) else none

/-- Memory at power-on (R57, R58): every byte of storage at the value that the parameters give it. -/
@[irreducible] def powerOnMemory (p : PowerOn) : Memory := (List.range 0x10000).filterMap (powerOnCell p)

/-- The power-on state for any setting of the parameters of R6 (R56 to R58, R460); `State.reset` is the one for the
defaults. -/
def State.powerOn (p : PowerOn) : State := { State.reset with params := p.params, mem := powerOnMemory p }

/-! ## Loading from outside -/

/-- The address of the byte of storage that a read of `a` returns, if there is one (R61, R68, R71). -/
def storageAddr (a : Word) : Option Nat :=
  match regionOf a.toNat with
  | .echo => some (a.toNat - 0x2000)
  | .gap => none
  | _ => some a.toNat

/-- Place bytes at consecutive addresses from outside the machine, ROM included (R64, R408): no bus write, no DMA. -/
def loadBytes : List Byte → Word → Memory → Memory
  | [], _, m => m
  | v :: rest, a, m =>
    loadBytes rest (a + 1) (match storageAddr a with | some k => m.put k v | none => m)

end Sys2Proof.Machine
end

