-- ==== Sys2Proof/Machine/Ops.lean ====
section
/-! DEFINITION. The named operations on the state: sequencing, bus access, instruction fetch, the stack, reporting cycles,
and taking an interrupt with the return from one beside it. -/

namespace Sys2Proof.Machine

/-! ## Sequencing -/

/-- Go on from a result that is a next state; a fault or a refusal ends the instruction (R430). -/
def andThen (r : Res) (k : State → Res) : Res :=
  match r with
  | .next s => k s
  | .fault f => .fault f
  | .refused q => .refused q

/-- Report the M-cycles an instruction consumed (R8 `cycles <- n`, R112). -/
def State.reportCycles (s : State) (n : Nat) : State := { s with report := { cycles := n, enteredHalt := false } }

/-- The end of an instruction: report its cycles (R112). -/
def done (n : Nat) (s : State) : Res := .next (s.reportCycles n)

/-! ## Bus access -/

/-- `MemRead(addr, 1)` (R61). -/
def State.read (s : State) (addr : Word) : Byte := memRead s.mem addr

/-- `MemWrite(addr, 1, v)` by the devices and by interrupt entry: the parts of a step that cannot fail (R62, R430). -/
def State.write (s : State) (addr : Word) (v : Byte) : State := { s with mem := memWrite s.mem addr v }

/-- The write is to the mirror and `ECHO_WRITE = fault` (R68). -/
def echoFaults (s : State) (addr : Word) : Bool :=
  s.params.echoWrite = .fault && regionOf addr.toNat = .echo

/-- `MemWrite(addr, 1, v)` by an instruction (R62): `Fatal(EchoWrite(addr))` where R68 says so. -/
def store (addr : Word) (v : Byte) (s : State) : Res :=
  if echoFaults s addr then .fault (.echoWrite addr) else .next (s.write addr v)

/-! ## Instruction fetch -/

/-- The address the fetches after the opcode byte start at: the HALT bug suppresses the one increment after the opcode
fetch, and nothing else (R101). -/
def State.afterOpcode (s : State) : Word := if s.haltState = .haltBug then s.pc else s.pc + 1

/-- The three bytes that the opcode fetch and the two fetches after it read (R85, R100, R101). -/
def fetchBytes (s : State) : Byte × Byte × Byte :=
  (s.read s.pc, s.read s.afterOpcode, s.read (s.afterOpcode + 1))

/-- The instruction at PC (R112 steps 2 and 3). -/
def fetchInstr (s : State) : Instr := decodeBytes (fetchBytes s).1 (fetchBytes s).2.1 (fetchBytes s).2.2

/-- PC past the bytes of an instruction of `len` bytes (R26, R100, R101). -/
def State.afterFetch (s : State) (len : Nat) : State := { s with pc := s.afterOpcode + BitVec.ofNat 16 (len - 1) }

/-- `Fetch8()` (R100). -/
def fetch8 (s : State) : Byte × State := (s.read s.pc, { s with pc := s.pc + 1 })

/-- The address of the opcode byte of a one-byte instruction that has been fetched (R101, R305). -/
def State.opcodeAddr (s : State) : Word := if s.haltState = .haltBug then s.pc else s.pc - 1

/-- Where `withFetchWord` places an instruction: PC, or the power-on entry point where a byte at PC would fall in the gap,
which has no storage. -/
def fetchPlace (pc : Word) : Word :=
  if (storageAddr pc).isSome && (storageAddr (pc + 1)).isSome && (storageAddr (pc + 2)).isSome then pc else 0x0100

/-! ## The stack -/

/-- `push16(w)` by an instruction (R160): high byte at SP-1, then low byte at SP-2. -/
def push16 (w : Word) (s : State) : Res :=
  andThen (store (s.sp - 1) (hiByte w) { s with sp := s.sp - 1 }) fun s1 =>
    store (s1.sp - 1) (loByte w) { s1 with sp := s1.sp - 1 }

/-- `push16(w)` by interrupt entry (R160, R424), whose writes cannot fail (R430): one that lands in the mirror is dropped
(R438; log 6). -/
def State.pushPlain (s : State) (w : Word) : State :=
  let s1 := { s with sp := s.sp - 1 }.write (s.sp - 1) (hiByte w)
  { s1 with sp := s1.sp - 1 }.write (s1.sp - 1) (loByte w)

/-- `pop16()` (R161): low byte from SP, high byte from SP+1. -/
def pop16 (s : State) : Word × State :=
  (wordOf (s.read (s.sp + 1)) (s.read s.sp), { s with sp := s.sp + 2 })

/-! ## Interrupts -/

/-- IF (R39). -/
def ifAddr : Word := 0xFF0F

/-- IE (R40). -/
def ieAddr : Word := 0xFFFF

/-- The mask of interrupt source `i` (R39, R421). -/
def irqBit (i : Nat) : Byte := 1#8 <<< i

/-- Raise interrupt `i` (R422). -/
def raiseIrq (i : Nat) (m : Memory) : Memory := memWrite m ifAddr (memRead m ifAddr ||| irqBit i)

/-- The sources that are requested and enabled (R423, R424). -/
def pendingSources (m : Memory) : Byte := memRead m ifAddr &&& memRead m ieAddr &&& 0x1F#8

/-- The pending source with the lowest bit number (R424, R426). -/
def lowestSource (q : Byte) : Nat :=
  if q.getLsbD 0 then 0
  else if q.getLsbD 1 then 1
  else if q.getLsbD 2 then 2
  else if q.getLsbD 3 then 3
  else 4

/-- The fixed vector of source `i` (R425). -/
def irqVector (i : Nat) : Word := BitVec.ofNat 16 (0x40 + 8 * i)

/-- Taking interrupt `i` (R424, R427): clear IME, push PC, clear the request bit in IF as it stands after the push, and go
to the vector. Nothing else is saved. -/
def takeInterrupt (i : Nat) (s : State) : State :=
  let s1 := { s with ime := false }.pushPlain s.pc
  { s1.write ifAddr (s1.read ifAddr &&& ~~~(irqBit i)) with pc := irqVector i }

/-- The return from an interrupt (R290, R427): pop PC and set IME at once. -/
def returnFromInterrupt (s : State) : State :=
  { (pop16 s).2 with pc := (pop16 s).1, ime := true, imePending := false }

end Sys2Proof.Machine
end

