-- ==== Sys2Proof/Machine/Operands.lean ====
section
/-! DEFINITION. Operand forms: the register tables (R103, R104), the conditions (R280) and the effective addresses. -/

namespace Sys2Proof.Machine

/-- A register of the table `r8` (R103). -/
def State.getR8 (s : State) : Reg8 → Byte
  | .b => s.b
  | .c => s.c
  | .d => s.d
  | .e => s.e
  | .h => s.h
  | .l => s.l
  | .a => s.a

/-- Write a register of the table `r8` (R103). -/
def State.setR8 (s : State) (r : Reg8) (v : Byte) : State :=
  match r with
  | .b => { s with b := v }
  | .c => { s with c := v }
  | .d => { s with d := v }
  | .e => { s with e := v }
  | .h => { s with h := v }
  | .l => { s with l := v }
  | .a => { s with a := v }

/-- The pairs BC, DE, HL: the first-named register is the high byte (R21). -/
def State.bc (s : State) : Word := wordOf s.b s.c
def State.de (s : State) : Word := wordOf s.d s.e
def State.hl (s : State) : Word := wordOf s.h s.l

/-- Writing a pair writes both halves (R21). -/
def State.setBc (s : State) (w : Word) : State := { s with b := hiByte w, c := loByte w }
def State.setDe (s : State) (w : Word) : State := { s with d := hiByte w, e := loByte w }
def State.setHl (s : State) (w : Word) : State := { s with h := hiByte w, l := loByte w }

/-- F as a byte: its low nibble reads as zero (R23, R24). -/
def State.readF (s : State) : Byte := s.f &&& 0xF0#8

/-- Write F as a byte: its low nibble stays zero (R24, R166). -/
def State.writeF (s : State) (v : Byte) : State := { s with f := v &&& 0xF0#8 }

/-- A pair of the table `r16` (R104). -/
def State.getR16 (s : State) : Reg16 → Word
  | .bc => s.bc
  | .de => s.de
  | .hl => s.hl
  | .sp => s.sp

/-- Write a pair of the table `r16` (R104). -/
def State.setR16 (s : State) (rr : Reg16) (w : Word) : State :=
  match rr with
  | .bc => s.setBc w
  | .de => s.setDe w
  | .hl => s.setHl w
  | .sp => { s with sp := w }

/-- A pair of the table `r16stk` (R104); AF is `(A, F)` (R21). -/
def State.getStk (s : State) : StkReg → Word
  | .bc => s.bc
  | .de => s.de
  | .hl => s.hl
  | .af => wordOf s.a s.readF

/-- Write a pair of the table `r16stk` (R104, R166): AF masks the low nibble of F. -/
def State.setStk (s : State) (rr : StkReg) (w : Word) : State :=
  match rr with
  | .bc => s.setBc w
  | .de => s.setDe w
  | .hl => s.setHl w
  | .af => { s with a := hiByte w }.writeF (loByte w)

/-- `0xFF00 + n`: an address of the I/O page (R106, R141 to R144). -/
def ioPage (n : Byte) : Word := 0xFF00 + zext16 n

/-- The flags, bits of F (R23). -/
def State.flagZ (s : State) : Bool := s.f.getLsbD 7
def State.flagN (s : State) : Bool := s.f.getLsbD 6
def State.flagH (s : State) : Bool := s.f.getLsbD 5
def State.flagC (s : State) : Bool := s.f.getLsbD 4

/-- `cond(cc)` (R280). -/
def State.cond (s : State) : Cond → Bool
  | .nz => !s.flagZ
  | .z => s.flagZ
  | .nc => !s.flagC
  | .c => s.flagC

end Sys2Proof.Machine
end

