-- ==== Sys2Proof/Machine/Flags.lean ====
section
/-! DEFINITION. Results and flag computations of the arithmetic, logic, rotate and shift instructions (files 41 to 44). -/

namespace Sys2Proof.Machine

/-! ## Writing flags -/

/-- The byte of the four flags, low nibble zero (R23, R24). -/
def flagsByte (z n h c : Bool) : Byte :=
  (BitVec.ofBool z ++ BitVec.ofBool n ++ BitVec.ofBool h ++ BitVec.ofBool c ++ 0#4)

/-- Write the four flags (R8, R24); an instruction that leaves a flag alone passes its present value. -/
def State.setFlags (s : State) (z n h c : Bool) : State := { s with f := flagsByte z n h c }

/-- The result of an 8-bit operation and the four flags it computes. -/
structure Alu where
  val : Byte
  z : Bool
  n : Bool
  h : Bool
  c : Bool
  deriving DecidableEq, Repr

/-- Write the flags of an operation. -/
def State.setAluFlags (s : State) (r : Alu) : State := s.setFlags r.z r.n r.h r.c

/-- Write A and the flags of an operation. -/
def State.setAlu (s : State) (r : Alu) : State := { s with a := r.val }.setAluFlags r

/-! ## 8-bit arithmetic and logic -/

/-- `add8(a, b, cin)` (R180). -/
def add8 (a b : Byte) (cin : Bool) : Alu :=
  let sum := a.toNat + b.toNat + cin.toNat
  { val := byteOf sum
    z := byteOf sum = 0
    n := false
    h := decide (a.toNat % 16 + b.toNat % 16 + cin.toNat > 0x0F)
    c := decide (sum > 0xFF) }

/-- `sub8(a, b, cin)` (R181): H and C are the borrows. -/
def sub8 (a b : Byte) (cin : Bool) : Alu :=
  let diff : Int := (a.toNat : Int) - b.toNat - cin.toNat
  { val := BitVec.ofInt 8 diff
    z := BitVec.ofInt 8 diff = 0
    n := true
    h := decide (((a.toNat % 16 : Nat) : Int) - (b.toNat % 16 : Nat) - cin.toNat < 0)
    c := decide (diff < 0) }

/-- AND (R194): H = 1. -/
def and8 (a b : Byte) : Alu := { val := a &&& b, z := a &&& b = 0, n := false, h := true, c := false }

/-- XOR (R197). -/
def xor8 (a b : Byte) : Alu := { val := a ^^^ b, z := a ^^^ b = 0, n := false, h := false, c := false }

/-- OR (R200). -/
def or8 (a b : Byte) : Alu := { val := a ||| b, z := a ||| b = 0, n := false, h := false, c := false }

/-- INC of a byte (R206, R207): C, not written, is the carry given. -/
def inc8 (v : Byte) (carry : Bool) : Alu :=
  { val := v + 1, z := v + 1 = 0, n := false, h := decide (v.toNat % 16 = 0xF), c := carry }

/-- DEC of a byte (R208, R209): C, not written, is the carry given. -/
def dec8 (v : Byte) (carry : Bool) : Alu :=
  { val := v - 1, z := v - 1 = 0, n := true, h := decide (v.toNat % 16 = 0), c := carry }

/-- DAA (R210): A and the flags N, H, C before it. -/
def daa8 (a : Byte) (n h c : Bool) : Alu :=
  if n then
    let adj : Byte := (if h then 0x06 else 0) ||| (if c then 0x60 else 0)
    { val := a - adj, z := a - adj = 0, n := n, h := false, c := c }
  else
    let high : Bool := c || decide (a.toNat > 0x99)
    let adj : Byte := (if h || decide (a.toNat % 16 > 9) then 0x06 else 0) ||| (if high then 0x60 else 0)
    { val := a + adj, z := a + adj = 0, n := n, h := false, c := high }

/-! ## 16-bit arithmetic -/

/-- ADD HL,rr (R230): the sum, its carry out of bit 11 and its carry out of bit 15. -/
def add16 (a b : Word) : Word × Bool × Bool :=
  (BitVec.ofNat 16 (a.toNat + b.toNat), decide (a.toNat % 0x1000 + b.toNat % 0x1000 > 0x0FFF),
    decide (a.toNat + b.toNat > 0xFFFF))

/-- SP + e (R167, R233): the sum with the signed byte, and the carries out of bits 3 and 7 of the unsigned addition of the
low byte of SP and the byte. -/
def addSpOffset (sp : Word) (e : Byte) : Word × Bool × Bool :=
  (sp + sext16 e, decide (sp.toNat % 16 + e.toNat % 16 > 0x0F), decide (sp.toNat % 256 + e.toNat > 0xFF))

/-! ## Rotates and shifts: the result and the bit shifted out (R240 to R260) -/

/-- RLC, RLCA (R240, R245). -/
def rlc8 (v : Byte) : Byte × Bool := (v <<< 1 ||| (if v.getLsbD 7 then 0x01 else 0), v.getLsbD 7)

/-- RRC, RRCA (R241, R247). -/
def rrc8 (v : Byte) : Byte × Bool := (v >>> 1 ||| (if v.getLsbD 0 then 0x80 else 0), v.getLsbD 0)

/-- RL, RLA (R242, R249): the old carry enters bit 0. -/
def rl8 (v : Byte) (carry : Bool) : Byte × Bool := (v <<< 1 ||| (if carry then 0x01 else 0), v.getLsbD 7)

/-- RR, RRA (R243, R251): the old carry enters bit 7. -/
def rr8 (v : Byte) (carry : Bool) : Byte × Bool := (v >>> 1 ||| (if carry then 0x80 else 0), v.getLsbD 0)

/-- SLA (R253). -/
def sla8 (v : Byte) : Byte × Bool := (v <<< 1, v.getLsbD 7)

/-- SRA (R255): bit 7 keeps its value. -/
def sra8 (v : Byte) : Byte × Bool := (v >>> 1 ||| (v &&& 0x80), v.getLsbD 0)

/-- SWAP (R257): C = 0. -/
def swap8 (v : Byte) : Byte × Bool := (v <<< 4 ||| v >>> 4, false)

/-- SRL (R259). -/
def srl8 (v : Byte) : Byte × Bool := (v >>> 1, v.getLsbD 0)

/-! ## Bits (R261 to R266) -/

/-- RES (R263). -/
def clearBit (b : Nat) (v : Byte) : Byte := v &&& (0xFF#8 ^^^ 1#8 <<< b)

/-- SET (R265). -/
def setBit (b : Nat) (v : Byte) : Byte := v ||| 1#8 <<< b

end Sys2Proof.Machine
end

