-- ==== Sys2Proof/Machine/Alu16.lean ====
section
/-! DEFINITION. 16-bit arithmetic (43_alu16.md). -/

namespace Sys2Proof.Machine

/-- `ADD HL,rr` (R230): Z is not written. -/
def execAddHlRr (rr : Reg16) (s : State) : Res :=
  let r := add16 s.hl (s.getR16 rr)
  done 2 ((s.setHl r.1).setFlags s.flagZ false r.2.1 r.2.2)

/-- `INC rr` (R231). -/
def execIncRr (rr : Reg16) (s : State) : Res := done 2 (s.setR16 rr (s.getR16 rr + 1))

/-- `DEC rr` (R232). -/
def execDecRr (rr : Reg16) (s : State) : Res := done 2 (s.setR16 rr (s.getR16 rr - 1))

/-- `ADD SP,e` (R233). -/
def execAddSpE (e : Byte) (s : State) : Res :=
  let r := addSpOffset s.sp e
  done 4 ({ s with sp := r.1 }.setFlags false false r.2.1 r.2.2)

end Sys2Proof.Machine
end

