-- ==== Sys2Proof/Machine/Alu8.lean ====
section
/-! DEFINITION. 8-bit arithmetic and logic (42_alu8.md). -/

namespace Sys2Proof.Machine

/-- `ADD A,r` (R182). -/
def execAddR (src : Reg8) (s : State) : Res := done 1 (s.setAlu (add8 s.a (s.getR8 src) false))

/-- `ADD A,(HL)` (R183). -/
def execAddInd (s : State) : Res := done 2 (s.setAlu (add8 s.a (s.read s.hl) false))

/-- `ADD A,n` (R184). -/
def execAddN (n : Byte) (s : State) : Res := done 2 (s.setAlu (add8 s.a n false))

/-- `ADC A,r` (R185). -/
def execAdcR (src : Reg8) (s : State) : Res := done 1 (s.setAlu (add8 s.a (s.getR8 src) s.flagC))

/-- `ADC A,(HL)` (R186). -/
def execAdcInd (s : State) : Res := done 2 (s.setAlu (add8 s.a (s.read s.hl) s.flagC))

/-- `ADC A,n` (R187). -/
def execAdcN (n : Byte) (s : State) : Res := done 2 (s.setAlu (add8 s.a n s.flagC))

/-- `SUB r` (R188). -/
def execSubR (src : Reg8) (s : State) : Res := done 1 (s.setAlu (sub8 s.a (s.getR8 src) false))

/-- `SUB (HL)` (R189). -/
def execSubInd (s : State) : Res := done 2 (s.setAlu (sub8 s.a (s.read s.hl) false))

/-- `SUB n` (R190). -/
def execSubN (n : Byte) (s : State) : Res := done 2 (s.setAlu (sub8 s.a n false))

/-- `SBC A,r` (R191). -/
def execSbcR (src : Reg8) (s : State) : Res := done 1 (s.setAlu (sub8 s.a (s.getR8 src) s.flagC))

/-- `SBC A,(HL)` (R192). -/
def execSbcInd (s : State) : Res := done 2 (s.setAlu (sub8 s.a (s.read s.hl) s.flagC))

/-- `SBC A,n` (R193). -/
def execSbcN (n : Byte) (s : State) : Res := done 2 (s.setAlu (sub8 s.a n s.flagC))

/-- `AND r` (R194). -/
def execAndR (src : Reg8) (s : State) : Res := done 1 (s.setAlu (and8 s.a (s.getR8 src)))

/-- `AND (HL)` (R195). -/
def execAndInd (s : State) : Res := done 2 (s.setAlu (and8 s.a (s.read s.hl)))

/-- `AND n` (R196). -/
def execAndN (n : Byte) (s : State) : Res := done 2 (s.setAlu (and8 s.a n))

/-- `XOR r` (R197). -/
def execXorR (src : Reg8) (s : State) : Res := done 1 (s.setAlu (xor8 s.a (s.getR8 src)))

/-- `XOR (HL)` (R198). -/
def execXorInd (s : State) : Res := done 2 (s.setAlu (xor8 s.a (s.read s.hl)))

/-- `XOR n` (R199). -/
def execXorN (n : Byte) (s : State) : Res := done 2 (s.setAlu (xor8 s.a n))

/-- `OR r` (R200). -/
def execOrR (src : Reg8) (s : State) : Res := done 1 (s.setAlu (or8 s.a (s.getR8 src)))

/-- `OR (HL)` (R201). -/
def execOrInd (s : State) : Res := done 2 (s.setAlu (or8 s.a (s.read s.hl)))

/-- `OR n` (R202). -/
def execOrN (n : Byte) (s : State) : Res := done 2 (s.setAlu (or8 s.a n))

/-- `CP r` (R203): A is unchanged. -/
def execCpR (src : Reg8) (s : State) : Res := done 1 (s.setAluFlags (sub8 s.a (s.getR8 src) false))

/-- `CP (HL)` (R204). -/
def execCpInd (s : State) : Res := done 2 (s.setAluFlags (sub8 s.a (s.read s.hl) false))

/-- `CP n` (R205). -/
def execCpN (n : Byte) (s : State) : Res := done 2 (s.setAluFlags (sub8 s.a n false))

/-- `INC r` (R206): C is not written. -/
def execIncR (dst : Reg8) (s : State) : Res :=
  let r := inc8 (s.getR8 dst) s.flagC
  done 1 ((s.setR8 dst r.val).setAluFlags r)

/-- `INC (HL)` (R207): the flags come from the value computed, whatever the region keeps. -/
def execIncInd (s : State) : Res :=
  let r := inc8 (s.read s.hl) s.flagC
  andThen (store s.hl r.val s) fun t => done 3 (t.setAluFlags r)

/-- `DEC r` (R208): C is not written. -/
def execDecR (dst : Reg8) (s : State) : Res :=
  let r := dec8 (s.getR8 dst) s.flagC
  done 1 ((s.setR8 dst r.val).setAluFlags r)

/-- `DEC (HL)` (R209): the flags come from the value computed, whatever the region keeps. -/
def execDecInd (s : State) : Res :=
  let r := dec8 (s.read s.hl) s.flagC
  andThen (store s.hl r.val s) fun t => done 3 (t.setAluFlags r)

/-- `DAA` (R210). -/
def execDaa (s : State) : Res := done 1 (s.setAlu (daa8 s.a s.flagN s.flagH s.flagC))

/-- `CPL` (R211): Z and C are not written. -/
def execCpl (s : State) : Res := done 1 ({ s with a := s.a ^^^ 0xFF#8 }.setFlags s.flagZ true true s.flagC)

/-- `SCF` (R212): Z is not written. -/
def execScf (s : State) : Res := done 1 (s.setFlags s.flagZ false false true)

/-- `CCF` (R213): Z is not written. -/
def execCcf (s : State) : Res := done 1 (s.setFlags s.flagZ false false (!s.flagC))

end Sys2Proof.Machine
end

