-- ==== Sys2Proof/Machine/Control.lean ====
section
/-! DEFINITION. Control transfer (45_control_flow.md). PC is already past the instruction's bytes (R26). -/

namespace Sys2Proof.Machine

/-- Go to an address. -/
def jumpTo (target : Word) (s : State) : State := { s with pc := target }

/-- The target of a relative jump (R284). -/
def relTarget (s : State) (e : Byte) : Word := s.pc + sext16 e

/-- Push the return address and go to a subroutine (R286). -/
def callTo (target : Word) (s : State) : Res := andThen (push16 s.pc s) fun t => .next (jumpTo target t)

/-- Pop the return address (R288). -/
def returnTo (s : State) : State := jumpTo (pop16 s).1 (pop16 s).2

/-- `JP nn` (R281). -/
def execJpNn (nn : Word) (s : State) : Res := done 4 (jumpTo nn s)

/-- `JP cc,nn` (R282). -/
def execJpCcNn (cc : Cond) (nn : Word) (s : State) : Res :=
  if s.cond cc then done 4 (jumpTo nn s) else done 3 s

/-- `JP HL` (R283). -/
def execJpHl (s : State) : Res := done 1 (jumpTo s.hl s)

/-- `JR e` (R284). -/
def execJrE (e : Byte) (s : State) : Res := done 3 (jumpTo (relTarget s e) s)

/-- `JR cc,e` (R285). -/
def execJrCcE (cc : Cond) (e : Byte) (s : State) : Res :=
  if s.cond cc then done 3 (jumpTo (relTarget s e) s) else done 2 s

/-- `CALL nn` (R286). -/
def execCallNn (nn : Word) (s : State) : Res := andThen (callTo nn s) (done 6)

/-- `CALL cc,nn` (R287). -/
def execCallCcNn (cc : Cond) (nn : Word) (s : State) : Res :=
  if s.cond cc then andThen (callTo nn s) (done 6) else done 3 s

/-- `RET` (R288). -/
def execRet (s : State) : Res := done 4 (returnTo s)

/-- `RET cc` (R289). -/
def execRetCc (cc : Cond) (s : State) : Res := if s.cond cc then done 5 (returnTo s) else done 2 s

/-- `RETI` (R290). -/
def execReti (s : State) : Res := done 4 (returnFromInterrupt s)

/-- `RST t` (R291). -/
def execRstT (t : Nat) (s : State) : Res := andThen (callTo (BitVec.ofNat 16 (8 * t)) s) (done 4)

end Sys2Proof.Machine
end

