-- ==== Sys2Proof/Machine/Load16.lean ====
section
/-! DEFINITION. The 16-bit loads and the stack instructions (41_load16_stack.md). -/

namespace Sys2Proof.Machine

/-- `LD rr,nn` (R162). -/
def execLdRrNn (rr : Reg16) (nn : Word) (s : State) : Res := done 3 (s.setR16 rr nn)

/-- `LD (nn),SP` (R163): the low byte is written first. -/
def execLdNnSp (nn : Word) (s : State) : Res :=
  andThen (store nn (loByte s.sp) s) fun t => andThen (store (nn + 1) (hiByte s.sp) t) (done 5)

/-- `LD SP,HL` (R164). -/
def execLdSpHl (s : State) : Res := done 2 { s with sp := s.hl }

/-- `PUSH rr` (R165). -/
def execPushRr (rr : StkReg) (s : State) : Res := andThen (push16 (s.getStk rr) s) (done 4)

/-- `POP rr` (R166): `POP AF` masks the low nibble of F. -/
def execPopRr (rr : StkReg) (s : State) : Res := done 3 ((pop16 s).2.setStk rr (pop16 s).1)

/-- `LD HL,SP+e` (R167). -/
def execLdHlSpE (e : Byte) (s : State) : Res :=
  let r := addSpOffset s.sp e
  done 3 ((s.setHl r.1).setFlags false false r.2.1 r.2.2)

end Sys2Proof.Machine
end

