-- ==== Sys2Proof/Machine/Load8.lean ====
section
/-! DEFINITION. The 8-bit loads (40_load8.md). -/

namespace Sys2Proof.Machine

/-- Load A from an address. -/
def loadA (addr : Word) (s : State) : State := { s with a := s.read addr }

/-- `LD r,r'` (R130). -/
def execLdRR (dst src : Reg8) (s : State) : Res := done 1 (s.setR8 dst (s.getR8 src))

/-- `LD r,n` (R131). -/
def execLdRN (dst : Reg8) (n : Byte) (s : State) : Res := done 2 (s.setR8 dst n)

/-- `LD r,(HL)` (R132): the address is HL before the write. -/
def execLdRInd (dst : Reg8) (s : State) : Res := done 2 (s.setR8 dst (s.read s.hl))

/-- `LD (HL),r` (R133). -/
def execLdIndR (src : Reg8) (s : State) : Res := andThen (store s.hl (s.getR8 src) s) (done 2)

/-- `LD (HL),n` (R134). -/
def execLdIndN (n : Byte) (s : State) : Res := andThen (store s.hl n s) (done 3)

/-- `LD A,(BC)` (R135). -/
def execLdABc (s : State) : Res := done 2 (loadA s.bc s)

/-- `LD A,(DE)` (R136). -/
def execLdADe (s : State) : Res := done 2 (loadA s.de s)

/-- `LD (BC),A` (R137). -/
def execLdBcA (s : State) : Res := andThen (store s.bc s.a s) (done 2)

/-- `LD (DE),A` (R138). -/
def execLdDeA (s : State) : Res := andThen (store s.de s.a s) (done 2)

/-- `LD A,(nn)` (R139). -/
def execLdANn (nn : Word) (s : State) : Res := done 4 (loadA nn s)

/-- `LD (nn),A` (R140). -/
def execLdNnA (nn : Word) (s : State) : Res := andThen (store nn s.a s) (done 4)

/-- `LDH A,(C)` (R141). -/
def execLdhAC (s : State) : Res := done 2 (loadA (ioPage s.c) s)

/-- `LDH (C),A` (R142). -/
def execLdhCA (s : State) : Res := andThen (store (ioPage s.c) s.a s) (done 2)

/-- `LDH A,(n)` (R143). -/
def execLdhAN (n : Byte) (s : State) : Res := done 3 (loadA (ioPage n) s)

/-- `LDH (n),A` (R144). -/
def execLdhNA (n : Byte) (s : State) : Res := andThen (store (ioPage n) s.a s) (done 3)

/-- `LD A,(HL-)` (R145). -/
def execLdAHlDec (s : State) : Res := done 2 ((loadA s.hl s).setHl (s.hl - 1))

/-- `LD (HL-),A` (R146): the store uses the old HL. -/
def execLdHlDecA (s : State) : Res := andThen (store s.hl s.a s) fun t => done 2 (t.setHl (s.hl - 1))

/-- `LD A,(HL+)` (R147). -/
def execLdAHlInc (s : State) : Res := done 2 ((loadA s.hl s).setHl (s.hl + 1))

/-- `LD (HL+),A` (R148): the store uses the old HL. -/
def execLdHlIncA (s : State) : Res := andThen (store s.hl s.a s) fun t => done 2 (t.setHl (s.hl + 1))

end Sys2Proof.Machine
end

