-- ==== Sys2Proof/Machine/Rotate.lean ====
section
/-! DEFINITION. Rotates, shifts, bit operations and the prefix 0xCB (44_rotate_shift_bit.md). -/

namespace Sys2Proof.Machine

/-- A one-byte rotate of A: Z is forced to 0 (section 1 of file 44). -/
def rotateA (r : Byte × Bool) (s : State) : Res := done 1 ({ s with a := r.1 }.setFlags false false false r.2)

/-- A CB rotate, shift or swap of a register (section 3 of file 44): Z computed, N = H = 0. -/
def shiftReg (r : Reg8) (res : Byte × Bool) (s : State) : Res :=
  done 2 ((s.setR8 r res.1).setFlags (res.1 = 0) false false res.2)

/-- A CB rotate, shift or swap of the byte at HL (section 3 of file 44). -/
def shiftInd (res : Byte × Bool) (s : State) : Res :=
  andThen (store s.hl res.1 s) fun t => done 4 (t.setFlags (res.1 = 0) false false res.2)

/-- The flags of BIT (R261): Z from the tested bit, N = 0, H = 1, C not written. -/
def testBit (bit : Bool) (s : State) : State := s.setFlags (!bit) false true s.flagC

/-- `RLCA` (R240). -/
def execRlca (s : State) : Res := rotateA (rlc8 s.a) s

/-- `RRCA` (R241). -/
def execRrca (s : State) : Res := rotateA (rrc8 s.a) s

/-- `RLA` (R242). -/
def execRla (s : State) : Res := rotateA (rl8 s.a s.flagC) s

/-- `RRA` (R243). -/
def execRra (s : State) : Res := rotateA (rr8 s.a s.flagC) s

/-- `RLC r` (R245). -/
def execRlcR (r : Reg8) (s : State) : Res := shiftReg r (rlc8 (s.getR8 r)) s

/-- `RLC (HL)` (R246). -/
def execRlcInd (s : State) : Res := shiftInd (rlc8 (s.read s.hl)) s

/-- `RRC r` (R247). -/
def execRrcR (r : Reg8) (s : State) : Res := shiftReg r (rrc8 (s.getR8 r)) s

/-- `RRC (HL)` (R248). -/
def execRrcInd (s : State) : Res := shiftInd (rrc8 (s.read s.hl)) s

/-- `RL r` (R249). -/
def execRlR (r : Reg8) (s : State) : Res := shiftReg r (rl8 (s.getR8 r) s.flagC) s

/-- `RL (HL)` (R250). -/
def execRlInd (s : State) : Res := shiftInd (rl8 (s.read s.hl) s.flagC) s

/-- `RR r` (R251). -/
def execRrR (r : Reg8) (s : State) : Res := shiftReg r (rr8 (s.getR8 r) s.flagC) s

/-- `RR (HL)` (R252). -/
def execRrInd (s : State) : Res := shiftInd (rr8 (s.read s.hl) s.flagC) s

/-- `SLA r` (R253). -/
def execSlaR (r : Reg8) (s : State) : Res := shiftReg r (sla8 (s.getR8 r)) s

/-- `SLA (HL)` (R254). -/
def execSlaInd (s : State) : Res := shiftInd (sla8 (s.read s.hl)) s

/-- `SRA r` (R255). -/
def execSraR (r : Reg8) (s : State) : Res := shiftReg r (sra8 (s.getR8 r)) s

/-- `SRA (HL)` (R256). -/
def execSraInd (s : State) : Res := shiftInd (sra8 (s.read s.hl)) s

/-- `SWAP r` (R257). -/
def execSwapR (r : Reg8) (s : State) : Res := shiftReg r (swap8 (s.getR8 r)) s

/-- `SWAP (HL)` (R258). -/
def execSwapInd (s : State) : Res := shiftInd (swap8 (s.read s.hl)) s

/-- `SRL r` (R259). -/
def execSrlR (r : Reg8) (s : State) : Res := shiftReg r (srl8 (s.getR8 r)) s

/-- `SRL (HL)` (R260). -/
def execSrlInd (s : State) : Res := shiftInd (srl8 (s.read s.hl)) s

/-- `BIT b,r` (R261). -/
def execBitBR (b : Nat) (r : Reg8) (s : State) : Res := done 2 (testBit ((s.getR8 r).getLsbD b) s)

/-- `BIT b,(HL)` (R262): one read, no write. -/
def execBitBInd (b : Nat) (s : State) : Res := done 3 (testBit ((s.read s.hl).getLsbD b) s)

/-- `RES b,r` (R263). -/
def execResBR (b : Nat) (r : Reg8) (s : State) : Res := done 2 (s.setR8 r (clearBit b (s.getR8 r)))

/-- `RES b,(HL)` (R264): the write happens even when the bit was already clear. -/
def execResBInd (b : Nat) (s : State) : Res := andThen (store s.hl (clearBit b (s.read s.hl)) s) (done 4)

/-- `SET b,r` (R265). -/
def execSetBR (b : Nat) (r : Reg8) (s : State) : Res := done 2 (s.setR8 r (setBit b (s.getR8 r)))

/-- `SET b,(HL)` (R266). -/
def execSetBInd (b : Nat) (s : State) : Res := andThen (store s.hl (setBit b (s.read s.hl)) s) (done 4)

/-- The rotate, shift or swap that the field y of the second byte selects (R111). -/
def execCbShift (y : Nat) (opd : Option Reg8) (s : State) : Res :=
  match y, opd with
  | 0, some r => execRlcR r s
  | 0, none => execRlcInd s
  | 1, some r => execRrcR r s
  | 1, none => execRrcInd s
  | 2, some r => execRlR r s
  | 2, none => execRlInd s
  | 3, some r => execRrR r s
  | 3, none => execRrInd s
  | 4, some r => execSlaR r s
  | 4, none => execSlaInd s
  | 5, some r => execSraR r s
  | 5, none => execSraInd s
  | 6, some r => execSwapR r s
  | 6, none => execSwapInd s
  | _, some r => execSrlR r s
  | _, none => execSrlInd s

/-- The instruction that the second byte selects (R111, R244). -/
def execCbOp (op2 : Byte) (s : State) : Res :=
  match fieldX op2, reg8OfCode (fieldZ op2) with
  | 0, opd => execCbShift (fieldY op2) opd s
  | 1, some r => execBitBR (fieldY op2) r s
  | 1, none => execBitBInd (fieldY op2) s
  | 2, some r => execResBR (fieldY op2) r s
  | 2, none => execResBInd (fieldY op2) s
  | _, some r => execSetBR (fieldY op2) r s
  | _, none => execSetBInd (fieldY op2) s

/-- `PREFIX CB` (R244), when only the prefix byte has been fetched: fetch the second byte and run what it selects. -/
def execPrefixCb (s : State) : Res := execCbOp (fetch8 s).1 (fetch8 s).2

end Sys2Proof.Machine
end

