-- ==== Sys2Proof/Machine/System.lean ====
section
/-! DEFINITION. System instructions and the unassigned first bytes (46_system.md). -/

namespace Sys2Proof.Machine

/-- `raise Fatal(UnknownOpcode(op, addr))` of a one-byte instruction (R305, R430). -/
def unknownOpcode (op : Byte) (s : State) : Res := .fault (.unknownOpcode op s.opcodeAddr)

/-- `NOP` (R300). -/
def execNop (s : State) : Res := done 1 s

/-- `HALT` (R301): only `entered_halt` is reported; the fold of the step decides what follows. -/
def execHalt (s : State) : Res := .next { s with report := { cycles := 1, enteredHalt := true } }

/-- `STOP` (R302), under either `STOP_POLICY`. -/
def execStop (s : State) : Res :=
  match s.params.stopPolicy with
  | .fault => unknownOpcode 0x10 s
  | .nop2 => done 1 (fetch8 s).2

/-- `DI` (R303). -/
def execDi (s : State) : Res := done 1 { s with ime := false, imePending := false }

/-- `EI` (R304), under either `EI_DELAY`. With `EI_DELAY = 1` it makes its effect pending whatever IME is, as R304's
Operation says; if its own step then dispatches, IME is set again after the handler's first instruction (log 16, against
R304's remark that EI changes nothing observable where IME is already 1). -/
def execEi (s : State) : Res :=
  if s.params.eiDelay then done 1 { s with imePending := true } else done 1 { s with ime := true }

/-- The unassigned byte 0xD3 (R305). -/
def execIllegalD3 (s : State) : Res := unknownOpcode 0xD3 s

/-- The unassigned byte 0xDB (R305). -/
def execIllegalDB (s : State) : Res := unknownOpcode 0xDB s

/-- The unassigned byte 0xDD (R305). -/
def execIllegalDD (s : State) : Res := unknownOpcode 0xDD s

/-- The unassigned byte 0xE3 (R305). -/
def execIllegalE3 (s : State) : Res := unknownOpcode 0xE3 s

/-- The unassigned byte 0xE4 (R305). -/
def execIllegalE4 (s : State) : Res := unknownOpcode 0xE4 s

/-- The unassigned byte 0xEB (R305). -/
def execIllegalEB (s : State) : Res := unknownOpcode 0xEB s

/-- The unassigned byte 0xEC (R305). -/
def execIllegalEC (s : State) : Res := unknownOpcode 0xEC s

/-- The unassigned byte 0xED (R305). -/
def execIllegalED (s : State) : Res := unknownOpcode 0xED s

/-- The unassigned byte 0xF4 (R305). -/
def execIllegalF4 (s : State) : Res := unknownOpcode 0xF4 s

/-- The unassigned byte 0xFC (R305). -/
def execIllegalFC (s : State) : Res := unknownOpcode 0xFC s

/-- The unassigned byte 0xFD (R305). -/
def execIllegalFD (s : State) : Res := unknownOpcode 0xFD s

end Sys2Proof.Machine
end

