-- ==== Sys2Proof/Machine/Dispatch.lean ====
section
/-! DEFINITION. One arm per instruction: the operation part of its rule (R112 step 4). -/

namespace Sys2Proof.Machine

/-- The operation part of an instruction's rule, run when its bytes have been fetched and PC is past them (R9, R112). -/
def exec (i : Instr) (s : State) : Host.Outcome State Fault Refusal :=
  match i with
  -- 40_load8.md
  | .ldRR dst src => Sys2Proof.Machine.execLdRR dst src s
  | .ldRN dst n => Sys2Proof.Machine.execLdRN dst n s
  | .ldRInd dst => Sys2Proof.Machine.execLdRInd dst s
  | .ldIndR src => Sys2Proof.Machine.execLdIndR src s
  | .ldIndN n => Sys2Proof.Machine.execLdIndN n s
  | .ldABc => Sys2Proof.Machine.execLdABc s
  | .ldADe => Sys2Proof.Machine.execLdADe s
  | .ldBcA => Sys2Proof.Machine.execLdBcA s
  | .ldDeA => Sys2Proof.Machine.execLdDeA s
  | .ldANn nn => Sys2Proof.Machine.execLdANn nn s
  | .ldNnA nn => Sys2Proof.Machine.execLdNnA nn s
  | .ldhAC => Sys2Proof.Machine.execLdhAC s
  | .ldhCA => Sys2Proof.Machine.execLdhCA s
  | .ldhAN n => Sys2Proof.Machine.execLdhAN n s
  | .ldhNA n => Sys2Proof.Machine.execLdhNA n s
  | .ldAHlDec => Sys2Proof.Machine.execLdAHlDec s
  | .ldHlDecA => Sys2Proof.Machine.execLdHlDecA s
  | .ldAHlInc => Sys2Proof.Machine.execLdAHlInc s
  | .ldHlIncA => Sys2Proof.Machine.execLdHlIncA s
  -- 41_load16_stack.md
  | .ldRrNn rr nn => Sys2Proof.Machine.execLdRrNn rr nn s
  | .ldNnSp nn => Sys2Proof.Machine.execLdNnSp nn s
  | .ldSpHl => Sys2Proof.Machine.execLdSpHl s
  | .pushRr rr => Sys2Proof.Machine.execPushRr rr s
  | .popRr rr => Sys2Proof.Machine.execPopRr rr s
  | .ldHlSpE e => Sys2Proof.Machine.execLdHlSpE e s
  -- 42_alu8.md
  | .addR src => Sys2Proof.Machine.execAddR src s
  | .addInd => Sys2Proof.Machine.execAddInd s
  | .addN n => Sys2Proof.Machine.execAddN n s
  | .adcR src => Sys2Proof.Machine.execAdcR src s
  | .adcInd => Sys2Proof.Machine.execAdcInd s
  | .adcN n => Sys2Proof.Machine.execAdcN n s
  | .subR src => Sys2Proof.Machine.execSubR src s
  | .subInd => Sys2Proof.Machine.execSubInd s
  | .subN n => Sys2Proof.Machine.execSubN n s
  | .sbcR src => Sys2Proof.Machine.execSbcR src s
  | .sbcInd => Sys2Proof.Machine.execSbcInd s
  | .sbcN n => Sys2Proof.Machine.execSbcN n s
  | .andR src => Sys2Proof.Machine.execAndR src s
  | .andInd => Sys2Proof.Machine.execAndInd s
  | .andN n => Sys2Proof.Machine.execAndN n s
  | .xorR src => Sys2Proof.Machine.execXorR src s
  | .xorInd => Sys2Proof.Machine.execXorInd s
  | .xorN n => Sys2Proof.Machine.execXorN n s
  | .orR src => Sys2Proof.Machine.execOrR src s
  | .orInd => Sys2Proof.Machine.execOrInd s
  | .orN n => Sys2Proof.Machine.execOrN n s
  | .cpR src => Sys2Proof.Machine.execCpR src s
  | .cpInd => Sys2Proof.Machine.execCpInd s
  | .cpN n => Sys2Proof.Machine.execCpN n s
  | .incR dst => Sys2Proof.Machine.execIncR dst s
  | .incInd => Sys2Proof.Machine.execIncInd s
  | .decR dst => Sys2Proof.Machine.execDecR dst s
  | .decInd => Sys2Proof.Machine.execDecInd s
  | .daa => Sys2Proof.Machine.execDaa s
  | .cpl => Sys2Proof.Machine.execCpl s
  | .scf => Sys2Proof.Machine.execScf s
  | .ccf => Sys2Proof.Machine.execCcf s
  -- 43_alu16.md
  | .addHlRr rr => Sys2Proof.Machine.execAddHlRr rr s
  | .incRr rr => Sys2Proof.Machine.execIncRr rr s
  | .decRr rr => Sys2Proof.Machine.execDecRr rr s
  | .addSpE e => Sys2Proof.Machine.execAddSpE e s
  -- 44_rotate_shift_bit.md
  | .rlca => Sys2Proof.Machine.execRlca s
  | .rrca => Sys2Proof.Machine.execRrca s
  | .rla => Sys2Proof.Machine.execRla s
  | .rra => Sys2Proof.Machine.execRra s
  -- 45_control_flow.md
  | .jpNn nn => Sys2Proof.Machine.execJpNn nn s
  | .jpCcNn cc nn => Sys2Proof.Machine.execJpCcNn cc nn s
  | .jpHl => Sys2Proof.Machine.execJpHl s
  | .jrE e => Sys2Proof.Machine.execJrE e s
  | .jrCcE cc e => Sys2Proof.Machine.execJrCcE cc e s
  | .callNn nn => Sys2Proof.Machine.execCallNn nn s
  | .callCcNn cc nn => Sys2Proof.Machine.execCallCcNn cc nn s
  | .ret => Sys2Proof.Machine.execRet s
  | .retCc cc => Sys2Proof.Machine.execRetCc cc s
  | .reti => Sys2Proof.Machine.execReti s
  | .rstT t => Sys2Proof.Machine.execRstT t s
  -- 46_system.md
  | .nop => Sys2Proof.Machine.execNop s
  | .halt => Sys2Proof.Machine.execHalt s
  | .stop => Sys2Proof.Machine.execStop s
  | .di => Sys2Proof.Machine.execDi s
  | .ei => Sys2Proof.Machine.execEi s
  | .prefixCb => Sys2Proof.Machine.execPrefixCb s
  | .illegalD3 => Sys2Proof.Machine.execIllegalD3 s
  | .illegalDB => Sys2Proof.Machine.execIllegalDB s
  | .illegalDD => Sys2Proof.Machine.execIllegalDD s
  | .illegalE3 => Sys2Proof.Machine.execIllegalE3 s
  | .illegalE4 => Sys2Proof.Machine.execIllegalE4 s
  | .illegalEB => Sys2Proof.Machine.execIllegalEB s
  | .illegalEC => Sys2Proof.Machine.execIllegalEC s
  | .illegalED => Sys2Proof.Machine.execIllegalED s
  | .illegalF4 => Sys2Proof.Machine.execIllegalF4 s
  | .illegalFC => Sys2Proof.Machine.execIllegalFC s
  | .illegalFD => Sys2Proof.Machine.execIllegalFD s
  -- 44_rotate_shift_bit.md, the block after the prefix
  | .rlcR r => Sys2Proof.Machine.execRlcR r s
  | .rlcInd => Sys2Proof.Machine.execRlcInd s
  | .rrcR r => Sys2Proof.Machine.execRrcR r s
  | .rrcInd => Sys2Proof.Machine.execRrcInd s
  | .rlR r => Sys2Proof.Machine.execRlR r s
  | .rlInd => Sys2Proof.Machine.execRlInd s
  | .rrR r => Sys2Proof.Machine.execRrR r s
  | .rrInd => Sys2Proof.Machine.execRrInd s
  | .slaR r => Sys2Proof.Machine.execSlaR r s
  | .slaInd => Sys2Proof.Machine.execSlaInd s
  | .sraR r => Sys2Proof.Machine.execSraR r s
  | .sraInd => Sys2Proof.Machine.execSraInd s
  | .swapR r => Sys2Proof.Machine.execSwapR r s
  | .swapInd => Sys2Proof.Machine.execSwapInd s
  | .srlR r => Sys2Proof.Machine.execSrlR r s
  | .srlInd => Sys2Proof.Machine.execSrlInd s
  | .bitBR b r => Sys2Proof.Machine.execBitBR b r s
  | .bitBInd b => Sys2Proof.Machine.execBitBInd b s
  | .resBR b r => Sys2Proof.Machine.execResBR b r s
  | .resBInd b => Sys2Proof.Machine.execResBInd b s
  | .setBR b r => Sys2Proof.Machine.execSetBR b r s
  | .setBInd b => Sys2Proof.Machine.execSetBInd b s

end Sys2Proof.Machine
end

