-- ==== Sys2Proof/Machine/Clock.lean ====
section
/-! DEFINITION. The Clock: divider and programmable timer (51_clock_timer.md). -/

namespace Sys2Proof.Machine

def divAddr : Word := 0xFF04
def timaAddr : Word := 0xFF05
def tmaAddr : Word := 0xFF06
def tacAddr : Word := 0xFF07

/-- A period in M-cycles (R38). -/
def periodCycles : TimerPeriod → Nat
  | .cycles4 => 4
  | .cycles16 => 16
  | .cycles64 => 64
  | .cycles256 => 256

/-- `TAC_PERIOD[sel]` (R38, R384). -/
def tacPeriod (p : Params) (sel : Nat) : TimerPeriod :=
  match sel with
  | 0 => p.tacPeriod0
  | 1 => p.tacPeriod1
  | 2 => p.tacPeriod2
  | _ => p.tacPeriod3

/-- The divider step, at the incremented count (R382, R383). -/
def dividerStep (cyc : Nat) (m : Memory) : Memory :=
  if cyc % 64 = 0 then memWrite m divAddr (memRead m divAddr + 1) else m

/-- TAC enables the timer and the count is a multiple of the selected period (R384). -/
def timerDue (p : Params) (cyc : Nat) (m : Memory) : Bool :=
  let tac := memRead m tacAddr
  tac.getLsbD 2 && cyc % periodCycles (tacPeriod p (tac.extractLsb' 0 2).toNat) = 0

/-- The timer step (R384): increment TIMA, or at 0xFF reload it from TMA and request the Timer interrupt. -/
def timerStep (p : Params) (cyc : Nat) (m : Memory) : Memory :=
  if timerDue p cyc m then
    if memRead m timaAddr = 0xFF#8 then raiseIrq 2 (memWrite m timaAddr (memRead m tmaAddr))
    else memWrite m timaAddr (memRead m timaAddr + 1)
  else m

/-- The count after one tick (R382). -/
def nextCyc (p : Params) (cyc : Nat) : Nat := (cyc + 1) % 2 ^ p.clkWidth

/-- One Clock tick (R381): count, divider step, timer step. -/
def clockTick (s : State) : State :=
  let cyc := nextCyc s.params s.cyc
  { s with cyc := cyc, mem := timerStep s.params cyc (dividerStep cyc s.mem) }

end Sys2Proof.Machine
end

