-- ==== Sys2Proof/Machine/Video.lean ====
section
/-! DEFINITION. The VideoUnit (50_video_unit.md): one dot, what a pixel is made of, and the reconciliation of LY and STAT
after every four dots. Columns, scanlines and dot counts are natural numbers; bytes are read through the bus. -/

namespace Sys2Proof.Machine

def lcdcAddr : Word := 0xFF40
def statAddr : Word := 0xFF41
def scyAddr : Word := 0xFF42
def scxAddr : Word := 0xFF43
def lyAddr : Word := 0xFF44
def lycAddr : Word := 0xFF45
def bgpAddr : Word := 0xFF47
def obp0Addr : Word := 0xFF48
def obp1Addr : Word := 0xFF49
def wyAddr : Word := 0xFF4A
def wxAddr : Word := 0xFF4B

/-! ## Modes -/

/-- `tag(ppu)`: the variant without its payload (R321). -/
inductive PpuTag where
  | stopped | oamScan | draw | hBlank | vBlank
  deriving DecidableEq, Repr

/-- The variant of a mode (R321). -/
def ppuTag : PpuMode → PpuTag
  | .stopped => .stopped
  | .oamScan _ _ => .oamScan
  | .draw _ => .draw
  | .hBlank _ _ => .hBlank
  | .vBlank _ => .vBlank

/-- The mode number written to `STAT[1:0]` (R321). -/
def modeNumber : PpuTag → Byte
  | .hBlank => 0
  | .vBlank => 1
  | .oamScan => 2
  | .draw => 3
  | .stopped => 0

/-- `ly(ppu)` (R322). -/
def scanlineOf : PpuMode → Nat
  | .stopped => 0
  | .oamScan ly _ => ly
  | .draw line => line.ly
  | .hBlank ly _ => ly
  | .vBlank dotsLeft => 144 + (4560 - dotsLeft) / 456

/-! ## Sprite selection -/

/-- Byte `k` of OAM entry `i` (R69, R326). -/
def oamByte (m : Memory) (i k : Nat) : Byte := memRead m (BitVec.ofNat 16 (0xFE00 + 4 * i + k))

/-- OAM entry `i`: y, x, tile, flags (R326). -/
def oamEntry (m : Memory) (i : Nat) : Sprite :=
  { index := i, y := oamByte m i 0, x := oamByte m i 1, tile := oamByte m i 2, flags := oamByte m i 3 }

/-- Sprite height (R327): 16 if `LCDC[2]`, else 8. -/
def spriteHeight (lcdc : Byte) : Nat := if lcdc.getLsbD 2 then 16 else 8

/-- Vertical cover (R327), without wrap-around. -/
def coversLine (height ly : Nat) (s : Sprite) : Bool :=
  decide (s.y.toNat ≤ ly + 16) && decide (ly + 16 < s.y.toNat + height)

/-- `(x, index)` of `s` is not above that of `s'` (R326). -/
def spriteLe (s s' : Sprite) : Bool :=
  decide (s.x.toNat < s'.x.toNat) || (s.x = s'.x && decide (s.index ≤ s'.index))

/-- Insert a sprite in the order of R326. -/
def insertSprite (s : Sprite) : List Sprite → List Sprite
  | [] => [s]
  | s' :: rest => if spriteLe s s' then s :: s' :: rest else s' :: insertSprite s rest

/-- Sort sprites by `(x, index)` (R326). -/
def sortSprites : List Sprite → List Sprite
  | [] => []
  | s :: rest => insertSprite s (sortSprites rest)

/-- Sprite selection (R326): all covering entries, sorted, then truncated to ten. -/
def selectSprites (m : Memory) (height ly : Nat) : List Sprite :=
  (sortSprites (((List.range 40).map (oamEntry m)).filter (coversLine height ly))).take 10

/-! ## What a pixel is made of -/

/-- The two-bit colour id of column `cx` of a pair of bit planes: bit 7 is the leftmost pixel (R341, R342). -/
def planePixel (lo hi : Byte) (cx : Nat) : BitVec 2 :=
  BitVec.ofBool (hi.getLsbD (7 - cx)) ++ BitVec.ofBool (lo.getLsbD (7 - cx))

/-- The shade of a two-bit value (R344). -/
def shadeOf (v : BitVec 2) : Shade :=
  match v.toNat with
  | 0 => .white
  | 1 => .lightGray
  | 2 => .darkGray
  | _ => .black

/-- `palette(P, id)` (R344). -/
def paletteShade (pal : Byte) (id : BitVec 2) : Shade := shadeOf ((pal >>> (2 * id.toNat)).extractLsb' 0 2)

/-- The sprite for a column (R336): the first of the list that covers it, if sprites are enabled. -/
def spriteAt (lcdc : Byte) (sprites : List Sprite) (col : Nat) : Option Sprite :=
  if lcdc.getLsbD 1 then
    sprites.find? fun s => decide (s.x.toNat ≤ col + 8) && decide (col < s.x.toNat)
  else none

/-- `window_covers(col, ly)` (R337). -/
def windowCovers (m : Memory) (lcdc : Byte) (col ly : Nat) : Bool :=
  lcdc.getLsbD 0 && lcdc.getLsbD 5 && decide ((memRead m wyAddr).toNat ≤ ly) &&
    decide ((memRead m wxAddr).toNat ≤ col + 7)

/-- The base of a tile map (R338). -/
def mapBase (sel : Bool) : Nat := if sel then 0x9C00 else 0x9800

/-- `tile_number(base, px, py)` (R339). -/
def tileNumber (m : Memory) (base px py : Nat) : Byte :=
  memRead m (BitVec.ofNat 16 (base + py / 8 * 32 + px / 8))

/-- `addr(t)` of a background or window tile (R340). -/
def tileAddr (lcdc t : Byte) : Word :=
  if lcdc.getLsbD 4 then 0x8000 + zext16 t * 16 else 0x9000 + sext16 t * 16

/-- `tile_pixel(t, cx, cy)` (R341). -/
def tilePixel (m : Memory) (lcdc t : Byte) (cx cy : Nat) : BitVec 2 :=
  let row := tileAddr lcdc t + BitVec.ofNat 16 (2 * cy)
  planePixel (memRead m row) (memRead m (row + 1)) cx

/-- The colour id of the tile plane with this map base at `(px, py)` (R338). -/
def planeId (m : Memory) (lcdc : Byte) (base px py : Nat) : BitVec 2 :=
  tilePixel m lcdc (tileNumber m base px py) (px % 8) (py % 8)

/-- `bg_id(col, ly)`, the background or window colour id (R338): 0 when the layer is disabled. -/
def backgroundId (m : Memory) (lcdc : Byte) (wlc col ly : Nat) : BitVec 2 :=
  if lcdc.getLsbD 0 then
    if windowCovers m lcdc col ly then
      planeId m lcdc (mapBase (lcdc.getLsbD 6)) (col + 7 - (memRead m wxAddr).toNat) wlc
    else
      planeId m lcdc (mapBase (lcdc.getLsbD 3)) ((col + (memRead m scxAddr).toNat) % 256)
        ((ly + (memRead m scyAddr).toNat) % 256)
  else 0

/-- The row of a sprite's tiles at scanline `ly` (R342), before the vertical flip. -/
def spriteRow (height ly : Nat) (s : Sprite) : Nat := (ly + 16 - s.y.toNat) % height

/-- The colour id of a sprite at `(col, ly)` (R342). -/
def spriteId (m : Memory) (lcdc : Byte) (s : Sprite) (col ly : Nat) : BitVec 2 :=
  let height := spriteHeight lcdc
  let row := if s.flags.getLsbD 6 then height - 1 - spriteRow height ly s else spriteRow height ly s
  let tile := if lcdc.getLsbD 2 then s.tile &&& 0xFE#8 else s.tile
  let cx := if s.flags.getLsbD 5 then 7 - (col + 8 - s.x.toNat) else col + 8 - s.x.toNat
  let addr := 0x8000 + zext16 tile * 16 + BitVec.ofNat 16 (2 * row)
  planePixel (memRead m addr) (memRead m (addr + 1)) cx

/-- The colour of the background or window layer, White when it is disabled (R343). -/
def layerColor (m : Memory) (lcdc : Byte) (wlc col ly : Nat) : Shade :=
  if lcdc.getLsbD 0 then paletteShade (memRead m bgpAddr) (backgroundId m lcdc wlc col ly) else .white

/-- The palette register of a sprite (R343): `flags[4]` selects OBP1. -/
def objPalette (m : Memory) (s : Sprite) : Byte := memRead m (if s.flags.getLsbD 4 then obp1Addr else obp0Addr)

/-- Composition (R343). -/
def pixelColor (m : Memory) (lcdc : Byte) (wlc : Nat) (sprites : List Sprite) (col ly : Nat) : Shade :=
  match spriteAt lcdc sprites col with
  | none => layerColor m lcdc wlc col ly
  | some s =>
    let sid := spriteId m lcdc s col ly
    if sid ≠ 0 ∧ (s.flags.getLsbD 7 = false ∨ backgroundId m lcdc wlc col ly = 0) then
      paletteShade (objPalette m s) sid
    else layerColor m lcdc wlc col ly

/-! ## The dot step -/

/-- The last OamScan tick: select the sprites and start Draw with the start-of-line penalty (R325, R330). -/
def startDraw (m : Memory) (lcdc : Byte) (ly : Nat) : PpuMode :=
  .draw
    { ly := ly
      sprites := selectSprites m (spriteHeight lcdc) ly
      col := 0
      dots := 0
      penalty := 12 + (memRead m scxAddr).toNat % 8
      windowShown := false }

/-- An OamScan tick (R325). -/
def oamScanTick (m : Memory) (lcdc : Byte) (wlc ly dotsLeft : Nat) : Video :=
  if dotsLeft - 1 > 0 then { mode := .oamScan ly (dotsLeft - 1), wlc := wlc }
  else { mode := startDraw m lcdc ly, wlc := wlc }

/-- `dots_left` of the HBlank after a Draw of so many dots (R333): what fills the line up to 456 dots; where that is less
than the one dot HBlank has at least (R51), a free value of at least 1 (log 8). -/
def hBlankDots (p : Params) (dots : Nat) : Nat :=
  if dots < 456 - 80 then 456 - 80 - dots else 1 + longDrawHBlank p.windowStallDots dots

/-- Pixel emission (R333), `line.dots` already counted: emit column `col`; after column 159 go to HBlank and count the
window line if the window was shown. -/
def emitTick (p : Params) (m : Memory) (lcdc : Byte) (wlc : Nat) (line : DrawLine) : Video × Option Pixel :=
  let pixel : Pixel := { x := line.col, y := line.ly, color := pixelColor m lcdc wlc line.sprites line.col line.ly }
  if line.col + 1 = 160 then
    ({ mode := .hBlank line.ly (hBlankDots p line.dots), wlc := if line.windowShown then wlc + 1 else wlc }, some pixel)
  else ({ mode := .draw { line with col := line.col + 1 }, wlc := wlc }, some pixel)

/-- The window covers the column for the first time on this line (R332). -/
def windowTriggers (m : Memory) (lcdc : Byte) (line : DrawLine) : Bool :=
  windowCovers m lcdc line.col line.ly && !line.windowShown

/-- A Draw tick (R331 to R333): count the dot, then consume a penalty dot, or start the window stall, or emit. -/
def drawTick (p : Params) (m : Memory) (lcdc : Byte) (wlc : Nat) (line0 : DrawLine) : Video × Option Pixel :=
  let line := { line0 with dots := line0.dots + 1 }
  if line.penalty > 0 then ({ mode := .draw { line with penalty := line.penalty - 1 }, wlc := wlc }, none)
  else if windowTriggers m lcdc line then
    if p.windowStallDots > 0 then
      ({ mode := .draw { line with windowShown := true, penalty := p.windowStallDots - 1 }, wlc := wlc }, none)
    else emitTick p m lcdc wlc { line with windowShown := true }
  else emitTick p m lcdc wlc line

/-- An HBlank tick (R334). -/
def hBlankTick (wlc ly dotsLeft : Nat) : Video :=
  if dotsLeft - 1 > 0 then { mode := .hBlank ly (dotsLeft - 1), wlc := wlc }
  else if ly + 1 = 144 then { mode := .vBlank 4560, wlc := wlc }
  else { mode := .oamScan (ly + 1) 80, wlc := wlc }

/-- A VBlank tick (R335). -/
def vBlankTick (wlc dotsLeft : Nat) : Video :=
  if dotsLeft - 1 > 0 then { mode := .vBlank (dotsLeft - 1), wlc := wlc }
  else { mode := .oamScan 0 80, wlc := 0 }

/-- `tick_one_dot` (R320, R323, R324): with the LCD disabled the unit is Stopped; leaving Stopped consumes no dot. -/
def tickOneDot (p : Params) (m : Memory) (v : Video) : Video × Option Pixel :=
  let lcdc := memRead m lcdcAddr
  if lcdc.getLsbD 7 then
    match v.mode with
    | .stopped => (oamScanTick m lcdc 0 0 80, none)
    | .oamScan ly dotsLeft => (oamScanTick m lcdc v.wlc ly dotsLeft, none)
    | .draw line => drawTick p m lcdc v.wlc line
    | .hBlank ly dotsLeft => (hBlankTick v.wlc ly dotsLeft, none)
    | .vBlank dotsLeft => (vBlankTick v.wlc dotsLeft, none)
  else ({ v with mode := .stopped }, none)

/-! ## Reconciliation -/

/-- The new STAT byte (R346): the upper five bits kept, the match bit and the mode number recomputed. -/
def newStat (old : Byte) (lycMatch : Bool) (tag : PpuTag) : Byte :=
  (old &&& 0xF8#8) ||| (if lycMatch then 0x04 else 0) ||| modeNumber tag

/-- The mode-interrupt-enable bit of a mode (R321, R347). -/
def modeIrqEnabled (stat : Byte) : PpuTag → Bool
  | .hBlank => stat.getLsbD 3
  | .vBlank => stat.getLsbD 4
  | .oamScan => stat.getLsbD 5
  | .draw => false
  | .stopped => false

/-- A batch raises STAT (R347): a mode change whose enable bit is set, or the match bit newly true with its own; never
while Stopped. `old` and `new` are STAT before and after the reconciliation. -/
def statRequested (before after : PpuTag) (old new : Byte) (lycMatch : Bool) : Bool :=
  decide (after ≠ .stopped) &&
    ((decide (before ≠ after) && modeIrqEnabled new after) ||
      (lycMatch && !old.getLsbD 2 && new.getLsbD 6))

/-- A batch raises VBlank (R348). -/
def vBlankRequested (before after : PpuTag) : Bool := decide (before ≠ after) && decide (after = .vBlank)

/-- The reconciliation after a batch (R346 to R348): LY, STAT, then the requests. -/
def reconcile (before : PpuTag) (after : PpuMode) (m : Memory) : Memory :=
  let old := memRead m statAddr
  let ly := byteOf (scanlineOf after)
  let m1 := memWrite m lyAddr ly
  let lycMatch : Bool := ly = memRead m1 lycAddr
  let new := newStat old lycMatch (ppuTag after)
  let m2 := memWrite m1 statAddr new
  let m3 := if statRequested before (ppuTag after) old new lycMatch then raiseIrq 1 m2 else m2
  if vBlankRequested before (ppuTag after) then raiseIrq 0 m3 else m3

end Sys2Proof.Machine
end

