-- ==== Sys2Proof/Machine/Loop.lean ====
section
/-! DEFINITION. The parts of the machine step around the instruction (52_step_loop.md, R424): playing M-cycles to the
devices, the interrupt check, the HALT fold and the serial probe. -/

namespace Sys2Proof.Machine

/-! ## Playing M-cycles (R402) -/

/-- One dot of the VideoUnit: its pixel goes to the step's batch (R402, R407). -/
def dot (s : State) : State :=
  let r := tickOneDot s.params s.mem s.video
  { s with video := r.1, pixelsOut := s.pixelsOut ++ r.2.toList }

/-- A batch: four dots, then one reconciliation (R345). -/
def batch (s : State) : State :=
  let t := dot (dot (dot (dot s)))
  { t with mem := reconcile (ppuTag s.video.mode) t.video.mode t.mem }

/-- One M-cycle: a Clock tick, then a batch (R402). -/
def mCycle (s : State) : State := batch (clockTick s)

/-- `advance(n)` (R402). -/
def advance : Nat → State → State
  | 0, s => s
  | n + 1, s => advance n (mCycle s)

/-! ## The interrupt check (R403, R424) -/

/-- The check dispatches: IME is set and a source is pending. -/
def dispatches (s : State) : Bool := s.ime && decide (pendingSources s.mem ≠ 0)

/-- `service_interrupts` and the cycles it consumed (R403, R424): 5 M-cycles when it dispatches, else nothing. -/
def serviceInterrupts (s : State) : State :=
  if dispatches s then advance 5 (takeInterrupt (lowestSource (pendingSources s.mem)) s) else s

/-! ## The HALT fold (R405) -/

/-- The table of R405, rows tried top to bottom. -/
def foldHalt (pending wasHalt ime : Bool) (old : HaltState) : HaltState :=
  match pending, wasHalt, ime with
  | true, true, false => .haltBug
  | true, _, _ => .running
  | false, true, _ => .halted
  | false, false, _ => old

/-! ## The serial probe (R406) -/

def sbAddr : Word := 0xFF01
def scAddr : Word := 0xFF02

/-- SC has the transfer flag set. -/
def transferFlagged (m : Memory) : Bool := (memRead m scAddr).getLsbD 7

/-- What the probe does to memory: clear the flag and, if the parameter says so, request the Serial interrupt. -/
def probeMemory (p : Params) (m : Memory) : Memory :=
  let m1 := memWrite m scAddr (memRead m scAddr &&& 0x7F#8)
  if p.serialRaisesIrq then raiseIrq 3 m1 else m1

/-- Part (e) (R406). -/
def serialProbe (s : State) : State :=
  if transferFlagged s.mem then
    { s with serialOut := some (memRead s.mem sbAddr), mem := probeMemory s.params s.mem }
  else { s with serialOut := none }

/-! ## The step's parts (R400) -/

/-- A step starts with nothing on its output ports (R400, R407). -/
def openStep (s : State) : State := { s with serialOut := none, pixelsOut := [], report := Report.idle }

/-- Step 1 of `execute_one` (R112): EI was executed before this instruction (R29). -/
def armed (s : State) : Bool := s.params.eiDelay && s.imePending

/-- Step 5 of `execute_one` (R112): the delayed effect of EI. -/
def settleIme (arm : Bool) (s : State) : State :=
  if arm && s.imePending then { s with ime := true, imePending := false } else s

/-- Part (a) when Halted: one idle cycle (R401). -/
def idleCycle (s : State) : State := s.reportCycles 1

/-- Part (d) (R405), from what the interrupt check sampled before any side effect (R424). -/
def applyFold (sampled : State) (wasHalt : Bool) (s : State) : State :=
  { s with haltState := foldHalt (decide (pendingSources sampled.mem ≠ 0)) wasHalt sampled.ime s.haltState }

/-- The report is used up: it is no state across steps (R55). -/
def clearReport (s : State) : State := { s with report := Report.idle }

/-- Parts (b) to (e) (R400, R404), which cannot fail (R430). -/
def finishStep (s : State) : State :=
  let checked := advance s.report.cycles s
  clearReport (serialProbe (applyFold checked s.report.enteredHalt (serviceInterrupts checked)))

end Sys2Proof.Machine
end

