-- ==== Sys2Proof/Machine/Step.lean ====
section
/-! DEFINITION. The machine step (R400) and the loader that places an instruction where it fetches. -/

namespace Sys2Proof.Machine

/-- One step (R400, R401): an instruction in Running and HaltBug, an idle cycle when Halted, then parts (b) to (e).
A fatal condition of the instruction ends the run (R430). -/
def step (s : State) : Host.Outcome State Fault Refusal :=
  match s.haltState with
  | .halted => .next (finishStep (idleCycle (openStep s)))
  | .running | .haltBug =>
    andThen (exec (fetchInstr s) ((openStep s).afterFetch (fetchInstr s).length)) fun t =>
      .next (finishStep (settleIme (armed s) t))

/-- The state with a table row's instruction stored where the next step fetches, in Running, so that the next step runs
exactly it (log 2). -/
def State.withFetchWord (s : State) (nbits w : Nat) : State :=
  { s with
    haltState := .running
    pc := fetchPlace s.pc
    mem := loadBytes (tableBytes nbits w) (fetchPlace s.pc) s.mem }

end Sys2Proof.Machine
end

