-- ==== Sys2Proof/Safety.lean ====
section
/-! DEFINITION. The terms that claims about the machine use: what an instruction's rule gives, what a bus write leaves, and
the invariant of a run. -/

namespace Sys2Proof.Machine

/-! ## What an instruction does -/

/-- Instruction `i` is encoded in `bytes` and, from `s`, ends in `t` with `cycles` M-cycles reported and no HALT: the
Encoding, Cycles and Operation lines of its rule (R9). Every field of `t` that is not said to differ from `s` is that
of `s`: this is the frame. -/
def Executes (i : Instr) (bytes : List Byte) (cycles : Nat) (s t : State) : Prop :=
  encode i = bytes ∧ exec i s = .next { t with report := { cycles := cycles, enteredHalt := false } }

/-- An instruction's write to `addr` is not the fatal one: `ECHO_WRITE` is `ignore`, or `addr` is outside the mirror
(R68). -/
def CanStore (s : State) (addr : Word) : Prop :=
  s.params.echoWrite = .ignore ∨ regionOf addr.toNat ≠ .echo

/-- The byte that `MemWrite(addr, 1, v)` leaves at `x` (R62 to R74): the OAM bytes come from page `v` when `addr` is the
DMA trigger register (R73; the trigger register itself, if it is a source, has been stored), the addresses that show the
byte at `addr` read `v` if the region of `addr` is writable, and every other address reads as before. -/
def writtenByte (m : Memory) (addr : Word) (v : Byte) (x : Word) : Byte :=
  if addr = dmaAddr ∧ regionOf x.toNat = .oam then
    if wordOf v (loByte x) = dmaAddr then v else memRead m (wordOf v (loByte x))
  else if (regionOf addr.toNat).writable = true ∧ storageAddr x = some addr.toNat then v
  else memRead m x

/-- `m'` is what a bus write of `v` to `addr` leaves of `m`, at every address. -/
def WroteByte (m : Memory) (addr : Word) (v : Byte) (m' : Memory) : Prop :=
  ∀ x, memRead m' x = writtenByte m addr v x

/-- `m'` is what `push16(w)` with this SP leaves of `m` (R160): the high byte at SP-1, then the low byte at SP-2. -/
def WrotePush (m : Memory) (sp w : Word) (m' : Memory) : Prop :=
  ∃ m1, WroteByte m (sp - 1) (hiByte w) m1 ∧ WroteByte m1 (sp - 2) (loByte w) m'

/-- An instruction's push at this SP is not the fatal one (R68, R160). -/
def CanPush (s : State) : Prop := CanStore s (s.sp - 1) ∧ CanStore s (s.sp - 2)

/-- The 16-bit value that `pop16()` returns (R161). -/
def poppedWord (s : State) : Word := wordOf (s.read (s.sp + 1)) (s.read s.sp)

/-- A bit as a number, for carry arithmetic. -/
def carryNat (b : Bool) : Nat := if b then 1 else 0

/-- Instruction `i` writes `v` to `addr` and otherwise ends in `t` (whose memory is not looked at): `Executes` with the
memory that the bus write leaves. -/
def ExecutesStore (i : Instr) (bytes : List Byte) (cycles : Nat) (s : State) (addr : Word) (v : Byte) (t : State) :
    Prop :=
  ∃ m, WroteByte s.mem addr v m ∧ Executes i bytes cycles s { t with mem := m }

/-- Instruction `i` pushes `w` and otherwise ends in `t` (whose memory is not looked at). -/
def ExecutesPush (i : Instr) (bytes : List Byte) (cycles : Nat) (s : State) (w : Word) (t : State) : Prop :=
  ∃ m, WrotePush s.mem s.sp w m ∧ Executes i bytes cycles s { t with mem := m }

/-! ## Results in arithmetic of their own -/

/-- ADD and ADC (R180): A plus the operand plus the carry; H and C are the carries out of bits 3 and 7. -/
def afterAdd (s : State) (v : Byte) (cin : Bool) : State :=
  let sum := s.a + v + BitVec.ofNat 8 (carryNat cin)
  { s with
    a := sum
    f := flagsByte (sum = 0) false (decide (16 ≤ s.a.toNat % 16 + v.toNat % 16 + carryNat cin))
      (decide (256 ≤ s.a.toNat + v.toNat + carryNat cin)) }

/-- The difference of SUB, SBC and CP (R181). -/
def diffByte (a v : Byte) (cin : Bool) : Byte := a - v - BitVec.ofNat 8 (carryNat cin)

/-- The flags of SUB, SBC and CP (R181): H and C are the borrows out of bits 3 and 7. -/
def diffFlags (a v : Byte) (cin : Bool) : Byte :=
  flagsByte (diffByte a v cin = 0) true (decide (a.toNat % 16 < v.toNat % 16 + carryNat cin))
    (decide (a.toNat < v.toNat + carryNat cin))

/-- SUB and SBC. -/
def afterSub (s : State) (v : Byte) (cin : Bool) : State :=
  { s with a := diffByte s.a v cin, f := diffFlags s.a v cin }

/-- CP: the flags of SUB, A kept (R203). -/
def afterCompare (s : State) (v : Byte) : State := { s with f := diffFlags s.a v false }

/-- AND, XOR, OR (R194, R197, R200) with result `w`: H is 1 for AND only, N and C are 0. -/
def afterLogic (s : State) (w : Byte) (h : Bool) : State := { s with a := w, f := flagsByte (w = 0) false h false }

/-- The flags of INC (R206): C kept. -/
def incFlags (s : State) (v : Byte) : Byte := flagsByte (v + 1 = 0) false (decide (v.toNat % 16 = 15)) (s.f.getLsbD 4)

/-- The flags of DEC (R208): C kept. -/
def decFlags (s : State) (v : Byte) : Byte := flagsByte (v - 1 = 0) true (decide (v.toNat % 16 = 0)) (s.f.getLsbD 4)

/-- The carries of `SP + e` (R167, R233): out of bits 3 and 7 of the unsigned addition of the low bytes; Z = N = 0. -/
def spOffsetFlags (sp : Word) (e : Byte) : Byte :=
  flagsByte false false (decide (16 ≤ sp.toNat % 16 + e.toNat % 16)) (decide (256 ≤ sp.toNat % 256 + e.toNat))

/-- A word plus a signed byte, modulo 65536 (R106). -/
def plusSigned (w : Word) (e : Byte) : Word := BitVec.ofInt 16 ((w.toNat : Int) + e.toInt)

/-- The carry flag and a byte as one 9-bit register, the carry at the top (R242, R249). -/
def withCarry (c : Bool) (v : Byte) : BitVec 9 := BitVec.ofBool c ++ v

/-- The flags of the CB rotates, shifts and swaps (section 3 of file 44). -/
def shiftFlags (w : Byte) (c : Bool) : Byte := flagsByte (w = 0) false false c

/-- A CB rotate, shift or swap of a register with result `w` and carry `c`. -/
def afterShift (s : State) (r : Reg8) (w : Byte) (c : Bool) : State := { s.setR8 r w with f := shiftFlags w c }

/-- DAA in the spec's own steps (R210). -/
def afterDaa (s : State) : State :=
  let n := s.f.getLsbD 6
  let low : Bool := s.f.getLsbD 5 || (!n && decide (9 < s.a.toNat % 16))
  let high : Bool := s.f.getLsbD 4 || (!n && decide (0x99 < s.a.toNat))
  let adj := (if low then 0x06 else 0) + (if high then 0x60 else 0)
  let w : Byte := if n then s.a - BitVec.ofNat 8 adj else s.a + BitVec.ofNat 8 adj
  { s with a := w, f := flagsByte (w = 0) n false high }

/-- A number below 100 as a BCD byte. -/
def bcd (n : Nat) : Byte := byteOf (16 * (n / 10) + n % 10)

/-! ## What an instruction may touch -/

/-- The addresses that an instruction stores to, in order (R133 to R148, R160, R163, R207 to R266). A lone `PREFIX CB` is
the instruction of its second byte and is not covered. -/
def storeAddresses (i : Instr) (s : State) : List Word :=
  match i with
  | .ldIndR _ | .ldIndN _ | .ldHlDecA | .ldHlIncA | .incInd | .decInd | .rlcInd | .rrcInd | .rlInd | .rrInd
  | .slaInd | .sraInd | .swapInd | .srlInd | .resBInd _ | .setBInd _ => [s.hl]
  | .ldBcA => [s.bc]
  | .ldDeA => [s.de]
  | .ldNnA nn => [nn]
  | .ldhCA => [ioPage s.c]
  | .ldhNA n => [ioPage n]
  | .ldNnSp nn => [nn, nn + 1]
  | .pushRr _ | .callNn _ | .rstT _ => [s.sp - 1, s.sp - 2]
  | .callCcNn cc _ => if s.cond cc then [s.sp - 1, s.sp - 2] else []
  | _ => []

/-- The eleven unassigned first bytes (R305). -/
def isIllegal : Instr → Bool
  | .illegalD3 | .illegalDB | .illegalDD | .illegalE3 | .illegalE4 | .illegalEB | .illegalEC | .illegalED
  | .illegalF4 | .illegalFC | .illegalFD => true
  | _ => false

/-- The instructions of the flag table (section 6 of file 42) that write a flag; a lone `PREFIX CB` may be any of the CB
ones. -/
def writesFlags : Instr → Bool
  | .addR _ | .addInd | .addN _ | .adcR _ | .adcInd | .adcN _ | .subR _ | .subInd | .subN _ | .sbcR _ | .sbcInd
  | .sbcN _ | .cpR _ | .cpInd | .cpN _ | .andR _ | .andInd | .andN _ | .xorR _ | .xorInd | .xorN _ | .orR _ | .orInd
  | .orN _ | .incR _ | .incInd | .decR _ | .decInd | .daa | .cpl | .scf | .ccf | .addHlRr _ | .addSpE _ | .ldHlSpE _
  | .rlca | .rrca | .rla | .rra | .rlcR _ | .rlcInd | .rrcR _ | .rrcInd | .rlR _ | .rlInd | .rrR _ | .rrInd | .slaR _
  | .slaInd | .sraR _ | .sraInd | .srlR _ | .srlInd | .swapR _ | .swapInd | .bitBR _ _ | .bitBInd _ | .popRr .af
  | .prefixCb => true
  | _ => false

/-- The instructions of R31 that write SP. -/
def writesSp : Instr → Bool
  | .ldRrNn .sp _ | .ldSpHl | .addSpE _ | .incRr .sp | .decRr .sp | .pushRr _ | .popRr _ | .callNn _ | .callCcNn _ _
  | .ret | .retCc _ | .reti | .rstT _ => true
  | _ => false

/-- The instructions that write IME or the pending EI (R27, R29). -/
def writesIme : Instr → Bool
  | .di | .ei | .reti => true
  | _ => false

/-! ## The invariant of a run -/

/-- The VideoUnit's counters are in the ranges of R51 and R52 (log 7: `wlc` may reach 144 once the last line is drawn), and
the dots of a Draw are what its columns, its start-of-line penalty and its window stall make them; by that HBlank has at most
204 dots, unless the stall is one that leaves it none by R333 (log 8). -/
def videoWf (p : Params) (v : Video) : Prop :=
  match v.mode with
  | .stopped => v.wlc ≤ 144
  | .oamScan ly dotsLeft => ly ≤ 143 ∧ 1 ≤ dotsLeft ∧ dotsLeft ≤ 80 ∧ v.wlc ≤ ly
  | .draw line =>
    line.ly ≤ 143 ∧ line.sprites.length ≤ 10 ∧ line.col ≤ 159 ∧ v.wlc ≤ line.ly ∧
      12 + line.col ≤ line.dots + line.penalty ∧
      line.dots + line.penalty ≤ 19 + line.col + (if line.windowShown then p.windowStallDots else 0)
  | .hBlank ly dotsLeft =>
    ly ≤ 143 ∧ 1 ≤ dotsLeft ∧ (p.windowStallDots ≤ 196 → dotsLeft ≤ 204) ∧ v.wlc ≤ ly + 1
  | .vBlank dotsLeft => 1 ≤ dotsLeft ∧ dotsLeft ≤ 4560 ∧ v.wlc ≤ 144

/-- What every state of a run satisfies: allowed parameters, canonical memory, F's low nibble zero (R24), the Clock's
counter within its width (R50), no pending EI without `EI_DELAY` (R29), the VideoUnit's ranges, nothing left reported
(R55). -/
structure Inv (s : State) : Prop where
  params : s.params.wf
  memory : Memory.wf s.mem
  flags : s.f &&& 0x0F#8 = 0
  clock : s.cyc < 2 ^ s.params.clkWidth
  pending : s.params.eiDelay = false → s.imePending = false
  video : videoWf s.params s.video
  report : s.report = Report.idle

/-- Every address of ROM reads the same from both memories (R64). -/
def SameRom (m m' : Memory) : Prop := ∀ x : Word, x.toNat ≤ 0x7FFF → memRead m' x = memRead m x

/-! ## Sequences of dots -/

/-- `n` dots of the VideoUnit with what memory holds at each dot given by `m`: the state after them and the pixels emitted
(R320, R350). -/
def runDots (p : Params) (m : Nat → Memory) : Nat → Video → Video × List Pixel
  | 0, v => (v, [])
  | n + 1, v =>
    let r := runDots p m n v
    let d := tickOneDot p (m n) r.1
    (d.1, r.2 ++ d.2.toList)

/-- The LCD is enabled at each of the dots (R323). -/
def LcdOn (m : Nat → Memory) (n : Nat) : Prop := ∀ k, k < n → (memRead (m k) lcdcAddr).getLsbD 7 = true

/-- `s'` is `s` but for the Clock's counter and its width, both allowed widths, the counters equal modulo 256 (R50). -/
def SameButClock (s s' : State) : Prop :=
  8 ≤ s.params.clkWidth ∧ 8 ≤ s'.params.clkWidth ∧ s.cyc % 256 = s'.cyc % 256 ∧
    s' = { s with cyc := s'.cyc, params := { s.params with clkWidth := s'.params.clkWidth } }

/-- The coordinates of one scanline's pixels in raster order (R350). -/
def rowCoords (y : Nat) : List (Nat × Nat) := (List.range 160).map fun x => (x, y)

end Sys2Proof.Machine
end

