-- ==== Sys2Proof/Certificates/Slice0/Obligations.lean ====
section
/-! DEFINITION. The statements for the provers: what the numbered rules of the spec say the instructions and the machine
do.
An instruction statement says its encoding, its M-cycles, its whole next state (every field not named keeps its value: the
frame) and, for a form that writes memory, what every address reads afterwards. -/

section

open Sys2Proof Sys2Proof.Machine

/-! ## Encoding -/

/-- O1. Decoding the bytes of a well-formed instruction gives it back, with nothing left over, at every operand value; and,
but for a lone prefix byte, whatever bytes follow are left untouched. That a prefix byte with nothing after it is an
instruction of its own (`PREFIX CB`), so that its clause has something to say, is the model's choice (log 9): R108 has the
byte as no instruction by itself. -/
def Obligations.DecodeOfEncode : Prop :=
  ∀ i : Instr, i.WellFormed →
    decode (encode i) = .ok (i, []) ∧
      (i ≠ .prefixCb → ∀ rest : List Byte, decode (encode i ++ rest) = .ok (i, rest))

/-- O2. The other way: whatever three bytes are fetched, the instruction read is well-formed, is not the lone prefix, and
its encoding is the bytes it was read from: each word has one meaning and no bit is dropped. -/
def Obligations.EncodeOfDecode : Prop :=
  ∀ b0 b1 b2 : Byte,
    (decodeBytes b0 b1 b2).WellFormed ∧ decodeBytes b0 b1 b2 ≠ .prefixCb ∧
      encode (decodeBytes b0 b1 b2) = [b0, b1, b2].take (decodeBytes b0 b1 b2).length

/-- O3 (R107). The length is a function of the first byte alone: the lists of R107. -/
def Obligations.LengthByFirstByte : Prop :=
  ∀ b0 b1 b2 : Byte,
    (decodeBytes b0 b1 b2).length =
      if b0 ∈ ([0x06, 0x0E, 0x16, 0x1E, 0x26, 0x2E, 0x36, 0x3E, 0xC6, 0xCE, 0xD6, 0xDE, 0xE6, 0xEE, 0xF6, 0xFE, 0xE0,
          0xF0, 0x18, 0x20, 0x28, 0x30, 0x38, 0xE8, 0xF8, 0xCB] : List Byte) then 2
      else if b0 ∈ ([0x01, 0x11, 0x21, 0x31, 0x08, 0xC2, 0xC3, 0xC4, 0xCA, 0xCC, 0xCD, 0xD2, 0xD4, 0xDA, 0xDC, 0xEA,
          0xFA] : List Byte) then 3
      else 1

/-- O4. A word of each family, written out from the spec's encoding, decodes to its instruction. -/
def Obligations.SampleWords : Prop :=
  decodeBytes 0b01111000 0 0 = .ldRR .a .b ∧ decodeBytes 0b00111110 0x14 0 = .ldRN .a 0x14 ∧
    decodeBytes 0xEA 0x00 0xC0 = .ldNnA 0xC000 ∧ decodeBytes 0b00110001 0xFE 0xFF = .ldRrNn .sp 0xFFFE ∧
    decodeBytes 0b11110101 0 0 = .pushRr .af ∧ decodeBytes 0b10001011 0 0 = .adcR .e ∧
    decodeBytes 0b00110101 0 0 = .decInd ∧ decodeBytes 0b00001001 0 0 = .addHlRr .bc ∧
    decodeBytes 0xCB 0b01111111 0 = .bitBR 7 .a ∧ decodeBytes 0xCB 0b00110111 0 = .swapR .a ∧
    decodeBytes 0xDC 0x00 0x02 = .callCcNn .c 0x0200 ∧ decodeBytes 0b11101111 0 0 = .rstT 5 ∧
    decodeBytes 0x76 0 0 = .halt ∧ decodeBytes 0xFB 0 0 = .ei ∧ decodeBytes 0xD3 0 0 = .illegalD3

/-! ## Fetch -/

/-- O5 (R101, R112, R400, R401). When the bytes at PC decode to a well-formed instruction and the Cpu is not Halted, a step
runs it: from the state with PC past its bytes (in HaltBug, one less) and the ports empty, then, if it reaches a next state,
the delayed effect of EI and the step's parts (b) to (e); a fault of the instruction is the step's. -/
def Obligations.StepRunsDecoded : Prop :=
  ∀ (s : State) (i : Instr) (rest : List Byte), s.haltState ≠ .halted → i.WellFormed → i ≠ .prefixCb →
    let second : Word := if s.haltState = .haltBug then s.pc else s.pc + 1
    decode [s.read s.pc, s.read second, s.read (second + 1)] = .ok (i, rest) →
      step s =
        match exec i { s with
            pc := second + BitVec.ofNat 16 (i.length - 1), serialOut := none, pixelsOut := [], report := Report.idle } with
        | .next t => .next (finishStep (settleIme (s.params.eiDelay && s.imePending) t))
        | .fault r => .fault r
        | .refused q => .refused q

/-- O6 (R26, R85, R100). In Running, memory that holds an instruction's encoding at PC (wherever that is, and across
0xFFFF) is fetched as that instruction, and PC goes past it. -/
def Obligations.FetchesEncoded : Prop :=
  ∀ (s : State) (i : Instr), s.haltState = .running → i.WellFormed → i ≠ .prefixCb →
    (∀ k v, (encode i)[k]? = some v → s.read (s.pc + BitVec.ofNat 16 k) = v) →
      fetchInstr s = i ∧ (s.afterFetch i.length).pc = s.pc + BitVec.ofNat 16 (encode i).length

/-! ## Registers and flags -/

/-- O7 (R20, R21). Writing a register of the operand table changes that register and no other field of the state; writing a
pair changes its two halves, or SP, and no other field. What is written is what is read, a pair is its two halves with the
first-named one high, and the registers and the pairs are independent of each other. -/
def Obligations.RegisterFile : Prop :=
  (∀ (s : State) (v : Byte),
    s.setR8 .a v = { s with a := v } ∧ s.setR8 .b v = { s with b := v } ∧ s.setR8 .c v = { s with c := v } ∧
      s.setR8 .d v = { s with d := v } ∧ s.setR8 .e v = { s with e := v } ∧ s.setR8 .h v = { s with h := v } ∧
      s.setR8 .l v = { s with l := v }) ∧
    (∀ (s : State) (w : Word),
      s.setR16 .bc w = { s with b := hiByte w, c := loByte w } ∧ s.setR16 .de w = { s with d := hiByte w, e := loByte w } ∧
        s.setR16 .hl w = { s with h := hiByte w, l := loByte w } ∧ s.setR16 .sp w = { s with sp := w }) ∧
    (∀ (s : State) (r r' : Reg8) (v : Byte), (s.setR8 r v).getR8 r' = if r' = r then v else s.getR8 r') ∧
    (∀ s : State, s.bc.toNat = 256 * s.b.toNat + s.c.toNat ∧ s.de.toNat = 256 * s.d.toNat + s.e.toNat ∧
      s.hl.toNat = 256 * s.h.toNat + s.l.toNat) ∧
    (∀ (s : State) (rr rr' : Reg16) (w : Word), (s.setR16 rr w).getR16 rr' = if rr' = rr then w else s.getR16 rr') ∧
    (∀ (s : State) (rr : Reg16) (w : Word) (r : Reg8),
      (s.setR16 rr w).a = s.a ∧ (s.setR16 rr w).f = s.f ∧
        (rr = .sp → (s.setR16 rr w).getR8 r = s.getR8 r))

/-- O8 (R23, R24, R280). The four flags are bits 7, 6, 5, 4 of F, the low nibble of a written F is zero, and the conditions
test Z and C. -/
def Obligations.FlagLayout : Prop :=
  (∀ z n h c : Bool,
    let f := flagsByte z n h c
    f.getLsbD 7 = z ∧ f.getLsbD 6 = n ∧ f.getLsbD 5 = h ∧ f.getLsbD 4 = c ∧ f &&& 0x0F#8 = 0) ∧
    ∀ s : State, s.cond .nz = !s.f.getLsbD 7 ∧ s.cond .z = s.f.getLsbD 7 ∧ s.cond .nc = !s.f.getLsbD 4 ∧
      s.cond .c = s.f.getLsbD 4

/-! ## The bus -/

/-- O9 (R61, R63, R68, R71). What a read returns: in the mirror the byte 0x2000 below, in the gap 0xFF, everywhere else the
byte stored at the address. -/
def Obligations.BusRead : Prop :=
  ∀ (m : Memory) (x : Word),
    (0xE000 ≤ x.toNat → x.toNat ≤ 0xFDFF → memRead m x = memRead m (x - 0x2000)) ∧
      (0xFEA0 ≤ x.toNat → x.toNat ≤ 0xFEFF → memRead m x = 0xFF) ∧
      (x.toNat ≤ 0xDFFF ∨ (0xFE00 ≤ x.toNat ∧ x.toNat ≤ 0xFE9F) ∨ 0xFF00 ≤ x.toNat → memRead m x = m.get x.toNat)

/-- O10 (R62 to R72, R74, R78). What a write leaves, but for the DMA trigger: a write to ROM, the mirror or the gap changes
nothing; any other is read back at its address, and at its mirror for the first 7,680 bytes of work RAM, and nowhere
else. -/
def Obligations.BusWrite : Prop :=
  ∀ (m : Memory) (a : Word) (v : Byte), a ≠ 0xFF46 →
    (a.toNat ≤ 0x7FFF ∨ (0xE000 ≤ a.toNat ∧ a.toNat ≤ 0xFDFF) ∨ (0xFEA0 ≤ a.toNat ∧ a.toNat ≤ 0xFEFF) →
      memWrite m a v = m) ∧
      ((0x8000 ≤ a.toNat ∧ a.toNat ≤ 0xDFFF) ∨ (0xFE00 ≤ a.toNat ∧ a.toNat ≤ 0xFE9F) ∨ 0xFF00 ≤ a.toNat →
        ∀ x : Word, memRead (memWrite m a v) x =
          if x = a ∨ (0xC000 ≤ a.toNat ∧ a.toNat ≤ 0xDDFF ∧ x = a + 0x2000) then v else memRead m x)

/-- O11 (R46, R73). A write to the DMA trigger stores the byte and copies 160 bytes from its page into OAM, each read from
the memory in which the byte is already stored; no other address changes. -/
def Obligations.OamDma : Prop :=
  ∀ (m : Memory) (v : Byte),
    let stored := m.put 0xFF46 v
    memRead (memWrite m 0xFF46 v) 0xFF46 = v ∧
      (∀ k : Nat, k < 160 →
        memRead (memWrite m 0xFF46 v) (BitVec.ofNat 16 (0xFE00 + k)) =
          memRead stored (BitVec.ofNat 16 (256 * v.toNat + k))) ∧
      ∀ x : Word, x ≠ 0xFF46 → ¬(0xFE00 ≤ x.toNat ∧ x.toNat ≤ 0xFE9F) → memRead (memWrite m 0xFF46 v) x = memRead m x

/-- O12 (R6, R56 to R58, R460, R462). The power-on state, for every setting of the parameters of R6: the Cpu registers, the
Clock's counter, the VideoUnit, empty ports; `ROM` in the ROM region, `IO_RESET` in the I/O region, `IE_RESET` in IE and
`RAM_INIT` in every byte of RAM. `State.reset` is that state at the default parameters: those of R6 and the I/O table of
R57. Taking the defaults for `State.reset` is log 5; its ROM image, for which the spec gives no default, is the model's
choice (log 1), and what it holds is not said here. -/
def Obligations.PowerOnState : Prop :=
  let system : List (Nat × Byte) := [(0xFF00, 0xCF), (0xFF02, 0x7E), (0xFF04, 0xAB), (0xFF07, 0xF8), (0xFF0F, 0xE1)]
  let audio : List (Nat × Byte) := [(0xFF10, 0x80), (0xFF11, 0xBF), (0xFF12, 0xF3), (0xFF13, 0xFF), (0xFF14, 0xBF),
    (0xFF16, 0x3F), (0xFF18, 0xFF), (0xFF19, 0xBF), (0xFF1A, 0x7F), (0xFF1B, 0xFF), (0xFF1C, 0x9F), (0xFF1D, 0xFF),
    (0xFF1E, 0xBF), (0xFF20, 0xFF), (0xFF23, 0xBF), (0xFF24, 0x77), (0xFF25, 0xF3), (0xFF26, 0xF1)]
  let video : List (Nat × Byte) := [(0xFF40, 0x91), (0xFF41, 0x85), (0xFF46, 0xFF), (0xFF47, 0xFC), (0xFF48, 0xFF),
    (0xFF49, 0xFF)]
  let listed := system ++ audio ++ video
  (∀ p : PowerOn,
    let s := State.powerOn p
    s.a = 0x01 ∧ s.f = 0xB0 ∧ s.b = 0x00 ∧ s.c = 0x13 ∧ s.d = 0x00 ∧ s.e = 0xD8 ∧ s.h = 0x01 ∧ s.l = 0x4D ∧
      s.sp = 0xFFFE ∧ s.pc = 0x0100 ∧ s.ime = false ∧ s.imePending = false ∧ s.haltState = .running ∧ s.cyc = 0 ∧
      s.video = { mode := .stopped, wlc := 0 } ∧ s.serialOut = none ∧ s.pixelsOut = [] ∧ s.params = p.params ∧
      (∀ k : Fin 32768, memRead s.mem (BitVec.ofNat 16 k.val) = p.rom k) ∧
      (∀ k : Fin 128, memRead s.mem (BitVec.ofNat 16 (0xFF00 + k.val)) = p.ioReset k) ∧
      memRead s.mem 0xFFFF = p.ieReset ∧
      ∀ x : Word, (0x8000 ≤ x.toNat ∧ x.toNat ≤ 0xFE9F) ∨ (0xFF80 ≤ x.toNat ∧ x.toNat ≤ 0xFFFE) →
        memRead s.mem x = p.ramInit) ∧
    State.reset = State.powerOn defaultPowerOn ∧
    State.reset.params =
      { eiDelay := true
        echoWrite := .ignore
        stopPolicy := .fault
        windowStallDots := 6
        tacPeriod0 := .cycles256
        tacPeriod1 := .cycles4
        tacPeriod2 := .cycles16
        tacPeriod3 := .cycles64
        serialRaisesIrq := true
        clkWidth := 64 } ∧
    (∀ e ∈ listed, memRead State.reset.mem (BitVec.ofNat 16 e.1) = e.2) ∧
    ∀ x : Word, 0x8000 ≤ x.toNat → ¬(0xFEA0 ≤ x.toNat ∧ x.toNat ≤ 0xFEFF) → (∀ e ∈ listed, e.1 ≠ x.toNat) →
      memRead State.reset.mem x = 0x00

/-! ## 8-bit loads -/

/-- O13 (R130 to R132, R135, R136, R139, R141, R143, R145, R147). The 8-bit loads into a register. -/
def Obligations.LoadByte : Prop :=
  ∀ (s : State) (dst src : Reg8) (nn : Word) (n : Byte),
    Executes (.ldRR dst src) [byteOf (0x40 + 8 * dst.code + src.code)] 1 s (s.setR8 dst (s.getR8 src)) ∧
      Executes (.ldRN dst n) [byteOf (0x06 + 8 * dst.code), n] 2 s (s.setR8 dst n) ∧
      Executes (.ldRInd dst) [byteOf (0x46 + 8 * dst.code)] 2 s (s.setR8 dst (s.read s.hl)) ∧
      Executes .ldABc [0x0A] 2 s { s with a := s.read s.bc } ∧
      Executes .ldADe [0x1A] 2 s { s with a := s.read s.de } ∧
      Executes (.ldANn nn) [0xFA, loByte nn, hiByte nn] 4 s { s with a := s.read nn } ∧
      Executes .ldhAC [0xF2] 2 s { s with a := s.read (BitVec.ofNat 16 (0xFF00 + s.c.toNat)) } ∧
      Executes (.ldhAN n) [0xF0, n] 3 s { s with a := s.read (BitVec.ofNat 16 (0xFF00 + n.toNat)) } ∧
      Executes .ldAHlDec [0x3A] 2 s
        { s with a := s.read s.hl, h := hiByte (s.hl - 1), l := loByte (s.hl - 1) } ∧
      Executes .ldAHlInc [0x2A] 2 s
        { s with a := s.read s.hl, h := hiByte (s.hl + 1), l := loByte (s.hl + 1) }

/-- O14 (R133, R134, R137, R138, R140, R142, R144, R146, R148). The 8-bit stores, each where its write is not the fatal one
of R68. -/
def Obligations.StoreByte : Prop :=
  ∀ (s : State) (r : Reg8) (nn : Word) (n : Byte),
    (CanStore s s.hl →
      ExecutesStore (.ldIndR r) [byteOf (0x70 + r.code)] 2 s s.hl (s.getR8 r) s ∧
        ExecutesStore (.ldIndN n) [0x36, n] 3 s s.hl n s ∧
        ExecutesStore .ldHlDecA [0x32] 2 s s.hl s.a { s with h := hiByte (s.hl - 1), l := loByte (s.hl - 1) } ∧
        ExecutesStore .ldHlIncA [0x22] 2 s s.hl s.a { s with h := hiByte (s.hl + 1), l := loByte (s.hl + 1) }) ∧
      (CanStore s s.bc → ExecutesStore .ldBcA [0x02] 2 s s.bc s.a s) ∧
      (CanStore s s.de → ExecutesStore .ldDeA [0x12] 2 s s.de s.a s) ∧
      (CanStore s nn → ExecutesStore (.ldNnA nn) [0xEA, loByte nn, hiByte nn] 4 s nn s.a s) ∧
      ExecutesStore .ldhCA [0xE2] 2 s (BitVec.ofNat 16 (0xFF00 + s.c.toNat)) s.a s ∧
      ExecutesStore (.ldhNA n) [0xE0, n] 3 s (BitVec.ofNat 16 (0xFF00 + n.toNat)) s.a s

/-! ## 16-bit loads and the stack -/

/-- O15 (R162 to R164, R167). `LD rr,nn`, `LD SP,HL`, `LD HL,SP+e`, and `LD (nn),SP`, which writes the low byte at nn first,
then the high byte at nn+1. -/
def Obligations.LoadPair : Prop :=
  ∀ (s : State) (rr : Reg16) (nn : Word) (e : Byte),
    Executes (.ldRrNn rr nn) [byteOf (0x01 + 16 * rr.code), loByte nn, hiByte nn] 3 s (s.setR16 rr nn) ∧
      Executes .ldSpHl [0xF9] 2 s { s with sp := s.hl } ∧
      Executes (.ldHlSpE e) [0xF8, e] 3 s
        { s with h := hiByte (plusSigned s.sp e), l := loByte (plusSigned s.sp e), f := spOffsetFlags s.sp e } ∧
      (CanStore s nn → CanStore s (nn + 1) →
        ∃ m1 m2, WroteByte s.mem nn (loByte s.sp) m1 ∧ WroteByte m1 (nn + 1) (hiByte s.sp) m2 ∧
          Executes (.ldNnSp nn) [0x08, loByte nn, hiByte nn] 5 s { s with mem := m2 })

/-- O16 (R160, R165). `PUSH rr`: the high byte at SP-1, then the low byte at SP-2; AF's low byte has its low nibble zero. -/
def Obligations.PushPair : Prop :=
  ∀ s : State, CanPush s →
    ExecutesPush (.pushRr .bc) [0xC5] 4 s (s.b ++ s.c) { s with sp := s.sp - 2 } ∧
      ExecutesPush (.pushRr .de) [0xD5] 4 s (s.d ++ s.e) { s with sp := s.sp - 2 } ∧
      ExecutesPush (.pushRr .hl) [0xE5] 4 s (s.h ++ s.l) { s with sp := s.sp - 2 } ∧
      ExecutesPush (.pushRr .af) [0xF5] 4 s (s.a ++ (s.f &&& 0xF0#8)) { s with sp := s.sp - 2 }

/-- O17 (R161, R166). `POP rr`: the low byte from SP, the high byte from SP+1; `POP AF` masks F. -/
def Obligations.PopPair : Prop :=
  ∀ s : State,
    let lo := s.read s.sp
    let hi := s.read (s.sp + 1)
    Executes (.popRr .bc) [0xC1] 3 s { s with b := hi, c := lo, sp := s.sp + 2 } ∧
      Executes (.popRr .de) [0xD1] 3 s { s with d := hi, e := lo, sp := s.sp + 2 } ∧
      Executes (.popRr .hl) [0xE1] 3 s { s with h := hi, l := lo, sp := s.sp + 2 } ∧
      Executes (.popRr .af) [0xF1] 3 s { s with a := hi, f := lo &&& 0xF0#8, sp := s.sp + 2 }

/-- O18 (R161, R166). A push of any pair and then a pop into any pair, the same or another, gives the pair popped into the
value pushed, with its low nibble zero when that pair is AF, and gives back the stack pointer, when both stack bytes are
plain storage: not ROM, the mirror or the gap, nor the DMA trigger. -/
def Obligations.PopOfPush : Prop :=
  ∀ (s : State) (rr rr' : StkReg),
    (regionOf (s.sp - 1).toNat).writable = true → (regionOf (s.sp - 2).toNat).writable = true →
      s.sp - 1 ≠ 0xFF46 → s.sp - 2 ≠ 0xFF46 →
        ∃ t u, exec (.pushRr rr) s = .next t ∧ exec (.popRr rr') t = .next u ∧ u.sp = s.sp ∧
          u.getStk rr' = (if rr' = .af then s.getStk rr &&& 0xFFF0#16 else s.getStk rr) ∧
          (rr' = .af → u.f &&& 0x0F#8 = 0)

/-! ## 8-bit arithmetic and logic -/

/-- O19 (R180, R182 to R187). ADD and ADC. -/
def Obligations.AddByte : Prop :=
  ∀ (s : State) (r : Reg8) (n : Byte),
    Executes (.addR r) [byteOf (0x80 + r.code)] 1 s (afterAdd s (s.getR8 r) false) ∧
      Executes .addInd [0x86] 2 s (afterAdd s (s.read s.hl) false) ∧
      Executes (.addN n) [0xC6, n] 2 s (afterAdd s n false) ∧
      Executes (.adcR r) [byteOf (0x88 + r.code)] 1 s (afterAdd s (s.getR8 r) (s.f.getLsbD 4)) ∧
      Executes .adcInd [0x8E] 2 s (afterAdd s (s.read s.hl) (s.f.getLsbD 4)) ∧
      Executes (.adcN n) [0xCE, n] 2 s (afterAdd s n (s.f.getLsbD 4))

/-- O20 (R181, R188 to R193, R203 to R205). SUB and SBC, and CP, which sets the flags of SUB and keeps A: Z says equal and C
says A is the smaller, unsigned. -/
def Obligations.SubtractByte : Prop :=
  ∀ (s : State) (r : Reg8) (n : Byte),
    Executes (.subR r) [byteOf (0x90 + r.code)] 1 s (afterSub s (s.getR8 r) false) ∧
      Executes .subInd [0x96] 2 s (afterSub s (s.read s.hl) false) ∧
      Executes (.subN n) [0xD6, n] 2 s (afterSub s n false) ∧
      Executes (.sbcR r) [byteOf (0x98 + r.code)] 1 s (afterSub s (s.getR8 r) (s.f.getLsbD 4)) ∧
      Executes .sbcInd [0x9E] 2 s (afterSub s (s.read s.hl) (s.f.getLsbD 4)) ∧
      Executes (.sbcN n) [0xDE, n] 2 s (afterSub s n (s.f.getLsbD 4)) ∧
      Executes (.cpR r) [byteOf (0xB8 + r.code)] 1 s (afterCompare s (s.getR8 r)) ∧
      Executes .cpInd [0xBE] 2 s (afterCompare s (s.read s.hl)) ∧
      Executes (.cpN n) [0xFE, n] 2 s (afterCompare s n) ∧
      ((afterCompare s n).f.getLsbD 7 = true ↔ s.a = n) ∧ ((afterCompare s n).f.getLsbD 4 = true ↔ s.a.toNat < n.toNat)

/-- O21 (R194 to R202). AND, XOR, OR. -/
def Obligations.LogicByte : Prop :=
  ∀ (s : State) (r : Reg8) (n : Byte),
    let m := s.read s.hl
    let v := s.getR8 r
    Executes (.andR r) [byteOf (0xA0 + r.code)] 1 s (afterLogic s (s.a &&& v) true) ∧
      Executes .andInd [0xA6] 2 s (afterLogic s (s.a &&& m) true) ∧
      Executes (.andN n) [0xE6, n] 2 s (afterLogic s (s.a &&& n) true) ∧
      Executes (.xorR r) [byteOf (0xA8 + r.code)] 1 s (afterLogic s (s.a ^^^ v) false) ∧
      Executes .xorInd [0xAE] 2 s (afterLogic s (s.a ^^^ m) false) ∧
      Executes (.xorN n) [0xEE, n] 2 s (afterLogic s (s.a ^^^ n) false) ∧
      Executes (.orR r) [byteOf (0xB0 + r.code)] 1 s (afterLogic s (s.a ||| v) false) ∧
      Executes .orInd [0xB6] 2 s (afterLogic s (s.a ||| m) false) ∧
      Executes (.orN n) [0xF6, n] 2 s (afterLogic s (s.a ||| n) false)

/-- O22 (R206 to R209). INC and DEC of a register and of the byte at HL: C kept; for `(HL)` the flags come from the value
computed. -/
def Obligations.StepByte : Prop :=
  ∀ (s : State) (r : Reg8),
    let v := s.getR8 r
    let m := s.read s.hl
    Executes (.incR r) [byteOf (0x04 + 8 * r.code)] 1 s { s.setR8 r (v + 1) with f := incFlags s v } ∧
      Executes (.decR r) [byteOf (0x05 + 8 * r.code)] 1 s { s.setR8 r (v - 1) with f := decFlags s v } ∧
      (CanStore s s.hl →
        ExecutesStore .incInd [0x34] 3 s s.hl (m + 1) { s with f := incFlags s m } ∧
          ExecutesStore .decInd [0x35] 3 s s.hl (m - 1) { s with f := decFlags s m })

/-- O23 (R210 to R213). DAA, CPL, SCF, CCF. -/
def Obligations.AdjustAccumulator : Prop :=
  ∀ s : State,
    Executes .daa [0x27] 1 s (afterDaa s) ∧
      Executes .cpl [0x2F] 1 s
        { s with a := ~~~s.a, f := flagsByte (s.f.getLsbD 7) true true (s.f.getLsbD 4) } ∧
      Executes .scf [0x37] 1 s { s with f := flagsByte (s.f.getLsbD 7) false false true } ∧
      Executes .ccf [0x3F] 1 s { s with f := flagsByte (s.f.getLsbD 7) false false (!s.f.getLsbD 4) }

/-- O24 (R210). DAA does what it is for: after adding (subtracting) two BCD bytes with the carry it leaves the BCD sum
(difference) modulo 100 in A, and its decimal carry (borrow) in C. -/
def Obligations.DaaIsDecimal : Prop :=
  ∀ (s : State) (x y : Nat), x < 100 → y < 100 → s.a = bcd x →
    let c := carryNat (s.f.getLsbD 4)
    (∃ t u, exec (.adcN (bcd y)) s = .next t ∧ exec .daa t = .next u ∧ u.a = bcd ((x + y + c) % 100) ∧
      (u.f.getLsbD 4 = true ↔ 100 ≤ x + y + c)) ∧
      ∃ t u, exec (.sbcN (bcd y)) s = .next t ∧ exec .daa t = .next u ∧ u.a = bcd ((x + 200 - y - c) % 100) ∧
        (u.f.getLsbD 4 = true ↔ x < y + c)

/-! ## 16-bit arithmetic -/

/-- O25 (R230 to R233). `ADD HL,rr` (Z kept), `INC rr`, `DEC rr` (no flag), `ADD SP,e`. -/
def Obligations.WordArithmetic : Prop :=
  ∀ (s : State) (rr : Reg16) (e : Byte),
    let v := s.getR16 rr
    Executes (.addHlRr rr) [byteOf (0x09 + 16 * rr.code)] 2 s
        { s with
          h := hiByte (s.hl + v)
          l := loByte (s.hl + v)
          f := flagsByte (s.f.getLsbD 7) false (decide (0x1000 ≤ s.hl.toNat % 0x1000 + v.toNat % 0x1000))
            (decide (0x10000 ≤ s.hl.toNat + v.toNat)) } ∧
      Executes (.incRr rr) [byteOf (0x03 + 16 * rr.code)] 2 s (s.setR16 rr (v + 1)) ∧
      Executes (.decRr rr) [byteOf (0x0B + 16 * rr.code)] 2 s (s.setR16 rr (v - 1)) ∧
      Executes (.addSpE e) [0xE8, e] 4 s { s with sp := plusSigned s.sp e, f := spOffsetFlags s.sp e }

/-! ## Rotates, shifts and bits -/

/-- O26 (R240 to R243). RLCA, RRCA, RLA, RRA: rotations of A, and of A with the carry as one 9-bit register; Z is 0. -/
def Obligations.RotateAccumulator : Prop :=
  ∀ s : State,
    let c := s.f.getLsbD 4
    let left := (withCarry c s.a).rotateLeft 1
    let right := (withCarry c s.a).rotateRight 1
    Executes .rlca [0x07] 1 s { s with a := s.a.rotateLeft 1, f := flagsByte false false false (s.a.getLsbD 7) } ∧
      Executes .rrca [0x0F] 1 s { s with a := s.a.rotateRight 1, f := flagsByte false false false (s.a.getLsbD 0) } ∧
      Executes .rla [0x17] 1 s { s with a := left.setWidth 8, f := flagsByte false false false (left.getLsbD 8) } ∧
      Executes .rra [0x1F] 1 s { s with a := right.setWidth 8, f := flagsByte false false false (right.getLsbD 8) }

/-- O27 (R245, R247, R249, R251, R253, R255, R257, R259). The CB rotates, shifts and swap of a register: RLC and RRC rotate
the byte, RL and RR the byte and the carry; SLA doubles, SRA halves a two's-complement byte towards minus infinity, SRL
halves an unsigned one, each with the bit shifted out in C; SWAP exchanges the nibbles and clears C. -/
def Obligations.ShiftRegister : Prop :=
  ∀ (s : State) (r : Reg8),
    let v := s.getR8 r
    let left := (withCarry (s.f.getLsbD 4) v).rotateLeft 1
    let right := (withCarry (s.f.getLsbD 4) v).rotateRight 1
    Executes (.rlcR r) [0xCB, byteOf (0x00 + r.code)] 2 s (afterShift s r (v.rotateLeft 1) (v.getLsbD 7)) ∧
      Executes (.rrcR r) [0xCB, byteOf (0x08 + r.code)] 2 s (afterShift s r (v.rotateRight 1) (v.getLsbD 0)) ∧
      Executes (.rlR r) [0xCB, byteOf (0x10 + r.code)] 2 s (afterShift s r (left.setWidth 8) (left.getLsbD 8)) ∧
      Executes (.rrR r) [0xCB, byteOf (0x18 + r.code)] 2 s (afterShift s r (right.setWidth 8) (right.getLsbD 8)) ∧
      Executes (.slaR r) [0xCB, byteOf (0x20 + r.code)] 2 s
        (afterShift s r (BitVec.ofNat 8 (2 * v.toNat)) (decide (128 ≤ v.toNat))) ∧
      Executes (.sraR r) [0xCB, byteOf (0x28 + r.code)] 2 s
        (afterShift s r (BitVec.ofInt 8 (v.toInt / 2)) (decide (v.toNat % 2 = 1))) ∧
      Executes (.swapR r) [0xCB, byteOf (0x30 + r.code)] 2 s
        (afterShift s r (BitVec.ofNat 8 (16 * (v.toNat % 16) + v.toNat / 16)) false) ∧
      Executes (.srlR r) [0xCB, byteOf (0x38 + r.code)] 2 s
        (afterShift s r (BitVec.ofNat 8 (v.toNat / 2)) (decide (v.toNat % 2 = 1)))

/-- O28 (R246, R248, R250, R252, R254, R256, R258, R260). The same eight on the byte at HL: the flags come from the value
computed, whatever the region keeps. -/
def Obligations.ShiftMemory : Prop :=
  ∀ s : State, CanStore s s.hl →
    let v := s.read s.hl
    let left := (withCarry (s.f.getLsbD 4) v).rotateLeft 1
    let right := (withCarry (s.f.getLsbD 4) v).rotateRight 1
    let rmw := fun (i : Instr) (op2 w : Byte) (c : Bool) =>
      ExecutesStore i [0xCB, op2] 4 s s.hl w { s with f := shiftFlags w c }
    rmw .rlcInd 0x06 (v.rotateLeft 1) (v.getLsbD 7) ∧ rmw .rrcInd 0x0E (v.rotateRight 1) (v.getLsbD 0) ∧
      rmw .rlInd 0x16 (left.setWidth 8) (left.getLsbD 8) ∧ rmw .rrInd 0x1E (right.setWidth 8) (right.getLsbD 8) ∧
      rmw .slaInd 0x26 (BitVec.ofNat 8 (2 * v.toNat)) (decide (128 ≤ v.toNat)) ∧
      rmw .sraInd 0x2E (BitVec.ofInt 8 (v.toInt / 2)) (decide (v.toNat % 2 = 1)) ∧
      rmw .swapInd 0x36 (BitVec.ofNat 8 (16 * (v.toNat % 16) + v.toNat / 16)) false ∧
      rmw .srlInd 0x3E (BitVec.ofNat 8 (v.toNat / 2)) (decide (v.toNat % 2 = 1))

/-- O29 (R261 to R266). BIT sets Z to the complement of the bit and keeps C; RES and SET change the one bit and no flag; the
`(HL)` forms of RES and SET write whether or not the bit changes. -/
def Obligations.BitOperations : Prop :=
  ∀ (s : State) (b : Nat) (r : Reg8), b < 8 →
    let v := s.getR8 r
    let m := s.read s.hl
    let tested := fun bit : Bool => { s with f := flagsByte (!bit) false true (s.f.getLsbD 4) }
    Executes (.bitBR b r) [0xCB, byteOf (0x40 + 8 * b + r.code)] 2 s (tested (v.getLsbD b)) ∧
      Executes (.bitBInd b) [0xCB, byteOf (0x46 + 8 * b)] 3 s (tested (m.getLsbD b)) ∧
      ∃ res set : Byte → Byte,
        (∀ (x : Byte) (j : Nat), j < 8 → (res x).getLsbD j = (x.getLsbD j && decide (j ≠ b))) ∧
          (∀ (x : Byte) (j : Nat), j < 8 → (set x).getLsbD j = (x.getLsbD j || decide (j = b))) ∧
          Executes (.resBR b r) [0xCB, byteOf (0x80 + 8 * b + r.code)] 2 s (s.setR8 r (res v)) ∧
          Executes (.setBR b r) [0xCB, byteOf (0xC0 + 8 * b + r.code)] 2 s (s.setR8 r (set v)) ∧
          (CanStore s s.hl →
            ExecutesStore (.resBInd b) [0xCB, byteOf (0x86 + 8 * b)] 4 s s.hl (res m) s ∧
              ExecutesStore (.setBInd b) [0xCB, byteOf (0xC6 + 8 * b)] 4 s s.hl (set m) s)

/-- O30 (R108, R244). A lone prefix fetches the second byte, runs the instruction it selects and, where the write of an
`(HL)` form is not the fatal one, completes with that instruction's next state, in 2 M-cycles for a register, 3 for
`BIT b,(HL)`, 4 for the other `(HL)` forms. -/
def Obligations.PrefixRunsSelected : Prop :=
  ∀ s : State,
    let op2 := s.read s.pc
    exec .prefixCb s = exec (decodeCb op2) { s with pc := s.pc + 1 } ∧
      (CanStore s s.hl → ∃ t, exec .prefixCb s = .next t ∧
        t.report.cycles = if op2.toNat % 8 ≠ 6 then 2 else if op2.toNat / 64 = 1 then 3 else 4)

/-! ## Control transfer -/

/-- O31 (R281 to R285). Jumps: PC is already past the instruction; a condition that fails changes nothing and costs one
M-cycle less. -/
def Obligations.Jumps : Prop :=
  ∀ (s : State) (cc : Cond) (nn : Word) (e : Byte),
    Executes (.jpNn nn) [0xC3, loByte nn, hiByte nn] 4 s { s with pc := nn } ∧
      Executes (.jpCcNn cc nn) [byteOf (0xC2 + 8 * cc.code), loByte nn, hiByte nn] (if s.cond cc then 4 else 3) s
        { s with pc := if s.cond cc then nn else s.pc } ∧
      Executes .jpHl [0xE9] 1 s { s with pc := s.h ++ s.l } ∧
      Executes (.jrE e) [0x18, e] 3 s { s with pc := plusSigned s.pc e } ∧
      Executes (.jrCcE cc e) [byteOf (0x20 + 8 * cc.code), e] (if s.cond cc then 3 else 2) s
        { s with pc := if s.cond cc then plusSigned s.pc e else s.pc }

/-- O32 (R286, R287, R291). Calls push the address after the instruction; a CALL whose condition fails changes nothing. -/
def Obligations.Calls : Prop :=
  ∀ (s : State) (cc : Cond) (nn : Word) (t : Nat), t < 8 →
    (CanPush s →
      ExecutesPush (.callNn nn) [0xCD, loByte nn, hiByte nn] 6 s s.pc { s with sp := s.sp - 2, pc := nn } ∧
        (s.cond cc = true →
          ExecutesPush (.callCcNn cc nn) [byteOf (0xC4 + 8 * cc.code), loByte nn, hiByte nn] 6 s s.pc
            { s with sp := s.sp - 2, pc := nn }) ∧
        ExecutesPush (.rstT t) [byteOf (0xC7 + 8 * t)] 4 s s.pc
          { s with sp := s.sp - 2, pc := BitVec.ofNat 16 (t * 8) }) ∧
      (s.cond cc = false →
        Executes (.callCcNn cc nn) [byteOf (0xC4 + 8 * cc.code), loByte nn, hiByte nn] 3 s s)

/-- O33 (R288 to R290). Returns; RETI also sets IME at once and cancels a pending EI. -/
def Obligations.Returns : Prop :=
  ∀ (s : State) (cc : Cond),
    let target : Word := s.read (s.sp + 1) ++ s.read s.sp
    Executes .ret [0xC9] 4 s { s with sp := s.sp + 2, pc := target } ∧
      Executes (.retCc cc) [byteOf (0xC0 + 8 * cc.code)] (if s.cond cc then 5 else 2) s
        (if s.cond cc then { s with sp := s.sp + 2, pc := target } else s) ∧
      Executes .reti [0xD9] 4 s { s with sp := s.sp + 2, pc := target, ime := true, imePending := false }

/-! ## System instructions -/

/-- O34 (R300, R301, R303, R304). NOP, HALT, DI, EI: HALT only reports that it was HALT, EI acts at once or leaves its effect
pending as the parameter says. -/
def Obligations.SystemInstructions : Prop :=
  ∀ s : State,
    Executes .nop [0x00] 1 s s ∧
      (encode .halt = [0x76] ∧ exec .halt s = .next { s with report := { cycles := 1, enteredHalt := true } }) ∧
      Executes .di [0xF3] 1 s { s with ime := false, imePending := false } ∧
      Executes .ei [0xFB] 1 s (if s.params.eiDelay then { s with imePending := true } else { s with ime := true })

/-- O35 (R302). STOP under either policy: it skips the byte after it, or aborts with its own byte and address. -/
def Obligations.StopPolicies : Prop :=
  ∀ s : State,
    (s.params.stopPolicy = .nop2 → Executes .stop [0x10] 1 s { s with pc := s.pc + 1 }) ∧
      (s.params.stopPolicy = .fault → s.haltState ≠ .halted → s.read s.pc = 0x10 →
        step s = .fault (.unknownOpcode 0x10 s.pc))

/-- O36 (R305). The eleven unassigned bytes abort, with no successor state: the instruction does, and so does the step that
fetches one, with the byte and its address. -/
def Obligations.UnassignedAbort : Prop :=
  (∀ (i : Instr) (s : State), isIllegal i = true → ∃ op, encode i = [op] ∧ exec i s = .fault (.unknownOpcode op s.opcodeAddr)) ∧
    ∀ s : State, s.haltState ≠ .halted →
      s.read s.pc ∈ ([0xD3, 0xDB, 0xDD, 0xE3, 0xE4, 0xEB, 0xEC, 0xED, 0xF4, 0xFC, 0xFD] : List Byte) →
        step s = .fault (.unknownOpcode (s.read s.pc) s.pc)

/-! ## Rules over all instructions -/

/-- O37 (R68, R305, R302, R433). Every instruction that is not an unassigned byte or a STOP that aborts completes, whatever
its operands, unless a store of it is the fatal one. -/
def Obligations.InstructionsComplete : Prop :=
  ∀ (i : Instr) (s : State), isIllegal i = false → i ≠ .prefixCb → (i = .stop → s.params.stopPolicy = .nop2) →
    (∀ a ∈ storeAddresses i s, CanStore s a) → ∃ t, exec i s = .next t

/-- O38 (R68). Under `ECHO_WRITE = fault` an instruction that stores to the mirror aborts with the first such address. -/
def Obligations.EchoWriteAborts : Prop :=
  ∀ (i : Instr) (s : State) (a : Word), s.params.echoWrite = .fault →
    (storeAddresses i s).find? (fun x => decide (0xE000 ≤ x.toNat) && decide (x.toNat ≤ 0xFDFF)) = some a →
      exec i s = .fault (.echoWrite a)

/-- O39 (R78, R82, R84). What an instruction leaves alone in memory: every address that does not show a byte it stores to,
and is not in OAM when it stores to the DMA trigger. -/
def Obligations.MemoryFrame : Prop :=
  ∀ (i : Instr) (s t : State) (x : Word), i ≠ .prefixCb → exec i s = .next t →
    (∀ a ∈ storeAddresses i s, x ≠ a ∧ x ≠ a + 0x2000) →
      ((0xFF46 : Word) ∈ storeAddresses i s → ¬(0xFE00 ≤ x.toNat ∧ x.toNat ≤ 0xFE9F)) →
        memRead t.mem x = memRead s.mem x

/-- O40 (R24, R25, R31, R27). Which instructions touch the flags, SP, IME and the pending EI: no others do; and F's low
nibble is never written. -/
def Obligations.RegisterDiscipline : Prop :=
  ∀ (i : Instr) (s t : State), exec i s = .next t →
    (writesFlags i = false → t.f = s.f) ∧ (writesSp i = false → t.sp = s.sp) ∧
      (writesIme i = false → t.ime = s.ime ∧ t.imePending = s.imePending) ∧ (t.f = s.f ∨ t.f &&& 0x0F#8 = 0)

/-- O41 (R28, R112, R401, R402). Inside an instruction no device advances, `halt_state`, the parameters and the ports keep
their values, 1 to 6 M-cycles are reported, and HALT is reported by HALT only. -/
def Obligations.ExecuteContract : Prop :=
  ∀ (i : Instr) (s t : State), exec i s = .next t →
    t.haltState = s.haltState ∧ t.cyc = s.cyc ∧ t.video = s.video ∧ t.params = s.params ∧ t.serialOut = s.serialOut ∧
      t.pixelsOut = s.pixelsOut ∧ 1 ≤ t.report.cycles ∧ t.report.cycles ≤ 6 ∧ (t.report.enteredHalt = true ↔ i = .halt)

/-! ## The step -/

/-- O42 (R401, R430, R433). How a step can end: never refused; Halted it always goes on; it aborts only at an unassigned
byte, at a STOP under the default policy, or at a mirror write under the setting that makes it fatal. -/
def Obligations.StepOutcomes : Prop :=
  ∀ s : State,
    (s.haltState = .halted → ∃ t, step s = .next t) ∧ (∀ q, step s ≠ .refused q) ∧
      ∀ r, step s = .fault r →
        (∃ op, r = .unknownOpcode op s.pc ∧ s.read s.pc = op ∧
          (isIllegal (fetchInstr s) = true ∨ (fetchInstr s = .stop ∧ s.params.stopPolicy = .fault))) ∨
        ∃ a, r = .echoWrite a ∧ s.params.echoWrite = .fault ∧ 0xE000 ≤ a.toNat ∧ a.toNat ≤ 0xFDFF

/-- O43 (R345, R400 to R404, R407). The time of a step. An M-cycle is one Clock tick, then four dots with the memory that
tick left, their pixels appended to the port, then one reconciliation with the mode from before the dots; `advance(n)` is n
M-cycles. A step plays exactly the M-cycles that its instruction reports, or one when Halted, between 1 and 6; then it makes
the interrupt check, which plays 5 more exactly when IME is set and a request is pending; then come the fold and the serial
probe. It emits at most four pixels for each M-cycle. -/
def Obligations.StepTime : Prop :=
  (∀ s : State, advance 0 s = s) ∧ (∀ (n : Nat) (s : State), advance (n + 1) s = advance n (mCycle s)) ∧
    (∀ s : State,
      let c := clockTick s
      let r := runDots s.params (fun _ => c.mem) 4 c.video
      mCycle s =
        { c with
          video := r.1
          pixelsOut := c.pixelsOut ++ r.2
          mem := reconcile (ppuTag s.video.mode) r.1.mode c.mem }) ∧
    ∀ s t : State, s.cyc < 2 ^ s.params.clkWidth → step s = .next t →
      ∃ u : State,
        (s.haltState = .halted → u = idleCycle (openStep s) ∧ u.report.cycles = 1) ∧
          (s.haltState ≠ .halted → ∃ v,
            exec (fetchInstr s) ((openStep s).afterFetch (fetchInstr s).length) = .next v ∧ u = settleIme (armed s) v ∧
              u.report.cycles = v.report.cycles) ∧
          1 ≤ u.report.cycles ∧ u.report.cycles ≤ 6 ∧
          let n := u.report.cycles
          let c := advance n u
          let q := memRead c.mem 0xFF0F &&& memRead c.mem 0xFFFF &&& 0x1F#8
          let k := if c.ime = true ∧ q ≠ 0 then 5 else 0
          t = clearReport (serialProbe (applyFold c u.report.enteredHalt (serviceInterrupts c))) ∧
            t.cyc = (s.cyc + n + k) % 2 ^ s.params.clkWidth ∧ t.pixelsOut.length ≤ 4 * (n + k)

/-- O44 (R424 to R427). The interrupt check: with IME clear or nothing pending, nothing happens; else the least pending
source is taken: IME cleared, PC pushed high byte first, its request bit cleared in IF as it stands after the push, PC at
its vector, every other register kept, and 5 M-cycles played. That the check goes on under `ECHO_WRITE = fault` with a stack
in the mirror, where the pushed byte is dropped, is the model's reading of R430 and R438 against R68 (log 6). -/
def Obligations.InterruptCheck : Prop :=
  ∀ s : State,
    let q := memRead s.mem 0xFF0F &&& memRead s.mem 0xFFFF &&& 0x1F#8
    (s.ime = false ∨ q = 0 → serviceInterrupts s = s) ∧
      (s.ime = true → q ≠ 0 → ∃ i m1 m2, i < 5 ∧ q.getLsbD i = true ∧ (∀ j, j < i → q.getLsbD j = false) ∧
        WrotePush s.mem s.sp s.pc m1 ∧ WroteByte m1 0xFF0F (memRead m1 0xFF0F &&& ~~~(1#8 <<< i)) m2 ∧
        serviceInterrupts s =
          advance 5
            { s with ime := false, mem := m2, sp := s.sp - 2, pc := BitVec.ofNat 16 (0x0040 + 8 * i) })

/-- O45 (R101, R301, R405, R429). How the HALT state moves. A HALT, fetched in Running or in HaltBug: with no request pending
after its cycle the Cpu is Halted after it; with one pending and IME set it is Running at the handler of the least pending
source with IME cleared; with one pending and IME clear it is in HaltBug. PC stands after the HALT, and in HaltBug stays on
it. Any instruction: the table of R405, from what stands pending and from IME at the interrupt check: after an instruction
that is not HALT a pending request gives Running, from HaltBug too, and without one the HALT state stays what it was. -/
def Obligations.HaltOutcomes : Prop :=
  (∀ s : State, s.haltState ≠ .halted → s.read s.pc = 0x76 →
    let after : Word := if s.haltState = .haltBug then s.pc else s.pc + 1
    let c := advance 1 (settleIme (armed s)
      { openStep s with pc := after, report := { cycles := 1, enteredHalt := true } })
    let q := memRead c.mem 0xFF0F &&& memRead c.mem 0xFFFF &&& 0x1F#8
    ∃ t, step s = .next t ∧ (q = 0 → t.haltState = .halted ∧ t.pc = after) ∧
      (q ≠ 0 → c.ime = true → t.haltState = .running ∧ t.ime = false ∧ t.sp = s.sp - 2 ∧
        ∃ i, i < 5 ∧ q.getLsbD i = true ∧ (∀ j, j < i → q.getLsbD j = false) ∧
          t.pc = BitVec.ofNat 16 (0x0040 + 8 * i)) ∧
      (q ≠ 0 → c.ime = false → t.haltState = .haltBug ∧ t.ime = false ∧ t.pc = after)) ∧
    ∀ s u : State, s.haltState ≠ .halted →
      exec (fetchInstr s) ((openStep s).afterFetch (fetchInstr s).length) = .next u →
        let c := advance u.report.cycles (settleIme (armed s) u)
        let q := memRead c.mem 0xFF0F &&& memRead c.mem 0xFFFF &&& 0x1F#8
        ∃ t, step s = .next t ∧
          (fetchInstr s = .halt →
            (q ≠ 0 → c.ime = false → t.haltState = .haltBug) ∧ (q ≠ 0 → c.ime = true → t.haltState = .running) ∧
              (q = 0 → t.haltState = .halted)) ∧
          (fetchInstr s ≠ .halt → (q ≠ 0 → t.haltState = .running) ∧ (q = 0 → t.haltState = s.haltState))

/-- O46 (R401, R405, R429). A Halted step fetches nothing and changes no register; with no request pending after its one
cycle it stays Halted; with one pending it wakes whatever IME is, and IME decides whether it also goes to the handler of the
least pending source. -/
def Obligations.HaltedStep : Prop :=
  ∀ s : State, s.haltState = .halted →
    let c := mCycle (openStep s)
    let q := memRead c.mem 0xFF0F &&& memRead c.mem 0xFFFF &&& 0x1F#8
    ∃ t, step s = .next t ∧ (∀ r, t.getR8 r = s.getR8 r) ∧ t.f = s.f ∧ t.imePending = s.imePending ∧
      (q = 0 → t.haltState = .halted ∧ t.ime = s.ime ∧ t.pc = s.pc ∧ t.sp = s.sp) ∧
      (q ≠ 0 → s.ime = false → t.haltState = .running ∧ t.ime = false ∧ t.pc = s.pc ∧ t.sp = s.sp) ∧
      (q ≠ 0 → s.ime = true → t.haltState = .running ∧ t.ime = false ∧ t.sp = s.sp - 2 ∧
        ∃ i, i < 5 ∧ q.getLsbD i = true ∧ (∀ j, j < i → q.getLsbD j = false) ∧
          t.pc = BitVec.ofNat 16 (0x0040 + 8 * i))

/-- O47 (R29, R112, R303, R304, R424). The delay of EI: after the step of an instruction that was run with an EI pending none is
pending; an EI is pending after an instruction's step only if the instruction was that EI; an EI run with IME clear and none
pending ends its step with IME still clear. And it takes effect: an instruction other than DI that was run with an EI pending
leaves IME set in the state that its cycles and its step's interrupt check see, so that IME is set after the step unless the
check dispatches, which it does if a request is pending; a DI leaves IME clear there and after the step. That an EI run with
IME already set is left pending too, even when its own step dispatches, is the model's reading (log 16): R304's Operation,
R112 and R424 against R304's remark that EI changes nothing observable if IME is already 1. -/
def Obligations.EiDelay : Prop :=
  ∀ s t : State, s.params.eiDelay = true → s.haltState ≠ .halted → step s = .next t →
    (s.imePending = true → t.imePending = false) ∧
      (s.imePending = false → (t.imePending = true ↔ fetchInstr s = .ei)) ∧
      (s.imePending = false → s.ime = false → fetchInstr s = .ei → t.ime = false) ∧
      (s.imePending = true → ∃ u,
        exec (fetchInstr s) ((openStep s).afterFetch (fetchInstr s).length) = .next u ∧
          (fetchInstr s ≠ .di →
            let c := advance u.report.cycles { u with ime := true, imePending := false }
            let q := memRead c.mem 0xFF0F &&& memRead c.mem 0xFFFF &&& 0x1F#8
            c.ime = true ∧ t = clearReport (serialProbe (applyFold c u.report.enteredHalt (serviceInterrupts c))) ∧
              (q = 0 → t.ime = true) ∧
              (q ≠ 0 → t.ime = false ∧ t.sp = u.sp - 2 ∧
                ∃ i, i < 5 ∧ q.getLsbD i = true ∧ (∀ j, j < i → q.getLsbD j = false) ∧
                  t.pc = BitVec.ofNat 16 (0x0040 + 8 * i))) ∧
          (fetchInstr s = .di →
            let c := advance u.report.cycles u
            c.ime = false ∧ c.imePending = false ∧
              t = clearReport (serialProbe (applyFold c u.report.enteredHalt (serviceInterrupts c))) ∧ t.ime = false))

/-- O48 (R64, R408). No step changes what any address of ROM reads. -/
def Obligations.RomNeverChanges : Prop :=
  ∀ s t : State, step s = .next t → SameRom s.mem t.mem

/-- O49 (R406). The serial probe: with SC bit 7 set it emits SB, clears the bit and, if the parameter says so, requests the
Serial interrupt; otherwise it emits nothing and changes nothing; no other address ever changes. -/
def Obligations.SerialProbe : Prop :=
  ∀ s : State,
    let sc := memRead s.mem 0xFF02
    let t := serialProbe s
    (sc.getLsbD 7 = false → t = { s with serialOut := none }) ∧
      (sc.getLsbD 7 = true →
        t = { s with serialOut := some (memRead s.mem 0xFF01), mem := t.mem } ∧ memRead t.mem 0xFF02 = sc &&& 0x7F#8 ∧
          memRead t.mem 0xFF0F =
            (if s.params.serialRaisesIrq then memRead s.mem 0xFF0F ||| 0x08#8 else memRead s.mem 0xFF0F) ∧
          ∀ x : Word, x ≠ 0xFF02 → x ≠ 0xFF0F → memRead t.mem x = memRead s.mem x)

/-- O50. The invariant of a run holds at power-on: in `State.reset`, and for every allowed setting of the parameters of R6,
whatever image ROM holds. -/
def Obligations.InvAtReset : Prop := Inv State.reset ∧ ∀ p : PowerOn, p.params.wf → Inv (State.powerOn p)

/-- O51 (R24, R29, R50, R55, R63). Every step from a state that satisfies the invariant, reached by a run or not, ends in one
that does: memory keeps its canonical form, F's low nibble stays zero, the counter stays in its width, no EI is pending
without the delay, and the VideoUnit stays in its ranges. Those ranges are R51's and R52's as the model reads them: `wlc`
may reach 144 once the last line is drawn, where R52 has 0..143 (log 7), and HBlank has at least one dot, which a window
stall above 196 gets from a free value (log 8). -/
def Obligations.StepKeepsInv : Prop := ∀ s t : State, Inv s → step s = .next t → Inv t

/-! ## The Clock -/

/-- O52 (R382, R384). One tick: the counter steps; DIV steps at every 64th count; TIMA, if TAC enables it, steps at every
multiple of the selected period (by default 256, 4, 16, 64 for the selectors 0 to 3), and at 0xFF is reloaded from TMA with
the Timer request raised; nothing else changes. -/
def Obligations.ClockTick : Prop :=
  ∀ s : State,
    let n := (s.cyc + 1) % 2 ^ s.params.clkWidth
    let t := clockTick s
    let tac := memRead s.mem 0xFF07
    let tima := memRead s.mem 0xFF05
    let period := match tacPeriod s.params (tac.toNat % 4) with
      | .cycles4 => 4
      | .cycles16 => 16
      | .cycles64 => 64
      | .cycles256 => 256
    let due := tac.getLsbD 2 = true ∧ n % period = 0
    t = { s with cyc := n, mem := t.mem } ∧
      (s.params = Params.default →
        period = if tac.toNat % 4 = 0 then 256
          else if tac.toNat % 4 = 1 then 4
          else if tac.toNat % 4 = 2 then 16
          else 64) ∧
      memRead t.mem 0xFF04 = (if n % 64 = 0 then memRead s.mem 0xFF04 + 1 else memRead s.mem 0xFF04) ∧
      (¬due → memRead t.mem 0xFF05 = tima ∧ memRead t.mem 0xFF0F = memRead s.mem 0xFF0F) ∧
      (due → tima ≠ 0xFF → memRead t.mem 0xFF05 = tima + 1 ∧ memRead t.mem 0xFF0F = memRead s.mem 0xFF0F) ∧
      (due → tima = 0xFF → memRead t.mem 0xFF05 = memRead s.mem 0xFF06 ∧
        memRead t.mem 0xFF0F = memRead s.mem 0xFF0F ||| 0x04#8) ∧
      ∀ x : Word, x ≠ 0xFF04 → x ≠ 0xFF05 → x ≠ 0xFF0F → memRead t.mem x = memRead s.mem x

/-- O53 (R50). The width of the Clock's counter cannot be observed: two machines that differ in it (8 bits or more) and
whose counters agree modulo 256 step alike and stay so, and abort alike. -/
def Obligations.ClockWidthUnobservable : Prop :=
  ∀ s s' : State, SameButClock s s' →
    (∀ t, step s = .next t → ∃ t', step s' = .next t' ∧ SameButClock t t') ∧
      ∀ r, step s = .fault r → step s' = .fault r

/-! ## The VideoUnit -/

/-- O54 (R51, R325, R326, R330 to R333). The dots of OamScan and of Draw. OamScan counts its dots down and selects on the last one:
at most ten entries, each an entry of OAM that covers the scanline, in strictly rising (x, index) order; an entry that covers
the scanline and is not selected comes after all of ten that are. Draw starts with them and with the start-of-line penalty.
A Draw dot is counted; while a penalty is left it spends one of it and emits nothing; else, where the window covers the column
for the first time on the line and the stall is not 0, it starts the stall, of which it is the first dot, and emits nothing;
else it emits the pixel of its column, composed from memory as it is at this dot. After column 159 comes HBlank, which fills
the line up to 456 dots, and the window-line counter grows exactly if the window was shown on the line. Where R333's count
for HBlank is below one, HBlank has some number of dots that is at least one: the model's choice, a free value bounded as R51
has it (log 8). -/
def Obligations.SpriteSelection : Prop :=
  ∀ (p : Params) (m : Memory) (ly wlc : Nat),
    let lcdc := memRead m 0xFF40
    let height := if lcdc.getLsbD 2 then 16 else 8
    let entry := fun i : Nat =>
      ({ index := i
         y := memRead m (BitVec.ofNat 16 (0xFE00 + 4 * i))
         x := memRead m (BitVec.ofNat 16 (0xFE00 + 4 * i + 1))
         tile := memRead m (BitVec.ofNat 16 (0xFE00 + 4 * i + 2))
         flags := memRead m (BitVec.ofNat 16 (0xFE00 + 4 * i + 3)) } : Sprite)
    let covers := fun s : Sprite => s.y.toNat ≤ ly + 16 ∧ ly + 16 < s.y.toNat + height
    let before := fun s s' : Sprite => s.x.toNat < s'.x.toNat ∨ (s.x = s'.x ∧ s.index < s'.index)
    lcdc.getLsbD 7 = true →
      (∀ n, tickOneDot p m { mode := .oamScan ly (n + 2), wlc := wlc } =
        ({ mode := .oamScan ly (n + 1), wlc := wlc }, none)) ∧
      (∃ sel : List Sprite,
        tickOneDot p m { mode := .oamScan ly 1, wlc := wlc } =
          ({ mode := .draw
               { ly := ly
                 sprites := sel
                 col := 0
                 dots := 0
                 penalty := 12 + (memRead m 0xFF43).toNat % 8
                 windowShown := false }
             wlc := wlc }, none) ∧
        sel.length ≤ 10 ∧ sel.Pairwise before ∧ (∀ s ∈ sel, ∃ i, i < 40 ∧ s = entry i ∧ covers s) ∧
        ∀ i, i < 40 → covers (entry i) → entry i ∉ sel → sel.length = 10 ∧ ∀ s ∈ sel, before s (entry i)) ∧
      ∀ line : DrawLine,
        let dot := tickOneDot p m { mode := .draw line, wlc := wlc }
        let covered := windowCovers m lcdc line.col line.ly
        let shown := line.windowShown || covered
        let pixel : Pixel :=
          { x := line.col, y := line.ly, color := pixelColor m lcdc wlc line.sprites line.col line.ly }
        (0 < line.penalty →
          dot = ({ mode := .draw { line with dots := line.dots + 1, penalty := line.penalty - 1 }, wlc := wlc }, none)) ∧
          (line.penalty = 0 → covered = true → line.windowShown = false → 0 < p.windowStallDots →
            dot =
              ({ mode := .draw
                   { line with dots := line.dots + 1, penalty := p.windowStallDots - 1, windowShown := true }
                 wlc := wlc }, none)) ∧
          (line.penalty = 0 → covered = false ∨ line.windowShown = true ∨ p.windowStallDots = 0 →
            (line.col + 1 ≠ 160 →
              dot =
                ({ mode := .draw { line with dots := line.dots + 1, col := line.col + 1, windowShown := shown }
                   wlc := wlc }, some pixel)) ∧
              (line.col + 1 = 160 → ∃ h, 1 ≤ h ∧ (line.dots + 1 < 376 → h = 456 - 80 - (line.dots + 1)) ∧
                dot =
                  ({ mode := .hBlank line.ly h, wlc := if shown then wlc + 1 else wlc }, some pixel)))

/-- O55 (R323, R324, R325). With the LCD disabled a dot stops the unit from every mode, with no pixel; the first dot with it
enabled again starts scanline 0 with the window-line counter at 0 and is itself the first of its 80 OamScan dots. -/
def Obligations.LcdDisableAndRestart : Prop :=
  ∀ (p : Params) (m : Memory) (v : Video),
    ((memRead m 0xFF40).getLsbD 7 = false → tickOneDot p m v = ({ mode := .stopped, wlc := v.wlc }, none)) ∧
      ((memRead m 0xFF40).getLsbD 7 = true → v.mode = .stopped →
        tickOneDot p m v = ({ mode := .oamScan 0 79, wlc := 0 }, none))

/-- O56 (R321, R322, R346 to R348). The reconciliation after a batch: LY is the scanline, which in VBlank runs from 144 to 153
as its 4560 dots are counted down, and is 0 while Stopped; STAT keeps its upper five bits and
gets the match bit and the mode number; IF only gains bits, bit 1 exactly on an enabled mode change or a newly true enabled
match while not Stopped, bit 0 exactly on the change to VBlank; nothing else changes. -/
def Obligations.Reconciliation : Prop :=
  ∀ (m : Memory) (before : PpuTag) (after : PpuMode),
    let t := reconcile before after m
    let old := memRead m 0xFF41
    let new := memRead t 0xFF41
    let ly := BitVec.ofNat 8 (match after with
      | .stopped => 0
      | .oamScan y _ => y
      | .draw line => line.ly
      | .hBlank y _ => y
      | .vBlank left => 144 + (4560 - left) / 456)
    let hit : Bool := ly = memRead m 0xFF45
    let changed := before ≠ ppuTag after
    let enabled := match ppuTag after with
      | .hBlank => old.getLsbD 3
      | .vBlank => old.getLsbD 4
      | .oamScan => old.getLsbD 5
      | .draw => false
      | .stopped => false
    let stat := ppuTag after ≠ .stopped ∧
      ((changed ∧ enabled = true) ∨ (hit = true ∧ old.getLsbD 2 = false ∧ old.getLsbD 6 = true))
    let vblank := changed ∧ ppuTag after = .vBlank
    memRead t 0xFF44 = ly ∧
      (∀ j, 3 ≤ j → new.getLsbD j = old.getLsbD j) ∧ new.getLsbD 2 = hit ∧
      new.toNat % 4 = (match ppuTag after with
        | .hBlank => 0
        | .vBlank => 1
        | .oamScan => 2
        | .draw => 3
        | .stopped => 0) ∧
      ((memRead t 0xFF0F).getLsbD 0 = true ↔ (memRead m 0xFF0F).getLsbD 0 = true ∨ vblank) ∧
      ((memRead t 0xFF0F).getLsbD 1 = true ↔ (memRead m 0xFF0F).getLsbD 1 = true ∨ stat) ∧
      (∀ j, 2 ≤ j → (memRead t 0xFF0F).getLsbD j = (memRead m 0xFF0F).getLsbD j) ∧
      ∀ x : Word, x ≠ 0xFF44 → x ≠ 0xFF41 → x ≠ 0xFF0F → memRead t x = memRead m x

/-- O57 (R336, R343, R344). Composition: the first selected sprite that covers the column shows if its colour id is not 0 and
it is not behind a background of id 1 to 3; otherwise the background or window shows, White when disabled. A palette maps an
id to the shade in its two bits. -/
def Obligations.PixelComposition : Prop :=
  (∀ (m : Memory) (lcdc : Byte) (wlc : Nat) (sprites : List Sprite) (col ly : Nat),
    let covers := fun s : Sprite => s.x.toNat ≤ col + 8 ∧ col + 8 < s.x.toNat + 8
    let bid := backgroundId m lcdc wlc col ly
    let layer := if lcdc.getLsbD 0 then paletteShade (memRead m 0xFF47) bid else .white
    let color := pixelColor m lcdc wlc sprites col ly
    (lcdc.getLsbD 0 = false → bid = 0) ∧ (lcdc.getLsbD 1 = false ∨ (∀ s ∈ sprites, ¬covers s) → color = layer) ∧
      ∀ (s : Sprite) (pre post : List Sprite), lcdc.getLsbD 1 = true → sprites = pre ++ s :: post → covers s →
        (∀ s' ∈ pre, ¬covers s') →
          let sid := spriteId m lcdc s col ly
          (sid = 0 ∨ (s.flags.getLsbD 7 = true ∧ bid ≠ 0) → color = layer) ∧
            (sid ≠ 0 → (s.flags.getLsbD 7 = false ∨ bid = 0) →
              color = paletteShade (memRead m (if s.flags.getLsbD 4 then 0xFF49 else 0xFF48)) sid)) ∧
    ∀ (pal : Byte) (id : BitVec 2),
      paletteShade pal id =
        match pal.toNat / 4 ^ id.toNat % 4 with
        | 0 => .white
        | 1 => .lightGray
        | 2 => .darkGray
        | _ => .black

/-- O58 (R337 to R342). Where colour ids come from: the window's rectangle, the map and row of background and window, the
two tile-data addressings, the two bit planes with bit 7 leftmost, and a sprite's row, column and tile under its flips and
height. -/
def Obligations.TileFetch : Prop :=
  ∀ (m : Memory) (lcdc : Byte) (wlc col ly : Nat) (s : Sprite),
    let window : Bool := lcdc.getLsbD 0 && lcdc.getLsbD 5 && decide ((memRead m 0xFF4A).toNat ≤ ly) &&
      decide ((memRead m 0xFF4B).toNat ≤ col + 7)
    let pixel := fun (addr : Int) (x : Nat) =>
      2 * ((memRead m (BitVec.ofInt 16 (addr + 1))).toNat / 2 ^ (7 - x) % 2) +
        (memRead m (BitVec.ofInt 16 addr)).toNat / 2 ^ (7 - x) % 2
    let plane := fun (base px py : Nat) =>
      let t := memRead m (BitVec.ofNat 16 (base + 32 * (py / 8) + px / 8))
      let tile : Int := if lcdc.getLsbD 4 then 0x8000 + 16 * (t.toNat : Int) else 0x9000 + 16 * t.toInt
      pixel (tile + 2 * (py % 8 : Nat)) (px % 8)
    let height := if lcdc.getLsbD 2 then 16 else 8
    let row := (ly + 16 - s.y.toNat) % height
    let line := if s.flags.getLsbD 6 then height - 1 - row else row
    let column := col + 8 - s.x.toNat
    let tile := if lcdc.getLsbD 2 then s.tile.toNat / 2 * 2 else s.tile.toNat
    windowCovers m lcdc col ly = window ∧ (lcdc.getLsbD 0 = false → backgroundId m lcdc wlc col ly = 0) ∧
      (lcdc.getLsbD 0 = true → (backgroundId m lcdc wlc col ly).toNat =
        if window then
          plane (if lcdc.getLsbD 6 then 0x9C00 else 0x9800) (col + 7 - (memRead m 0xFF4B).toNat) wlc
        else
          plane (if lcdc.getLsbD 3 then 0x9C00 else 0x9800) ((col + (memRead m 0xFF43).toNat) % 256)
            ((ly + (memRead m 0xFF42).toNat) % 256)) ∧
      (spriteId m lcdc s col ly).toNat =
        pixel (0x8000 + 16 * (tile : Int) + 2 * (line : Int)) (if s.flags.getLsbD 5 then 7 - column else column)

/-- O59 (R333, R349, R350). A scanline is exactly 456 dots, whatever is written to memory while it is drawn, as long as the
LCD stays enabled: from its first OamScan dot it emits its 160 pixels in raster order, and the next dot is the first of the
next scanline or of VBlank. It is said for window stalls that leave HBlank a dot by R333, those up to 196 (log 8). -/
def Obligations.ScanlineIs456Dots : Prop :=
  ∀ (p : Params) (m : Nat → Memory) (ly wlc : Nat), p.windowStallDots ≤ 196 → ly ≤ 143 → LcdOn m 456 →
    let r := runDots p m 456 { mode := .oamScan ly 80, wlc := wlc }
    r.1.mode = (if ly = 143 then .vBlank 4560 else .oamScan (ly + 1) 80) ∧
      r.2.map (fun px => (px.x, px.y)) = rowCoords ly

/-- O60 (R334, R335, R349, R350). A frame is 70,224 dots, whatever is written to memory meanwhile, as long as the LCD stays
enabled: it emits 160 * 144 pixels in raster order and ends where it began, the window-line counter at 0. It is said for
window stalls that leave HBlank a dot by R333, those up to 196 (log 8). -/
def Obligations.FrameIs70224Dots : Prop :=
  ∀ (p : Params) (m : Nat → Memory) (wlc : Nat), p.windowStallDots ≤ 196 → LcdOn m 70224 →
    let r := runDots p m 70224 { mode := .oamScan 0 80, wlc := wlc }
    r.1 = { mode := .oamScan 0 80, wlc := 0 } ∧
      r.2.map (fun px => (px.x, px.y)) = (List.range 144).flatMap rowCoords

end
end

