-- ==== Sys2Proof/Laws/Memory.lean ====
section
/-! SUPPORT. Laws of the storage and of the bus: read after write, frames, the canonical form, and what one bus write leaves
at every address. -/

namespace Sys2Proof.Machine

/-! ## Cells -/

theorem lookupCell_insertCell_same (a : Nat) (v : Byte) :
    ∀ m : Memory, lookupCell m a = none → lookupCell (Memory.insertCell a v m) a = some v
  | [], _ => by simp [Memory.insertCell, lookupCell]
  | (k, w) :: rest, h => by
    by_cases hk : a = k
    · simp [lookupCell, hk] at h
    · have h' : lookupCell rest a = none := by simpa [lookupCell, hk] using h
      by_cases hlt : a < k
      · simp [Memory.insertCell, hlt, lookupCell]
      · simp [Memory.insertCell, hlt, lookupCell, hk, lookupCell_insertCell_same a v rest h']

theorem lookupCell_insertCell_ne {a b : Nat} (v : Byte) (hab : b ≠ a) :
    ∀ m : Memory, lookupCell (Memory.insertCell a v m) b = lookupCell m b
  | [] => by simp [Memory.insertCell, lookupCell, hab]
  | (k, w) :: rest => by
    by_cases hlt : a < k
    · simp [Memory.insertCell, hlt, lookupCell, hab]
    · simp [Memory.insertCell, hlt, lookupCell, lookupCell_insertCell_ne v hab rest]

theorem erase_cons (k : Nat) (w : Byte) (rest : Memory) (a : Nat) :
    Memory.erase ((k, w) :: rest) a = if k = a then Memory.erase rest a else (k, w) :: Memory.erase rest a := by
  by_cases h : k = a <;> simp [Memory.erase, h]

theorem lookupCell_erase_same (a : Nat) : ∀ m : Memory, lookupCell (Memory.erase m a) a = none
  | [] => rfl
  | (k, w) :: rest => by
    by_cases h : k = a
    · simp [erase_cons, h, lookupCell_erase_same a rest]
    · simp [erase_cons, h, lookupCell, Ne.symm h, lookupCell_erase_same a rest]

theorem lookupCell_erase_ne {a b : Nat} (hab : b ≠ a) :
    ∀ m : Memory, lookupCell (Memory.erase m a) b = lookupCell m b
  | [] => rfl
  | (k, w) :: rest => by
    by_cases h : k = a
    · have hbk : b ≠ k := fun hb => hab (hb.trans h)
      simp [erase_cons, h, lookupCell, hab, lookupCell_erase_ne hab rest]
    · simp [erase_cons, h, lookupCell, lookupCell_erase_ne hab rest]

/-! ## Storage -/

/-- A byte stored is the byte read. -/
@[simp] theorem Memory.get_put_same (m : Memory) (a : Nat) (v : Byte) : (m.put a v).get a = v := by
  unfold Memory.put Memory.get
  by_cases hv : v = resetByte a
  · simp [hv, lookupCell_erase_same]
  · simp [hv, lookupCell_insertCell_same a v _ (lookupCell_erase_same a m)]

/-- Storing a byte leaves every other address alone. -/
theorem Memory.get_put_ne (m : Memory) {a b : Nat} (v : Byte) (hab : b ≠ a) : (m.put a v).get b = m.get b := by
  unfold Memory.put Memory.get
  by_cases hv : v = resetByte a
  · simp [hv, lookupCell_erase_ne hab]
  · simp [hv, lookupCell_insertCell_ne v hab, lookupCell_erase_ne hab]

/-- Storing, at any address. -/
theorem Memory.get_put (m : Memory) (a b : Nat) (v : Byte) :
    (m.put a v).get b = if b = a then v else m.get b := by
  by_cases h : b = a
  · simp [h]
  · simp [h, Memory.get_put_ne m v h]

/-! ## The canonical form -/

theorem Memory.wf_nil : Memory.wf [] := by simp [Memory.wf]

/-- Power-on memory has the canonical form. -/
theorem reset_mem_wf : Memory.wf State.reset.mem := Memory.wf_nil

theorem Memory.wf_cons {c : Host.Cell} {m : Memory} :
    Memory.wf (c :: m) ↔
      (∀ c' ∈ m, c.1 < c'.1) ∧ (c.1 < 0x10000 ∧ (regionOf c.1).hasStorage = true ∧ c.2 ≠ resetByte c.1) ∧
        Memory.wf m := by
  simp only [Memory.wf, List.pairwise_cons, List.mem_cons, forall_eq_or_imp]
  tauto

theorem Memory.erase_wf {m : Memory} (h : m.wf) (a : Nat) : (m.erase a).wf :=
  ⟨h.1.filter _, fun c hc => h.2 c (List.mem_filter.1 hc).1⟩

theorem mem_insertCell {a : Nat} {v : Byte} {c : Host.Cell} :
    ∀ {m : Memory}, c ∈ Memory.insertCell a v m → c = (a, v) ∨ c ∈ m
  | [], h => by simpa [Memory.insertCell] using h
  | (k, w) :: rest, h => by
    by_cases hlt : a < k
    · simpa [Memory.insertCell, hlt] using h
    · rcases List.mem_cons.1 (by simpa [Memory.insertCell, hlt] using h) with h | h
      · exact .inr (by simp [h])
      · rcases mem_insertCell h with h | h
        · exact .inl h
        · exact .inr (List.mem_cons_of_mem _ h)

theorem Memory.insertCell_wf {a : Nat} {v : Byte} (ha : a < 0x10000) (hs : (regionOf a).hasStorage = true)
    (hv : v ≠ resetByte a) : ∀ {m : Memory}, m.wf → (∀ c ∈ m, c.1 ≠ a) → (Memory.insertCell a v m).wf
  | [], _, _ => by simp [Memory.insertCell, Memory.wf, ha, hs, hv]
  | (k, w) :: rest, h, hne => by
    obtain ⟨hk, hc, hrest⟩ := Memory.wf_cons.1 h
    have hak : k ≠ a := hne (k, w) (by simp)
    by_cases hlt : a < k
    · simp only [Memory.insertCell, hlt, if_true]
      refine Memory.wf_cons.2 ⟨?_, ⟨ha, hs, hv⟩, h⟩
      intro c' hc'
      rcases List.mem_cons.1 hc' with rfl | hc'
      · exact hlt
      · exact lt_trans hlt (hk c' hc')
    · simp only [Memory.insertCell, hlt, if_false]
      refine Memory.wf_cons.2 ⟨?_, hc, ?_⟩
      · intro c' hc'
        rcases mem_insertCell hc' with rfl | hc'
        · simp only; omega
        · exact hk c' hc'
      · exact Memory.insertCell_wf ha hs hv hrest fun c hc => hne c (List.mem_cons_of_mem _ hc)

/-- Storing a byte at an address of storage keeps the canonical form. -/
theorem Memory.put_wf {m : Memory} (h : m.wf) {a : Nat} (ha : a < 0x10000) (hs : (regionOf a).hasStorage = true)
    (v : Byte) : (m.put a v).wf := by
  unfold Memory.put
  split
  · exact Memory.erase_wf h a
  · next hv =>
    refine Memory.insertCell_wf ha hs hv (Memory.erase_wf h a) ?_
    intro c hc
    simpa using (List.mem_filter.1 hc).2

theorem lookupCell_eq_none_of_lt {a : Nat} :
    ∀ {m : Memory}, (∀ c ∈ m, a < c.1) → lookupCell m a = none
  | [], _ => rfl
  | (k, w) :: rest, h => by
    have hk : a < k := h (k, w) (by simp)
    have : a ≠ k := by omega
    simp [lookupCell, this, lookupCell_eq_none_of_lt fun c hc => h c (List.mem_cons_of_mem _ hc)]

/-- The first cell of a canonical memory is where it first differs from the power-on contents. -/
theorem Memory.get_cons_self (k : Nat) (w : Byte) (m : Memory) : Memory.get ((k, w) :: m) k = w := by
  simp [Memory.get, lookupCell]

theorem Memory.get_cons_ne {k a : Nat} (h : a ≠ k) (w : Byte) (m : Memory) :
    Memory.get ((k, w) :: m) a = Memory.get m a := by
  simp [Memory.get, lookupCell, h]

theorem Memory.get_of_lt {m : Memory} {a : Nat} (h : ∀ c ∈ m, a < c.1) : m.get a = resetByte a := by
  simp [Memory.get, lookupCell_eq_none_of_lt h]

/-! ## The address map -/

theorem toNat_lt_65536 (x : Word) : x.toNat < 0x10000 := x.isLt

theorem regionOf_rom {a : Nat} : regionOf a = .rom ↔ a ≤ 0x7FFF := by
  unfold regionOf
  repeat' split
  all_goals simp_all

theorem regionOf_echo {a : Nat} : regionOf a = .echo ↔ 0xE000 ≤ a ∧ a ≤ 0xFDFF := by
  unfold regionOf
  repeat' split
  all_goals first | (simp_all; done) | (simp_all; omega)

theorem regionOf_oam {a : Nat} : regionOf a = .oam ↔ 0xFE00 ≤ a ∧ a ≤ 0xFE9F := by
  unfold regionOf
  repeat' split
  all_goals first | (simp_all; done) | (simp_all; omega)

theorem regionOf_gap {a : Nat} : regionOf a = .gap ↔ 0xFEA0 ≤ a ∧ a ≤ 0xFEFF := by
  unfold regionOf
  repeat' split
  all_goals first | (simp_all; done) | (simp_all; omega)

theorem regionOf_wram {a : Nat} : regionOf a = .wram ↔ 0xC000 ≤ a ∧ a ≤ 0xDFFF := by
  unfold regionOf
  repeat' split
  all_goals first | (simp_all; done) | (simp_all; omega)

theorem regionOf_io {a : Nat} : regionOf a = .io ↔ 0xFF00 ≤ a ∧ a ≤ 0xFF7F := by
  unfold regionOf
  repeat' split
  all_goals first | (simp_all; done) | (simp_all; omega)

theorem regionOf_ie {a : Nat} : regionOf a = .ie ↔ 0xFFFF ≤ a := by
  unfold regionOf
  repeat' split
  all_goals first | (simp_all; done) | (simp_all; omega)

/-- Which addresses have storage. -/
theorem hasStorage_iff {a : Nat} :
    (regionOf a).hasStorage = true ↔ ¬(0xE000 ≤ a ∧ a ≤ 0xFDFF) ∧ ¬(0xFEA0 ≤ a ∧ a ≤ 0xFEFF) := by
  rw [← regionOf_echo, ← regionOf_gap]
  cases regionOf a <;> simp [Region.hasStorage]

/-- Which addresses are writable. -/
theorem writable_iff {a : Nat} :
    (regionOf a).writable = true ↔ 0x8000 ≤ a ∧ ¬(0xE000 ≤ a ∧ a ≤ 0xFDFF) ∧ ¬(0xFEA0 ≤ a ∧ a ≤ 0xFEFF) := by
  have h : (0x8000 ≤ a) ↔ ¬ a ≤ 0x7FFF := by omega
  rw [h, ← regionOf_echo, ← regionOf_gap, ← regionOf_rom]
  cases regionOf a <;> simp [Region.writable]

theorem hasStorage_of_writable {a : Nat} (h : (regionOf a).writable = true) : (regionOf a).hasStorage = true :=
  hasStorage_iff.2 (writable_iff.1 h).2

/-- The storage an address shows: itself, work RAM for the mirror, nothing for the gap. -/
theorem storageAddr_eq_some {x : Word} {k : Nat} :
    storageAddr x = some k ↔
      (0xE000 ≤ x.toNat ∧ x.toNat ≤ 0xFDFF ∧ k + 0x2000 = x.toNat) ∨
        ((regionOf x.toNat).hasStorage = true ∧ k = x.toNat) := by
  have hg := @regionOf_echo x.toNat
  unfold storageAddr
  cases hr : regionOf x.toNat <;> simp [hr, Region.hasStorage] at hg ⊢ <;> omega

theorem storageAddr_hasStorage {x : Word} {k : Nat} (h : storageAddr x = some k) :
    k < 0x10000 ∧ (regionOf k).hasStorage = true := by
  have hx := x.isLt
  rcases storageAddr_eq_some.1 h with ⟨h1, h2, h3⟩ | ⟨h1, rfl⟩
  · exact ⟨by omega, hasStorage_iff.2 ⟨by omega, by omega⟩⟩
  · exact ⟨hx, h1⟩

/-- A bus read is a read of the storage the address shows, and 0xFF in the gap. -/
theorem memRead_eq (m : Memory) (x : Word) :
    memRead m x = match storageAddr x with | some k => m.get k | none => 0xFF := by
  unfold memRead storageAddr
  cases regionOf x.toNat <;> rfl

/-! ## One bus write -/

theorem memRead_writeRegion (m : Memory) (addr : Word) (v : Byte) (x : Word) :
    memRead (writeRegion m addr v) x =
      if (regionOf addr.toNat).writable = true ∧ storageAddr x = some addr.toNat then v else memRead m x := by
  unfold writeRegion
  by_cases hw : (regionOf addr.toNat).writable = true
  · simp only [hw, if_true, true_and, memRead_eq]
    cases hx : storageAddr x with
    | none => simp
    | some k => simp [Memory.get_put]
  · simp [hw]

theorem wordOf_toNat (h l : Byte) : (wordOf h l).toNat = h.toNat * 256 + l.toNat := by
  have hl := l.isLt
  have := Nat.shiftLeft_add_eq_or_of_lt (i := 8) hl h.toNat
  rw [wordOf, BitVec.toNat_append, ← this, Nat.shiftLeft_eq]

/-- The address of byte `i` of the copy's source. -/
theorem dma_source (page : Byte) {i : Nat} (hi : i < 160) :
    (wordOf page 0 + BitVec.ofNat 16 i).toNat = page.toNat * 256 + i := by
  have hp := page.isLt
  have h0 : (0 : Byte).toNat = 0 := rfl
  rw [BitVec.toNat_add, wordOf_toNat, BitVec.toNat_ofNat, h0]
  omega

/-- The address of byte `i` of the copy's destination. -/
theorem dma_dest {i : Nat} (hi : i < 160) : (0xFE00 + BitVec.ofNat 16 i : Word).toNat = 0xFE00 + i := by
  have h0 : (0xFE00 : Word).toNat = 0xFE00 := rfl
  rw [BitVec.toNat_add, BitVec.toNat_ofNat, h0]
  omega

theorem storageAddr_of_oam {x : Word} (h : regionOf x.toNat = .oam) : storageAddr x = some x.toNat := by
  simp [storageAddr, h]

/-- The storage that an address shows is in OAM only if the address is. -/
theorem storageAddr_oam {x : Word} {k : Nat} (h : storageAddr x = some k) (hk : 0xFE00 ≤ k ∧ k ≤ 0xFE9F) :
    k = x.toNat := by
  rcases storageAddr_eq_some.1 h with ⟨h1, h2, h3⟩ | ⟨_, h3⟩
  · omega
  · exact h3

theorem storageAddr_self_of_writable {x : Word} (h : (regionOf x.toNat).writable = true) :
    storageAddr x = some x.toNat := storageAddr_eq_some.2 (.inr ⟨hasStorage_of_writable h, rfl⟩)

theorem loByte_toNat (w : Word) : (loByte w).toNat = w.toNat % 256 := by
  simp [loByte, BitVec.extractLsb'_toNat]

theorem hiByte_toNat (w : Word) : (hiByte w).toNat = w.toNat / 256 := by
  have := w.isLt
  simp [hiByte, BitVec.extractLsb'_toNat, Nat.shiftRight_eq_div_pow]
  omega

/-! ## The OAM DMA copy -/

/-- One byte of the copy: OAM byte `i` becomes what the bus reads at byte `i` of the page. -/
theorem memRead_dmaByte (page : Byte) (m : Memory) {i : Nat} (hi : i < 160) (x : Word) :
    memRead (dmaByte page m i) x =
      if x.toNat = 0xFE00 + i then memRead m (wordOf page 0 + BitVec.ofNat 16 i) else memRead m x := by
  have hd := dma_dest hi
  have hr : regionOf (0xFE00 + i) = .oam := regionOf_oam.2 ⟨by omega, by omega⟩
  rw [dmaByte, memRead_writeRegion, hd, hr]
  by_cases hx : x.toNat = 0xFE00 + i
  · rw [if_pos hx, if_pos ⟨rfl, by rw [storageAddr_of_oam (by rw [hx, hr]), hx]⟩]
  · rw [if_neg hx, if_neg]
    rintro ⟨-, h⟩
    exact hx (storageAddr_oam h ⟨by omega, by omega⟩).symm

/-- The first `k` bytes of the copy: each comes from the page as it was before the copy. -/
theorem memRead_dmaCopy_upTo (page : Byte) (m : Memory) (x : Word) :
    ∀ k, k ≤ 160 → memRead ((List.range k).foldl (dmaByte page) m) x =
      if 0xFE00 ≤ x.toNat ∧ x.toNat < 0xFE00 + k then memRead m (wordOf page (loByte x)) else memRead m x
  | 0, _ => by
    rw [if_neg (by omega)]
    rfl
  | k + 1, hk => by
    have hk' : k < 160 := by omega
    rw [List.range_succ, List.foldl_append, List.foldl_cons, List.foldl_nil, memRead_dmaByte page _ hk',
      memRead_dmaCopy_upTo page m x k (by omega), memRead_dmaCopy_upTo page m _ k (by omega), dma_source page hk']
    have hp := page.isLt
    by_cases hx : x.toNat = 0xFE00 + k
    · have hsrc : wordOf page 0 + BitVec.ofNat 16 k = wordOf page (loByte x) := by
        apply BitVec.eq_of_toNat_eq
        rw [dma_source page hk', wordOf_toNat, loByte_toNat]
        omega
      rw [if_pos hx, if_neg (by omega), hsrc, if_pos (by omega)]
    · rw [if_neg hx]
      by_cases h : 0xFE00 ≤ x.toNat ∧ x.toNat < 0xFE00 + k
      · rw [if_pos h, if_pos (by omega)]
      · rw [if_neg h, if_neg (by omega)]

/-- The copy: the bytes of OAM come from the page, every other address reads as before. -/
theorem memRead_dmaCopy (page : Byte) (m : Memory) (x : Word) :
    memRead (dmaCopy page m) x =
      if regionOf x.toNat = .oam then memRead m (wordOf page (loByte x)) else memRead m x := by
  rw [dmaCopy, memRead_dmaCopy_upTo page m x 160 (le_refl _)]
  have : (0xFE00 ≤ x.toNat ∧ x.toNat < 0xFE00 + 160) ↔ regionOf x.toNat = .oam := by
    rw [regionOf_oam]
    omega
  simp only [this]

theorem storageAddr_eq_dma {x : Word} : storageAddr x = some dmaAddr.toNat ↔ x = dmaAddr := by
  constructor
  · intro h
    apply BitVec.eq_of_toNat_eq
    have hd : dmaAddr.toNat = 0xFF46 := rfl
    rw [hd] at h ⊢
    rcases storageAddr_eq_some.1 h with ⟨_, h2, h3⟩ | ⟨_, h3⟩ <;> omega
  · rintro rfl
    rfl

/-- One bus write, at every address. -/
theorem memRead_memWrite (m : Memory) (addr : Word) (v : Byte) (x : Word) :
    memRead (memWrite m addr v) x = writtenByte m addr v x := by
  unfold memWrite writtenByte
  by_cases ha : addr = dmaAddr
  · subst ha
    have hw : (regionOf dmaAddr.toNat).writable = true := rfl
    rw [if_pos rfl, memRead_dmaCopy]
    simp only [memRead_writeRegion, hw, true_and, storageAddr_eq_dma]
  · simp only [ha, if_false, false_and, memRead_writeRegion]

theorem wroteByte_memWrite (m : Memory) (addr : Word) (v : Byte) : WroteByte m addr v (memWrite m addr v) :=
  memRead_memWrite m addr v

/-- Any bus write but the one that triggers the copy. -/
theorem memRead_memWrite_of_ne {addr : Word} (h : addr ≠ dmaAddr) (m : Memory) (v : Byte) (x : Word) :
    memRead (memWrite m addr v) x =
      if (regionOf addr.toNat).writable = true ∧ storageAddr x = some addr.toNat then v else memRead m x := by
  rw [memRead_memWrite, writtenByte, if_neg (fun hd => h hd.1)]

/-- A writable byte is read back. -/
theorem memRead_memWrite_same {addr : Word} (h : addr ≠ dmaAddr) (hw : (regionOf addr.toNat).writable = true)
    (m : Memory) (v : Byte) : memRead (memWrite m addr v) addr = v := by
  rw [memRead_memWrite_of_ne h, if_pos ⟨hw, storageAddr_self_of_writable hw⟩]

/-- An address above the mirror is shown by itself only. -/
theorem storageAddr_eq_high {x addr : Word} (ha : 0xFE00 ≤ addr.toNat) (hs : (regionOf addr.toNat).hasStorage = true) :
    storageAddr x = some addr.toNat ↔ x = addr := by
  rw [storageAddr_eq_some, ← BitVec.toNat_inj]
  constructor
  · rintro (⟨_, h2, h3⟩ | ⟨_, h3⟩) <;> omega
  · intro h
    rw [h]
    exact .inr ⟨hs, rfl⟩

/-- A bus write to a device register or to IE, but for the DMA trigger: that address changes and no other. -/
theorem memRead_memWrite_high {addr : Word} (h : addr ≠ dmaAddr) (ha : 0xFF00 ≤ addr.toNat) (m : Memory) (v : Byte)
    (x : Word) : memRead (memWrite m addr v) x = if x = addr then v else memRead m x := by
  have hw : (regionOf addr.toNat).writable = true := writable_iff.2 (by omega)
  rw [memRead_memWrite_of_ne h]
  simp only [hw, true_and, storageAddr_eq_high (by omega) (hasStorage_of_writable hw)]

/-! ## The canonical form is kept -/

theorem writeRegion_wf {m : Memory} (h : m.wf) (addr : Word) (v : Byte) : (writeRegion m addr v).wf := by
  unfold writeRegion
  split
  · next hw => exact Memory.put_wf h addr.isLt (hasStorage_of_writable hw) v
  · exact h

theorem dmaCopy_wf {m : Memory} (h : m.wf) (page : Byte) : (dmaCopy page m).wf := by
  unfold dmaCopy
  generalize List.range 160 = is
  induction is generalizing m with
  | nil => exact h
  | cons i is ih => exact ih (writeRegion_wf h _ _)

theorem memWrite_wf {m : Memory} (h : m.wf) (addr : Word) (v : Byte) : (memWrite m addr v).wf := by
  unfold memWrite
  split
  · exact dmaCopy_wf (writeRegion_wf h _ _) _
  · exact writeRegion_wf h _ _

theorem raiseIrq_wf {m : Memory} (h : m.wf) (i : Nat) : (raiseIrq i m).wf := memWrite_wf h _ _

theorem loadBytes_wf : ∀ (bs : List Byte) (a : Word) {m : Memory}, m.wf → (loadBytes bs a m).wf
  | [], _, _, h => h
  | v :: rest, a, m, h => by
    unfold loadBytes
    refine loadBytes_wf rest (a + 1) ?_
    cases hs : storageAddr a with
    | none => exact h
    | some k => exact Memory.put_wf h (storageAddr_hasStorage hs).1 (storageAddr_hasStorage hs).2 v

/-! ## Canonical memories -/

/-- Canonical memories that hold the same bytes are the same data. -/
theorem Memory.ext_get : ∀ {m m' : Memory}, m.wf → m'.wf → (∀ a, m.get a = m'.get a) → m = m'
  | [], [], _, _, _ => rfl
  | [], (k, w) :: m', _, h', hg => by
    have := hg k
    rw [Memory.get_cons_self] at this
    exact absurd this.symm (Memory.wf_cons.1 h').2.1.2.2
  | (k, w) :: m, [], h, _, hg => by
    have := hg k
    rw [Memory.get_cons_self] at this
    exact absurd this (Memory.wf_cons.1 h).2.1.2.2
  | (k, w) :: m, (k', w') :: m', h, h', hg => by
    obtain ⟨hk, hc, hm⟩ := Memory.wf_cons.1 h
    obtain ⟨hk', hc', hm'⟩ := Memory.wf_cons.1 h'
    have hkk : k = k' := by
      rcases lt_trichotomy k k' with hlt | heq | hgt
      · have hg' := hg k
        rw [Memory.get_cons_self, Memory.get_of_lt (fun c hc => ?_)] at hg'
        · exact absurd hg' hc.2.2
        · rcases List.mem_cons.1 hc with rfl | hc
          · exact hlt
          · exact lt_trans hlt (hk' c hc)
      · exact heq
      · have hg' := hg k'
        rw [Memory.get_cons_self, Memory.get_of_lt (fun c hc => ?_)] at hg'
        · exact absurd hg'.symm hc'.2.2
        · rcases List.mem_cons.1 hc with rfl | hc
          · exact hgt
          · exact lt_trans hgt (hk c hc)
    subst hkk
    have hww : w = w' := by simpa [Memory.get_cons_self] using hg k
    subst hww
    have : m = m' := Memory.ext_get hm hm' fun a => by
      by_cases ha : a = k
      · subst ha
        rw [Memory.get_of_lt hk, Memory.get_of_lt hk']
      · simpa [Memory.get_cons_ne ha] using hg a
    rw [this]

/-! ## The power-on state -/

theorem powerOnCell_eq_some {p : PowerOn} {a : Nat} {c : Host.Cell} :
    powerOnCell p a = some c ↔
      (regionOf a).hasStorage = true ∧ powerOnByte p a ≠ resetByte a ∧ c = (a, powerOnByte p a) := by
  by_cases hs : (regionOf a).hasStorage = true <;> by_cases hv : powerOnByte p a = resetByte a <;>
    simp [powerOnCell, hs, hv, eq_comm]

theorem lookupCell_powerOn (p : PowerOn) (a : Nat) :
    ∀ l : List Nat, lookupCell (l.filterMap (powerOnCell p)) a = if a ∈ l then (powerOnCell p a).map Prod.snd else none
  | [] => rfl
  | b :: rest => by
    have ih := lookupCell_powerOn p a rest
    by_cases hab : a = b
    · subst hab
      cases hc : powerOnCell p a with
      | none => simp [hc, ih]
      | some c =>
        obtain ⟨-, -, rfl⟩ := powerOnCell_eq_some.1 hc
        simp [hc, lookupCell]
    · cases hc : powerOnCell p b with
      | none => simp [hc, ih, hab]
      | some c =>
        obtain ⟨-, -, rfl⟩ := powerOnCell_eq_some.1 hc
        simp [hc, lookupCell, ih, hab]

theorem get_powerOn (p : PowerOn) {n a : Nat} (ha : a < n) (hs : (regionOf a).hasStorage = true) :
    Memory.get ((List.range n).filterMap (powerOnCell p)) a = powerOnByte p a := by
  rw [Memory.get, lookupCell_powerOn, if_pos (List.mem_range.2 ha)]
  by_cases hv : powerOnByte p a = resetByte a <;> simp [powerOnCell, hs, hv]

/-- Every byte of storage holds its power-on value. -/
theorem get_powerOnMemory (p : PowerOn) {a : Nat} (ha : a < 0x10000) (hs : (regionOf a).hasStorage = true) :
    (powerOnMemory p).get a = powerOnByte p a := by
  unfold powerOnMemory
  exact get_powerOn p ha hs

/-- What the bus reads at power-on. -/
theorem memRead_powerOnMemory (p : PowerOn) (x : Word) :
    memRead (powerOnMemory p) x = match storageAddr x with | some k => powerOnByte p k | none => 0xFF := by
  rw [memRead_eq]
  cases hx : storageAddr x with
  | none => rfl
  | some k => exact get_powerOnMemory p (storageAddr_hasStorage hx).1 (storageAddr_hasStorage hx).2

theorem powerOn_wf (p : PowerOn) {n : Nat} (hn : n ≤ 0x10000) :
    Memory.wf ((List.range n).filterMap (powerOnCell p)) := by
  refine ⟨?_, fun c hc => ?_⟩
  · rw [List.pairwise_filterMap]
    refine List.pairwise_lt_range.imp fun hlt c hc c' hc' => ?_
    obtain ⟨-, -, rfl⟩ := powerOnCell_eq_some.1 hc
    obtain ⟨-, -, rfl⟩ := powerOnCell_eq_some.1 hc'
    exact hlt
  · obtain ⟨a, ha, hc⟩ := List.mem_filterMap.1 hc
    obtain ⟨hs, hv, rfl⟩ := powerOnCell_eq_some.1 hc
    exact ⟨lt_of_lt_of_le (List.mem_range.1 ha) hn, hs, hv⟩

/-- Memory at power-on has the canonical form. -/
theorem powerOnMemory_wf (p : PowerOn) : (powerOnMemory p).wf := by
  unfold powerOnMemory
  exact powerOn_wf p (Nat.le_refl _)

/-- `State.reset` is the power-on state under the defaults. -/
theorem powerOn_default : State.powerOn defaultPowerOn = State.reset := by
  have h : powerOnMemory defaultPowerOn = [] := by
    unfold powerOnMemory
    exact List.filterMap_eq_nil_iff.2 fun a _ => by simp [powerOnCell, resetByte]
  rw [State.powerOn, h]
  rfl

end Sys2Proof.Machine
end

