-- ==== Sys2Proof/Laws/State.lean ====
section
/-! SUPPORT. What each update of the state leaves in each field: one lemma per field and update for the plain updates, one
lemma per operation (all the fields it leaves alone) for the parts of the step. -/

namespace Sys2Proof.Machine

/-! ### `State.reportCycles` -/

@[simp] theorem State.reportCycles_a (s : State) (n : Nat) : (s.reportCycles n).a = s.a := rfl
@[simp] theorem State.reportCycles_f (s : State) (n : Nat) : (s.reportCycles n).f = s.f := rfl
@[simp] theorem State.reportCycles_b (s : State) (n : Nat) : (s.reportCycles n).b = s.b := rfl
@[simp] theorem State.reportCycles_c (s : State) (n : Nat) : (s.reportCycles n).c = s.c := rfl
@[simp] theorem State.reportCycles_d (s : State) (n : Nat) : (s.reportCycles n).d = s.d := rfl
@[simp] theorem State.reportCycles_e (s : State) (n : Nat) : (s.reportCycles n).e = s.e := rfl
@[simp] theorem State.reportCycles_h (s : State) (n : Nat) : (s.reportCycles n).h = s.h := rfl
@[simp] theorem State.reportCycles_l (s : State) (n : Nat) : (s.reportCycles n).l = s.l := rfl
@[simp] theorem State.reportCycles_sp (s : State) (n : Nat) : (s.reportCycles n).sp = s.sp := rfl
@[simp] theorem State.reportCycles_pc (s : State) (n : Nat) : (s.reportCycles n).pc = s.pc := rfl
@[simp] theorem State.reportCycles_ime (s : State) (n : Nat) : (s.reportCycles n).ime = s.ime := rfl
@[simp] theorem State.reportCycles_imePending (s : State) (n : Nat) : (s.reportCycles n).imePending = s.imePending := rfl
@[simp] theorem State.reportCycles_haltState (s : State) (n : Nat) : (s.reportCycles n).haltState = s.haltState := rfl
@[simp] theorem State.reportCycles_mem (s : State) (n : Nat) : (s.reportCycles n).mem = s.mem := rfl
@[simp] theorem State.reportCycles_cyc (s : State) (n : Nat) : (s.reportCycles n).cyc = s.cyc := rfl
@[simp] theorem State.reportCycles_video (s : State) (n : Nat) : (s.reportCycles n).video = s.video := rfl
@[simp] theorem State.reportCycles_params (s : State) (n : Nat) : (s.reportCycles n).params = s.params := rfl
@[simp] theorem State.reportCycles_report (s : State) (n : Nat) : (s.reportCycles n).report = { cycles := n, enteredHalt := false } := rfl
@[simp] theorem State.reportCycles_serialOut (s : State) (n : Nat) : (s.reportCycles n).serialOut = s.serialOut := rfl
@[simp] theorem State.reportCycles_pixelsOut (s : State) (n : Nat) : (s.reportCycles n).pixelsOut = s.pixelsOut := rfl

/-! ### `State.write` -/

@[simp] theorem State.write_a (s : State) (addr : Word) (v : Byte) : (s.write addr v).a = s.a := rfl
@[simp] theorem State.write_f (s : State) (addr : Word) (v : Byte) : (s.write addr v).f = s.f := rfl
@[simp] theorem State.write_b (s : State) (addr : Word) (v : Byte) : (s.write addr v).b = s.b := rfl
@[simp] theorem State.write_c (s : State) (addr : Word) (v : Byte) : (s.write addr v).c = s.c := rfl
@[simp] theorem State.write_d (s : State) (addr : Word) (v : Byte) : (s.write addr v).d = s.d := rfl
@[simp] theorem State.write_e (s : State) (addr : Word) (v : Byte) : (s.write addr v).e = s.e := rfl
@[simp] theorem State.write_h (s : State) (addr : Word) (v : Byte) : (s.write addr v).h = s.h := rfl
@[simp] theorem State.write_l (s : State) (addr : Word) (v : Byte) : (s.write addr v).l = s.l := rfl
@[simp] theorem State.write_sp (s : State) (addr : Word) (v : Byte) : (s.write addr v).sp = s.sp := rfl
@[simp] theorem State.write_pc (s : State) (addr : Word) (v : Byte) : (s.write addr v).pc = s.pc := rfl
@[simp] theorem State.write_ime (s : State) (addr : Word) (v : Byte) : (s.write addr v).ime = s.ime := rfl
@[simp] theorem State.write_imePending (s : State) (addr : Word) (v : Byte) : (s.write addr v).imePending = s.imePending := rfl
@[simp] theorem State.write_haltState (s : State) (addr : Word) (v : Byte) : (s.write addr v).haltState = s.haltState := rfl
@[simp] theorem State.write_mem (s : State) (addr : Word) (v : Byte) : (s.write addr v).mem = memWrite s.mem addr v := rfl
@[simp] theorem State.write_cyc (s : State) (addr : Word) (v : Byte) : (s.write addr v).cyc = s.cyc := rfl
@[simp] theorem State.write_video (s : State) (addr : Word) (v : Byte) : (s.write addr v).video = s.video := rfl
@[simp] theorem State.write_params (s : State) (addr : Word) (v : Byte) : (s.write addr v).params = s.params := rfl
@[simp] theorem State.write_report (s : State) (addr : Word) (v : Byte) : (s.write addr v).report = s.report := rfl
@[simp] theorem State.write_serialOut (s : State) (addr : Word) (v : Byte) : (s.write addr v).serialOut = s.serialOut := rfl
@[simp] theorem State.write_pixelsOut (s : State) (addr : Word) (v : Byte) : (s.write addr v).pixelsOut = s.pixelsOut := rfl

/-! ### `State.afterFetch` -/

@[simp] theorem State.afterFetch_a (s : State) (len : Nat) : (s.afterFetch len).a = s.a := rfl
@[simp] theorem State.afterFetch_f (s : State) (len : Nat) : (s.afterFetch len).f = s.f := rfl
@[simp] theorem State.afterFetch_b (s : State) (len : Nat) : (s.afterFetch len).b = s.b := rfl
@[simp] theorem State.afterFetch_c (s : State) (len : Nat) : (s.afterFetch len).c = s.c := rfl
@[simp] theorem State.afterFetch_d (s : State) (len : Nat) : (s.afterFetch len).d = s.d := rfl
@[simp] theorem State.afterFetch_e (s : State) (len : Nat) : (s.afterFetch len).e = s.e := rfl
@[simp] theorem State.afterFetch_h (s : State) (len : Nat) : (s.afterFetch len).h = s.h := rfl
@[simp] theorem State.afterFetch_l (s : State) (len : Nat) : (s.afterFetch len).l = s.l := rfl
@[simp] theorem State.afterFetch_sp (s : State) (len : Nat) : (s.afterFetch len).sp = s.sp := rfl
@[simp] theorem State.afterFetch_pc (s : State) (len : Nat) : (s.afterFetch len).pc = s.afterOpcode + BitVec.ofNat 16 (len - 1) := rfl
@[simp] theorem State.afterFetch_ime (s : State) (len : Nat) : (s.afterFetch len).ime = s.ime := rfl
@[simp] theorem State.afterFetch_imePending (s : State) (len : Nat) : (s.afterFetch len).imePending = s.imePending := rfl
@[simp] theorem State.afterFetch_haltState (s : State) (len : Nat) : (s.afterFetch len).haltState = s.haltState := rfl
@[simp] theorem State.afterFetch_mem (s : State) (len : Nat) : (s.afterFetch len).mem = s.mem := rfl
@[simp] theorem State.afterFetch_cyc (s : State) (len : Nat) : (s.afterFetch len).cyc = s.cyc := rfl
@[simp] theorem State.afterFetch_video (s : State) (len : Nat) : (s.afterFetch len).video = s.video := rfl
@[simp] theorem State.afterFetch_params (s : State) (len : Nat) : (s.afterFetch len).params = s.params := rfl
@[simp] theorem State.afterFetch_report (s : State) (len : Nat) : (s.afterFetch len).report = s.report := rfl
@[simp] theorem State.afterFetch_serialOut (s : State) (len : Nat) : (s.afterFetch len).serialOut = s.serialOut := rfl
@[simp] theorem State.afterFetch_pixelsOut (s : State) (len : Nat) : (s.afterFetch len).pixelsOut = s.pixelsOut := rfl

/-! ### `State.setR8` -/

@[simp] theorem State.setR8_f (s : State) (r : Reg8) (v : Byte) : (s.setR8 r v).f = s.f := by cases r <;> rfl
@[simp] theorem State.setR8_sp (s : State) (r : Reg8) (v : Byte) : (s.setR8 r v).sp = s.sp := by cases r <;> rfl
@[simp] theorem State.setR8_pc (s : State) (r : Reg8) (v : Byte) : (s.setR8 r v).pc = s.pc := by cases r <;> rfl
@[simp] theorem State.setR8_ime (s : State) (r : Reg8) (v : Byte) : (s.setR8 r v).ime = s.ime := by cases r <;> rfl
@[simp] theorem State.setR8_imePending (s : State) (r : Reg8) (v : Byte) : (s.setR8 r v).imePending = s.imePending := by cases r <;> rfl
@[simp] theorem State.setR8_haltState (s : State) (r : Reg8) (v : Byte) : (s.setR8 r v).haltState = s.haltState := by cases r <;> rfl
@[simp] theorem State.setR8_mem (s : State) (r : Reg8) (v : Byte) : (s.setR8 r v).mem = s.mem := by cases r <;> rfl
@[simp] theorem State.setR8_cyc (s : State) (r : Reg8) (v : Byte) : (s.setR8 r v).cyc = s.cyc := by cases r <;> rfl
@[simp] theorem State.setR8_video (s : State) (r : Reg8) (v : Byte) : (s.setR8 r v).video = s.video := by cases r <;> rfl
@[simp] theorem State.setR8_params (s : State) (r : Reg8) (v : Byte) : (s.setR8 r v).params = s.params := by cases r <;> rfl
@[simp] theorem State.setR8_report (s : State) (r : Reg8) (v : Byte) : (s.setR8 r v).report = s.report := by cases r <;> rfl
@[simp] theorem State.setR8_serialOut (s : State) (r : Reg8) (v : Byte) : (s.setR8 r v).serialOut = s.serialOut := by cases r <;> rfl
@[simp] theorem State.setR8_pixelsOut (s : State) (r : Reg8) (v : Byte) : (s.setR8 r v).pixelsOut = s.pixelsOut := by cases r <;> rfl

/-! ### `State.setBc` -/

@[simp] theorem State.setBc_a (s : State) (w : Word) : (s.setBc w).a = s.a := rfl
@[simp] theorem State.setBc_f (s : State) (w : Word) : (s.setBc w).f = s.f := rfl
@[simp] theorem State.setBc_b (s : State) (w : Word) : (s.setBc w).b = hiByte w := rfl
@[simp] theorem State.setBc_c (s : State) (w : Word) : (s.setBc w).c = loByte w := rfl
@[simp] theorem State.setBc_d (s : State) (w : Word) : (s.setBc w).d = s.d := rfl
@[simp] theorem State.setBc_e (s : State) (w : Word) : (s.setBc w).e = s.e := rfl
@[simp] theorem State.setBc_h (s : State) (w : Word) : (s.setBc w).h = s.h := rfl
@[simp] theorem State.setBc_l (s : State) (w : Word) : (s.setBc w).l = s.l := rfl
@[simp] theorem State.setBc_sp (s : State) (w : Word) : (s.setBc w).sp = s.sp := rfl
@[simp] theorem State.setBc_pc (s : State) (w : Word) : (s.setBc w).pc = s.pc := rfl
@[simp] theorem State.setBc_ime (s : State) (w : Word) : (s.setBc w).ime = s.ime := rfl
@[simp] theorem State.setBc_imePending (s : State) (w : Word) : (s.setBc w).imePending = s.imePending := rfl
@[simp] theorem State.setBc_haltState (s : State) (w : Word) : (s.setBc w).haltState = s.haltState := rfl
@[simp] theorem State.setBc_mem (s : State) (w : Word) : (s.setBc w).mem = s.mem := rfl
@[simp] theorem State.setBc_cyc (s : State) (w : Word) : (s.setBc w).cyc = s.cyc := rfl
@[simp] theorem State.setBc_video (s : State) (w : Word) : (s.setBc w).video = s.video := rfl
@[simp] theorem State.setBc_params (s : State) (w : Word) : (s.setBc w).params = s.params := rfl
@[simp] theorem State.setBc_report (s : State) (w : Word) : (s.setBc w).report = s.report := rfl
@[simp] theorem State.setBc_serialOut (s : State) (w : Word) : (s.setBc w).serialOut = s.serialOut := rfl
@[simp] theorem State.setBc_pixelsOut (s : State) (w : Word) : (s.setBc w).pixelsOut = s.pixelsOut := rfl

/-! ### `State.setDe` -/

@[simp] theorem State.setDe_a (s : State) (w : Word) : (s.setDe w).a = s.a := rfl
@[simp] theorem State.setDe_f (s : State) (w : Word) : (s.setDe w).f = s.f := rfl
@[simp] theorem State.setDe_b (s : State) (w : Word) : (s.setDe w).b = s.b := rfl
@[simp] theorem State.setDe_c (s : State) (w : Word) : (s.setDe w).c = s.c := rfl
@[simp] theorem State.setDe_d (s : State) (w : Word) : (s.setDe w).d = hiByte w := rfl
@[simp] theorem State.setDe_e (s : State) (w : Word) : (s.setDe w).e = loByte w := rfl
@[simp] theorem State.setDe_h (s : State) (w : Word) : (s.setDe w).h = s.h := rfl
@[simp] theorem State.setDe_l (s : State) (w : Word) : (s.setDe w).l = s.l := rfl
@[simp] theorem State.setDe_sp (s : State) (w : Word) : (s.setDe w).sp = s.sp := rfl
@[simp] theorem State.setDe_pc (s : State) (w : Word) : (s.setDe w).pc = s.pc := rfl
@[simp] theorem State.setDe_ime (s : State) (w : Word) : (s.setDe w).ime = s.ime := rfl
@[simp] theorem State.setDe_imePending (s : State) (w : Word) : (s.setDe w).imePending = s.imePending := rfl
@[simp] theorem State.setDe_haltState (s : State) (w : Word) : (s.setDe w).haltState = s.haltState := rfl
@[simp] theorem State.setDe_mem (s : State) (w : Word) : (s.setDe w).mem = s.mem := rfl
@[simp] theorem State.setDe_cyc (s : State) (w : Word) : (s.setDe w).cyc = s.cyc := rfl
@[simp] theorem State.setDe_video (s : State) (w : Word) : (s.setDe w).video = s.video := rfl
@[simp] theorem State.setDe_params (s : State) (w : Word) : (s.setDe w).params = s.params := rfl
@[simp] theorem State.setDe_report (s : State) (w : Word) : (s.setDe w).report = s.report := rfl
@[simp] theorem State.setDe_serialOut (s : State) (w : Word) : (s.setDe w).serialOut = s.serialOut := rfl
@[simp] theorem State.setDe_pixelsOut (s : State) (w : Word) : (s.setDe w).pixelsOut = s.pixelsOut := rfl

/-! ### `State.setHl` -/

@[simp] theorem State.setHl_a (s : State) (w : Word) : (s.setHl w).a = s.a := rfl
@[simp] theorem State.setHl_f (s : State) (w : Word) : (s.setHl w).f = s.f := rfl
@[simp] theorem State.setHl_b (s : State) (w : Word) : (s.setHl w).b = s.b := rfl
@[simp] theorem State.setHl_c (s : State) (w : Word) : (s.setHl w).c = s.c := rfl
@[simp] theorem State.setHl_d (s : State) (w : Word) : (s.setHl w).d = s.d := rfl
@[simp] theorem State.setHl_e (s : State) (w : Word) : (s.setHl w).e = s.e := rfl
@[simp] theorem State.setHl_h (s : State) (w : Word) : (s.setHl w).h = hiByte w := rfl
@[simp] theorem State.setHl_l (s : State) (w : Word) : (s.setHl w).l = loByte w := rfl
@[simp] theorem State.setHl_sp (s : State) (w : Word) : (s.setHl w).sp = s.sp := rfl
@[simp] theorem State.setHl_pc (s : State) (w : Word) : (s.setHl w).pc = s.pc := rfl
@[simp] theorem State.setHl_ime (s : State) (w : Word) : (s.setHl w).ime = s.ime := rfl
@[simp] theorem State.setHl_imePending (s : State) (w : Word) : (s.setHl w).imePending = s.imePending := rfl
@[simp] theorem State.setHl_haltState (s : State) (w : Word) : (s.setHl w).haltState = s.haltState := rfl
@[simp] theorem State.setHl_mem (s : State) (w : Word) : (s.setHl w).mem = s.mem := rfl
@[simp] theorem State.setHl_cyc (s : State) (w : Word) : (s.setHl w).cyc = s.cyc := rfl
@[simp] theorem State.setHl_video (s : State) (w : Word) : (s.setHl w).video = s.video := rfl
@[simp] theorem State.setHl_params (s : State) (w : Word) : (s.setHl w).params = s.params := rfl
@[simp] theorem State.setHl_report (s : State) (w : Word) : (s.setHl w).report = s.report := rfl
@[simp] theorem State.setHl_serialOut (s : State) (w : Word) : (s.setHl w).serialOut = s.serialOut := rfl
@[simp] theorem State.setHl_pixelsOut (s : State) (w : Word) : (s.setHl w).pixelsOut = s.pixelsOut := rfl

/-! ### `State.setFlags` -/

@[simp] theorem State.setFlags_a (s : State) (z n h c : Bool) : (s.setFlags z n h c).a = s.a := rfl
@[simp] theorem State.setFlags_f (s : State) (z n h c : Bool) : (s.setFlags z n h c).f = flagsByte z n h c := rfl
@[simp] theorem State.setFlags_b (s : State) (z n h c : Bool) : (s.setFlags z n h c).b = s.b := rfl
@[simp] theorem State.setFlags_c (s : State) (z n h c : Bool) : (s.setFlags z n h c).c = s.c := rfl
@[simp] theorem State.setFlags_d (s : State) (z n h c : Bool) : (s.setFlags z n h c).d = s.d := rfl
@[simp] theorem State.setFlags_e (s : State) (z n h c : Bool) : (s.setFlags z n h c).e = s.e := rfl
@[simp] theorem State.setFlags_h (s : State) (z n h c : Bool) : (s.setFlags z n h c).h = s.h := rfl
@[simp] theorem State.setFlags_l (s : State) (z n h c : Bool) : (s.setFlags z n h c).l = s.l := rfl
@[simp] theorem State.setFlags_sp (s : State) (z n h c : Bool) : (s.setFlags z n h c).sp = s.sp := rfl
@[simp] theorem State.setFlags_pc (s : State) (z n h c : Bool) : (s.setFlags z n h c).pc = s.pc := rfl
@[simp] theorem State.setFlags_ime (s : State) (z n h c : Bool) : (s.setFlags z n h c).ime = s.ime := rfl
@[simp] theorem State.setFlags_imePending (s : State) (z n h c : Bool) : (s.setFlags z n h c).imePending = s.imePending := rfl
@[simp] theorem State.setFlags_haltState (s : State) (z n h c : Bool) : (s.setFlags z n h c).haltState = s.haltState := rfl
@[simp] theorem State.setFlags_mem (s : State) (z n h c : Bool) : (s.setFlags z n h c).mem = s.mem := rfl
@[simp] theorem State.setFlags_cyc (s : State) (z n h c : Bool) : (s.setFlags z n h c).cyc = s.cyc := rfl
@[simp] theorem State.setFlags_video (s : State) (z n h c : Bool) : (s.setFlags z n h c).video = s.video := rfl
@[simp] theorem State.setFlags_params (s : State) (z n h c : Bool) : (s.setFlags z n h c).params = s.params := rfl
@[simp] theorem State.setFlags_report (s : State) (z n h c : Bool) : (s.setFlags z n h c).report = s.report := rfl
@[simp] theorem State.setFlags_serialOut (s : State) (z n h c : Bool) : (s.setFlags z n h c).serialOut = s.serialOut := rfl
@[simp] theorem State.setFlags_pixelsOut (s : State) (z n h c : Bool) : (s.setFlags z n h c).pixelsOut = s.pixelsOut := rfl

/-! ### `State.writeF` -/

@[simp] theorem State.writeF_a (s : State) (v : Byte) : (s.writeF v).a = s.a := rfl
@[simp] theorem State.writeF_f (s : State) (v : Byte) : (s.writeF v).f = v &&& 0xF0#8 := rfl
@[simp] theorem State.writeF_b (s : State) (v : Byte) : (s.writeF v).b = s.b := rfl
@[simp] theorem State.writeF_c (s : State) (v : Byte) : (s.writeF v).c = s.c := rfl
@[simp] theorem State.writeF_d (s : State) (v : Byte) : (s.writeF v).d = s.d := rfl
@[simp] theorem State.writeF_e (s : State) (v : Byte) : (s.writeF v).e = s.e := rfl
@[simp] theorem State.writeF_h (s : State) (v : Byte) : (s.writeF v).h = s.h := rfl
@[simp] theorem State.writeF_l (s : State) (v : Byte) : (s.writeF v).l = s.l := rfl
@[simp] theorem State.writeF_sp (s : State) (v : Byte) : (s.writeF v).sp = s.sp := rfl
@[simp] theorem State.writeF_pc (s : State) (v : Byte) : (s.writeF v).pc = s.pc := rfl
@[simp] theorem State.writeF_ime (s : State) (v : Byte) : (s.writeF v).ime = s.ime := rfl
@[simp] theorem State.writeF_imePending (s : State) (v : Byte) : (s.writeF v).imePending = s.imePending := rfl
@[simp] theorem State.writeF_haltState (s : State) (v : Byte) : (s.writeF v).haltState = s.haltState := rfl
@[simp] theorem State.writeF_mem (s : State) (v : Byte) : (s.writeF v).mem = s.mem := rfl
@[simp] theorem State.writeF_cyc (s : State) (v : Byte) : (s.writeF v).cyc = s.cyc := rfl
@[simp] theorem State.writeF_video (s : State) (v : Byte) : (s.writeF v).video = s.video := rfl
@[simp] theorem State.writeF_params (s : State) (v : Byte) : (s.writeF v).params = s.params := rfl
@[simp] theorem State.writeF_report (s : State) (v : Byte) : (s.writeF v).report = s.report := rfl
@[simp] theorem State.writeF_serialOut (s : State) (v : Byte) : (s.writeF v).serialOut = s.serialOut := rfl
@[simp] theorem State.writeF_pixelsOut (s : State) (v : Byte) : (s.writeF v).pixelsOut = s.pixelsOut := rfl

/-! ### `State.setAluFlags` -/

@[simp] theorem State.setAluFlags_a (s : State) (r : Alu) : (s.setAluFlags r).a = s.a := rfl
@[simp] theorem State.setAluFlags_f (s : State) (r : Alu) : (s.setAluFlags r).f = flagsByte r.z r.n r.h r.c := rfl
@[simp] theorem State.setAluFlags_b (s : State) (r : Alu) : (s.setAluFlags r).b = s.b := rfl
@[simp] theorem State.setAluFlags_c (s : State) (r : Alu) : (s.setAluFlags r).c = s.c := rfl
@[simp] theorem State.setAluFlags_d (s : State) (r : Alu) : (s.setAluFlags r).d = s.d := rfl
@[simp] theorem State.setAluFlags_e (s : State) (r : Alu) : (s.setAluFlags r).e = s.e := rfl
@[simp] theorem State.setAluFlags_h (s : State) (r : Alu) : (s.setAluFlags r).h = s.h := rfl
@[simp] theorem State.setAluFlags_l (s : State) (r : Alu) : (s.setAluFlags r).l = s.l := rfl
@[simp] theorem State.setAluFlags_sp (s : State) (r : Alu) : (s.setAluFlags r).sp = s.sp := rfl
@[simp] theorem State.setAluFlags_pc (s : State) (r : Alu) : (s.setAluFlags r).pc = s.pc := rfl
@[simp] theorem State.setAluFlags_ime (s : State) (r : Alu) : (s.setAluFlags r).ime = s.ime := rfl
@[simp] theorem State.setAluFlags_imePending (s : State) (r : Alu) : (s.setAluFlags r).imePending = s.imePending := rfl
@[simp] theorem State.setAluFlags_haltState (s : State) (r : Alu) : (s.setAluFlags r).haltState = s.haltState := rfl
@[simp] theorem State.setAluFlags_mem (s : State) (r : Alu) : (s.setAluFlags r).mem = s.mem := rfl
@[simp] theorem State.setAluFlags_cyc (s : State) (r : Alu) : (s.setAluFlags r).cyc = s.cyc := rfl
@[simp] theorem State.setAluFlags_video (s : State) (r : Alu) : (s.setAluFlags r).video = s.video := rfl
@[simp] theorem State.setAluFlags_params (s : State) (r : Alu) : (s.setAluFlags r).params = s.params := rfl
@[simp] theorem State.setAluFlags_report (s : State) (r : Alu) : (s.setAluFlags r).report = s.report := rfl
@[simp] theorem State.setAluFlags_serialOut (s : State) (r : Alu) : (s.setAluFlags r).serialOut = s.serialOut := rfl
@[simp] theorem State.setAluFlags_pixelsOut (s : State) (r : Alu) : (s.setAluFlags r).pixelsOut = s.pixelsOut := rfl

/-! ### `State.setAlu` -/

@[simp] theorem State.setAlu_a (s : State) (r : Alu) : (s.setAlu r).a = r.val := rfl
@[simp] theorem State.setAlu_f (s : State) (r : Alu) : (s.setAlu r).f = flagsByte r.z r.n r.h r.c := rfl
@[simp] theorem State.setAlu_b (s : State) (r : Alu) : (s.setAlu r).b = s.b := rfl
@[simp] theorem State.setAlu_c (s : State) (r : Alu) : (s.setAlu r).c = s.c := rfl
@[simp] theorem State.setAlu_d (s : State) (r : Alu) : (s.setAlu r).d = s.d := rfl
@[simp] theorem State.setAlu_e (s : State) (r : Alu) : (s.setAlu r).e = s.e := rfl
@[simp] theorem State.setAlu_h (s : State) (r : Alu) : (s.setAlu r).h = s.h := rfl
@[simp] theorem State.setAlu_l (s : State) (r : Alu) : (s.setAlu r).l = s.l := rfl
@[simp] theorem State.setAlu_sp (s : State) (r : Alu) : (s.setAlu r).sp = s.sp := rfl
@[simp] theorem State.setAlu_pc (s : State) (r : Alu) : (s.setAlu r).pc = s.pc := rfl
@[simp] theorem State.setAlu_ime (s : State) (r : Alu) : (s.setAlu r).ime = s.ime := rfl
@[simp] theorem State.setAlu_imePending (s : State) (r : Alu) : (s.setAlu r).imePending = s.imePending := rfl
@[simp] theorem State.setAlu_haltState (s : State) (r : Alu) : (s.setAlu r).haltState = s.haltState := rfl
@[simp] theorem State.setAlu_mem (s : State) (r : Alu) : (s.setAlu r).mem = s.mem := rfl
@[simp] theorem State.setAlu_cyc (s : State) (r : Alu) : (s.setAlu r).cyc = s.cyc := rfl
@[simp] theorem State.setAlu_video (s : State) (r : Alu) : (s.setAlu r).video = s.video := rfl
@[simp] theorem State.setAlu_params (s : State) (r : Alu) : (s.setAlu r).params = s.params := rfl
@[simp] theorem State.setAlu_report (s : State) (r : Alu) : (s.setAlu r).report = s.report := rfl
@[simp] theorem State.setAlu_serialOut (s : State) (r : Alu) : (s.setAlu r).serialOut = s.serialOut := rfl
@[simp] theorem State.setAlu_pixelsOut (s : State) (r : Alu) : (s.setAlu r).pixelsOut = s.pixelsOut := rfl

/-! ### `State.setR16` -/

@[simp] theorem State.setR16_a (s : State) (rr : Reg16) (w : Word) : (s.setR16 rr w).a = s.a := by cases rr <;> rfl
@[simp] theorem State.setR16_f (s : State) (rr : Reg16) (w : Word) : (s.setR16 rr w).f = s.f := by cases rr <;> rfl
@[simp] theorem State.setR16_pc (s : State) (rr : Reg16) (w : Word) : (s.setR16 rr w).pc = s.pc := by cases rr <;> rfl
@[simp] theorem State.setR16_ime (s : State) (rr : Reg16) (w : Word) : (s.setR16 rr w).ime = s.ime := by cases rr <;> rfl
@[simp] theorem State.setR16_imePending (s : State) (rr : Reg16) (w : Word) : (s.setR16 rr w).imePending = s.imePending := by cases rr <;> rfl
@[simp] theorem State.setR16_haltState (s : State) (rr : Reg16) (w : Word) : (s.setR16 rr w).haltState = s.haltState := by cases rr <;> rfl
@[simp] theorem State.setR16_mem (s : State) (rr : Reg16) (w : Word) : (s.setR16 rr w).mem = s.mem := by cases rr <;> rfl
@[simp] theorem State.setR16_cyc (s : State) (rr : Reg16) (w : Word) : (s.setR16 rr w).cyc = s.cyc := by cases rr <;> rfl
@[simp] theorem State.setR16_video (s : State) (rr : Reg16) (w : Word) : (s.setR16 rr w).video = s.video := by cases rr <;> rfl
@[simp] theorem State.setR16_params (s : State) (rr : Reg16) (w : Word) : (s.setR16 rr w).params = s.params := by cases rr <;> rfl
@[simp] theorem State.setR16_report (s : State) (rr : Reg16) (w : Word) : (s.setR16 rr w).report = s.report := by cases rr <;> rfl
@[simp] theorem State.setR16_serialOut (s : State) (rr : Reg16) (w : Word) : (s.setR16 rr w).serialOut = s.serialOut := by cases rr <;> rfl
@[simp] theorem State.setR16_pixelsOut (s : State) (rr : Reg16) (w : Word) : (s.setR16 rr w).pixelsOut = s.pixelsOut := by cases rr <;> rfl

/-! ### `State.setStk` -/

@[simp] theorem State.setStk_sp (s : State) (rr : StkReg) (w : Word) : (s.setStk rr w).sp = s.sp := by cases rr <;> rfl
@[simp] theorem State.setStk_pc (s : State) (rr : StkReg) (w : Word) : (s.setStk rr w).pc = s.pc := by cases rr <;> rfl
@[simp] theorem State.setStk_ime (s : State) (rr : StkReg) (w : Word) : (s.setStk rr w).ime = s.ime := by cases rr <;> rfl
@[simp] theorem State.setStk_imePending (s : State) (rr : StkReg) (w : Word) : (s.setStk rr w).imePending = s.imePending := by cases rr <;> rfl
@[simp] theorem State.setStk_haltState (s : State) (rr : StkReg) (w : Word) : (s.setStk rr w).haltState = s.haltState := by cases rr <;> rfl
@[simp] theorem State.setStk_mem (s : State) (rr : StkReg) (w : Word) : (s.setStk rr w).mem = s.mem := by cases rr <;> rfl
@[simp] theorem State.setStk_cyc (s : State) (rr : StkReg) (w : Word) : (s.setStk rr w).cyc = s.cyc := by cases rr <;> rfl
@[simp] theorem State.setStk_video (s : State) (rr : StkReg) (w : Word) : (s.setStk rr w).video = s.video := by cases rr <;> rfl
@[simp] theorem State.setStk_params (s : State) (rr : StkReg) (w : Word) : (s.setStk rr w).params = s.params := by cases rr <;> rfl
@[simp] theorem State.setStk_report (s : State) (rr : StkReg) (w : Word) : (s.setStk rr w).report = s.report := by cases rr <;> rfl
@[simp] theorem State.setStk_serialOut (s : State) (rr : StkReg) (w : Word) : (s.setStk rr w).serialOut = s.serialOut := by cases rr <;> rfl
@[simp] theorem State.setStk_pixelsOut (s : State) (rr : StkReg) (w : Word) : (s.setStk rr w).pixelsOut = s.pixelsOut := by cases rr <;> rfl

/-! ### `pop16_snd` -/

@[simp] theorem pop16_snd_a (s : State) : ((pop16 s).2).a = s.a := rfl
@[simp] theorem pop16_snd_f (s : State) : ((pop16 s).2).f = s.f := rfl
@[simp] theorem pop16_snd_b (s : State) : ((pop16 s).2).b = s.b := rfl
@[simp] theorem pop16_snd_c (s : State) : ((pop16 s).2).c = s.c := rfl
@[simp] theorem pop16_snd_d (s : State) : ((pop16 s).2).d = s.d := rfl
@[simp] theorem pop16_snd_e (s : State) : ((pop16 s).2).e = s.e := rfl
@[simp] theorem pop16_snd_h (s : State) : ((pop16 s).2).h = s.h := rfl
@[simp] theorem pop16_snd_l (s : State) : ((pop16 s).2).l = s.l := rfl
@[simp] theorem pop16_snd_sp (s : State) : ((pop16 s).2).sp = s.sp + 2 := rfl
@[simp] theorem pop16_snd_pc (s : State) : ((pop16 s).2).pc = s.pc := rfl
@[simp] theorem pop16_snd_ime (s : State) : ((pop16 s).2).ime = s.ime := rfl
@[simp] theorem pop16_snd_imePending (s : State) : ((pop16 s).2).imePending = s.imePending := rfl
@[simp] theorem pop16_snd_haltState (s : State) : ((pop16 s).2).haltState = s.haltState := rfl
@[simp] theorem pop16_snd_mem (s : State) : ((pop16 s).2).mem = s.mem := rfl
@[simp] theorem pop16_snd_cyc (s : State) : ((pop16 s).2).cyc = s.cyc := rfl
@[simp] theorem pop16_snd_video (s : State) : ((pop16 s).2).video = s.video := rfl
@[simp] theorem pop16_snd_params (s : State) : ((pop16 s).2).params = s.params := rfl
@[simp] theorem pop16_snd_report (s : State) : ((pop16 s).2).report = s.report := rfl
@[simp] theorem pop16_snd_serialOut (s : State) : ((pop16 s).2).serialOut = s.serialOut := rfl
@[simp] theorem pop16_snd_pixelsOut (s : State) : ((pop16 s).2).pixelsOut = s.pixelsOut := rfl

/-! ### `fetch8_snd` -/

@[simp] theorem fetch8_snd_a (s : State) : ((fetch8 s).2).a = s.a := rfl
@[simp] theorem fetch8_snd_f (s : State) : ((fetch8 s).2).f = s.f := rfl
@[simp] theorem fetch8_snd_b (s : State) : ((fetch8 s).2).b = s.b := rfl
@[simp] theorem fetch8_snd_c (s : State) : ((fetch8 s).2).c = s.c := rfl
@[simp] theorem fetch8_snd_d (s : State) : ((fetch8 s).2).d = s.d := rfl
@[simp] theorem fetch8_snd_e (s : State) : ((fetch8 s).2).e = s.e := rfl
@[simp] theorem fetch8_snd_h (s : State) : ((fetch8 s).2).h = s.h := rfl
@[simp] theorem fetch8_snd_l (s : State) : ((fetch8 s).2).l = s.l := rfl
@[simp] theorem fetch8_snd_sp (s : State) : ((fetch8 s).2).sp = s.sp := rfl
@[simp] theorem fetch8_snd_pc (s : State) : ((fetch8 s).2).pc = s.pc + 1 := rfl
@[simp] theorem fetch8_snd_ime (s : State) : ((fetch8 s).2).ime = s.ime := rfl
@[simp] theorem fetch8_snd_imePending (s : State) : ((fetch8 s).2).imePending = s.imePending := rfl
@[simp] theorem fetch8_snd_haltState (s : State) : ((fetch8 s).2).haltState = s.haltState := rfl
@[simp] theorem fetch8_snd_mem (s : State) : ((fetch8 s).2).mem = s.mem := rfl
@[simp] theorem fetch8_snd_cyc (s : State) : ((fetch8 s).2).cyc = s.cyc := rfl
@[simp] theorem fetch8_snd_video (s : State) : ((fetch8 s).2).video = s.video := rfl
@[simp] theorem fetch8_snd_params (s : State) : ((fetch8 s).2).params = s.params := rfl
@[simp] theorem fetch8_snd_report (s : State) : ((fetch8 s).2).report = s.report := rfl
@[simp] theorem fetch8_snd_serialOut (s : State) : ((fetch8 s).2).serialOut = s.serialOut := rfl
@[simp] theorem fetch8_snd_pixelsOut (s : State) : ((fetch8 s).2).pixelsOut = s.pixelsOut := rfl

/-! ### `jumpTo` -/

@[simp] theorem jumpTo_a (s : State) (target : Word) : (jumpTo target s).a = s.a := rfl
@[simp] theorem jumpTo_f (s : State) (target : Word) : (jumpTo target s).f = s.f := rfl
@[simp] theorem jumpTo_b (s : State) (target : Word) : (jumpTo target s).b = s.b := rfl
@[simp] theorem jumpTo_c (s : State) (target : Word) : (jumpTo target s).c = s.c := rfl
@[simp] theorem jumpTo_d (s : State) (target : Word) : (jumpTo target s).d = s.d := rfl
@[simp] theorem jumpTo_e (s : State) (target : Word) : (jumpTo target s).e = s.e := rfl
@[simp] theorem jumpTo_h (s : State) (target : Word) : (jumpTo target s).h = s.h := rfl
@[simp] theorem jumpTo_l (s : State) (target : Word) : (jumpTo target s).l = s.l := rfl
@[simp] theorem jumpTo_sp (s : State) (target : Word) : (jumpTo target s).sp = s.sp := rfl
@[simp] theorem jumpTo_pc (s : State) (target : Word) : (jumpTo target s).pc = target := rfl
@[simp] theorem jumpTo_ime (s : State) (target : Word) : (jumpTo target s).ime = s.ime := rfl
@[simp] theorem jumpTo_imePending (s : State) (target : Word) : (jumpTo target s).imePending = s.imePending := rfl
@[simp] theorem jumpTo_haltState (s : State) (target : Word) : (jumpTo target s).haltState = s.haltState := rfl
@[simp] theorem jumpTo_mem (s : State) (target : Word) : (jumpTo target s).mem = s.mem := rfl
@[simp] theorem jumpTo_cyc (s : State) (target : Word) : (jumpTo target s).cyc = s.cyc := rfl
@[simp] theorem jumpTo_video (s : State) (target : Word) : (jumpTo target s).video = s.video := rfl
@[simp] theorem jumpTo_params (s : State) (target : Word) : (jumpTo target s).params = s.params := rfl
@[simp] theorem jumpTo_report (s : State) (target : Word) : (jumpTo target s).report = s.report := rfl
@[simp] theorem jumpTo_serialOut (s : State) (target : Word) : (jumpTo target s).serialOut = s.serialOut := rfl
@[simp] theorem jumpTo_pixelsOut (s : State) (target : Word) : (jumpTo target s).pixelsOut = s.pixelsOut := rfl

/-! ### `loadA` -/

@[simp] theorem loadA_a (s : State) (addr : Word) : (loadA addr s).a = s.read addr := rfl
@[simp] theorem loadA_f (s : State) (addr : Word) : (loadA addr s).f = s.f := rfl
@[simp] theorem loadA_b (s : State) (addr : Word) : (loadA addr s).b = s.b := rfl
@[simp] theorem loadA_c (s : State) (addr : Word) : (loadA addr s).c = s.c := rfl
@[simp] theorem loadA_d (s : State) (addr : Word) : (loadA addr s).d = s.d := rfl
@[simp] theorem loadA_e (s : State) (addr : Word) : (loadA addr s).e = s.e := rfl
@[simp] theorem loadA_h (s : State) (addr : Word) : (loadA addr s).h = s.h := rfl
@[simp] theorem loadA_l (s : State) (addr : Word) : (loadA addr s).l = s.l := rfl
@[simp] theorem loadA_sp (s : State) (addr : Word) : (loadA addr s).sp = s.sp := rfl
@[simp] theorem loadA_pc (s : State) (addr : Word) : (loadA addr s).pc = s.pc := rfl
@[simp] theorem loadA_ime (s : State) (addr : Word) : (loadA addr s).ime = s.ime := rfl
@[simp] theorem loadA_imePending (s : State) (addr : Word) : (loadA addr s).imePending = s.imePending := rfl
@[simp] theorem loadA_haltState (s : State) (addr : Word) : (loadA addr s).haltState = s.haltState := rfl
@[simp] theorem loadA_mem (s : State) (addr : Word) : (loadA addr s).mem = s.mem := rfl
@[simp] theorem loadA_cyc (s : State) (addr : Word) : (loadA addr s).cyc = s.cyc := rfl
@[simp] theorem loadA_video (s : State) (addr : Word) : (loadA addr s).video = s.video := rfl
@[simp] theorem loadA_params (s : State) (addr : Word) : (loadA addr s).params = s.params := rfl
@[simp] theorem loadA_report (s : State) (addr : Word) : (loadA addr s).report = s.report := rfl
@[simp] theorem loadA_serialOut (s : State) (addr : Word) : (loadA addr s).serialOut = s.serialOut := rfl
@[simp] theorem loadA_pixelsOut (s : State) (addr : Word) : (loadA addr s).pixelsOut = s.pixelsOut := rfl

/-! ### The register tables -/

@[simp] theorem getR8_setR8_same (s : State) (r : Reg8) (v : Byte) : (s.setR8 r v).getR8 r = v := by cases r <;> rfl

theorem getR8_setR8_ne (s : State) {r r' : Reg8} (v : Byte) (h : r' ≠ r) : (s.setR8 r v).getR8 r' = s.getR8 r' := by
  cases r <;> cases r' <;> first | rfl | exact absurd rfl h

@[simp] theorem setR8_getR8 (s : State) (r : Reg8) : s.setR8 r (s.getR8 r) = s := by cases r <;> rfl

/-! ### The parts of a step -/

/-- `testBit` writes F only. -/
@[simp] theorem testBit_frame (s : State) (bit : Bool) :
    (testBit bit s).a = s.a ∧ (testBit bit s).b = s.b ∧ (testBit bit s).c = s.c ∧ (testBit bit s).d = s.d ∧
      (testBit bit s).e = s.e ∧ (testBit bit s).h = s.h ∧ (testBit bit s).l = s.l ∧ (testBit bit s).sp = s.sp ∧
      (testBit bit s).pc = s.pc ∧ (testBit bit s).ime = s.ime ∧ (testBit bit s).imePending = s.imePending ∧
      (testBit bit s).haltState = s.haltState ∧ (testBit bit s).mem = s.mem ∧ (testBit bit s).cyc = s.cyc ∧
      (testBit bit s).video = s.video ∧ (testBit bit s).params = s.params ∧ (testBit bit s).report = s.report ∧
      (testBit bit s).serialOut = s.serialOut ∧ (testBit bit s).pixelsOut = s.pixelsOut := by
  exact ⟨rfl, by simp [testBit]⟩

/-- A push writes memory and SP only. -/
@[simp] theorem pushPlain_frame (s : State) (w : Word) :
    (s.pushPlain w).a = s.a ∧ (s.pushPlain w).f = s.f ∧ (s.pushPlain w).b = s.b ∧ (s.pushPlain w).c = s.c ∧
      (s.pushPlain w).d = s.d ∧ (s.pushPlain w).e = s.e ∧ (s.pushPlain w).h = s.h ∧ (s.pushPlain w).l = s.l ∧
      (s.pushPlain w).pc = s.pc ∧ (s.pushPlain w).ime = s.ime ∧ (s.pushPlain w).imePending = s.imePending ∧
      (s.pushPlain w).haltState = s.haltState ∧ (s.pushPlain w).cyc = s.cyc ∧ (s.pushPlain w).video = s.video ∧
      (s.pushPlain w).params = s.params ∧ (s.pushPlain w).report = s.report ∧
      (s.pushPlain w).serialOut = s.serialOut ∧ (s.pushPlain w).pixelsOut = s.pixelsOut := by
  simp [State.pushPlain]

/-- Taking an interrupt writes IME, memory, SP and PC only. -/
@[simp] theorem takeInterrupt_frame (s : State) (i : Nat) :
    (takeInterrupt i s).a = s.a ∧ (takeInterrupt i s).f = s.f ∧ (takeInterrupt i s).b = s.b ∧
      (takeInterrupt i s).c = s.c ∧ (takeInterrupt i s).d = s.d ∧ (takeInterrupt i s).e = s.e ∧
      (takeInterrupt i s).h = s.h ∧ (takeInterrupt i s).l = s.l ∧ (takeInterrupt i s).imePending = s.imePending ∧
      (takeInterrupt i s).haltState = s.haltState ∧ (takeInterrupt i s).cyc = s.cyc ∧
      (takeInterrupt i s).video = s.video ∧ (takeInterrupt i s).params = s.params ∧
      (takeInterrupt i s).report = s.report ∧ (takeInterrupt i s).serialOut = s.serialOut ∧
      (takeInterrupt i s).pixelsOut = s.pixelsOut := by
  simp [takeInterrupt]

/-- The return writes IME, the pending EI, SP and PC only. -/
@[simp] theorem returnFromInterrupt_frame (s : State) :
    (returnFromInterrupt s).a = s.a ∧ (returnFromInterrupt s).f = s.f ∧ (returnFromInterrupt s).b = s.b ∧
      (returnFromInterrupt s).c = s.c ∧ (returnFromInterrupt s).d = s.d ∧ (returnFromInterrupt s).e = s.e ∧
      (returnFromInterrupt s).h = s.h ∧ (returnFromInterrupt s).l = s.l ∧
      (returnFromInterrupt s).haltState = s.haltState ∧ (returnFromInterrupt s).mem = s.mem ∧
      (returnFromInterrupt s).cyc = s.cyc ∧ (returnFromInterrupt s).video = s.video ∧
      (returnFromInterrupt s).params = s.params ∧ (returnFromInterrupt s).report = s.report ∧
      (returnFromInterrupt s).serialOut = s.serialOut ∧ (returnFromInterrupt s).pixelsOut = s.pixelsOut := by
  simp [returnFromInterrupt]

/-- A Clock tick writes its counter and memory only. -/
@[simp] theorem clockTick_frame (s : State) :
    (clockTick s).a = s.a ∧ (clockTick s).f = s.f ∧ (clockTick s).b = s.b ∧ (clockTick s).c = s.c ∧
      (clockTick s).d = s.d ∧ (clockTick s).e = s.e ∧ (clockTick s).h = s.h ∧ (clockTick s).l = s.l ∧
      (clockTick s).sp = s.sp ∧ (clockTick s).pc = s.pc ∧ (clockTick s).ime = s.ime ∧
      (clockTick s).imePending = s.imePending ∧ (clockTick s).haltState = s.haltState ∧
      (clockTick s).video = s.video ∧ (clockTick s).params = s.params ∧ (clockTick s).report = s.report ∧
      (clockTick s).serialOut = s.serialOut ∧ (clockTick s).pixelsOut = s.pixelsOut := by
  simp [clockTick]

/-- A dot writes the VideoUnit and the pixel port only. -/
@[simp] theorem dot_frame (s : State) :
    (dot s).a = s.a ∧ (dot s).f = s.f ∧ (dot s).b = s.b ∧ (dot s).c = s.c ∧ (dot s).d = s.d ∧ (dot s).e = s.e ∧
      (dot s).h = s.h ∧ (dot s).l = s.l ∧ (dot s).sp = s.sp ∧ (dot s).pc = s.pc ∧ (dot s).ime = s.ime ∧
      (dot s).imePending = s.imePending ∧ (dot s).haltState = s.haltState ∧ (dot s).mem = s.mem ∧
      (dot s).cyc = s.cyc ∧ (dot s).params = s.params ∧ (dot s).report = s.report ∧
      (dot s).serialOut = s.serialOut := by
  simp [dot]

/-- A batch writes the VideoUnit, the pixel port and memory only. -/
@[simp] theorem batch_frame (s : State) :
    (batch s).a = s.a ∧ (batch s).f = s.f ∧ (batch s).b = s.b ∧ (batch s).c = s.c ∧ (batch s).d = s.d ∧
      (batch s).e = s.e ∧ (batch s).h = s.h ∧ (batch s).l = s.l ∧ (batch s).sp = s.sp ∧ (batch s).pc = s.pc ∧
      (batch s).ime = s.ime ∧ (batch s).imePending = s.imePending ∧ (batch s).haltState = s.haltState ∧
      (batch s).cyc = s.cyc ∧ (batch s).params = s.params ∧ (batch s).report = s.report ∧
      (batch s).serialOut = s.serialOut := by
  simp [batch]

/-- An M-cycle writes the devices, the pixel port and memory only. -/
@[simp] theorem mCycle_frame (s : State) :
    (mCycle s).a = s.a ∧ (mCycle s).f = s.f ∧ (mCycle s).b = s.b ∧ (mCycle s).c = s.c ∧ (mCycle s).d = s.d ∧
      (mCycle s).e = s.e ∧ (mCycle s).h = s.h ∧ (mCycle s).l = s.l ∧ (mCycle s).sp = s.sp ∧ (mCycle s).pc = s.pc ∧
      (mCycle s).ime = s.ime ∧ (mCycle s).imePending = s.imePending ∧ (mCycle s).haltState = s.haltState ∧
      (mCycle s).params = s.params ∧ (mCycle s).report = s.report ∧ (mCycle s).serialOut = s.serialOut := by
  simp [mCycle]

/-- `advance` writes the devices, the pixel port and memory only. -/
@[simp] theorem advance_frame (n : Nat) (s : State) :
    (advance n s).a = s.a ∧ (advance n s).f = s.f ∧ (advance n s).b = s.b ∧ (advance n s).c = s.c ∧
      (advance n s).d = s.d ∧ (advance n s).e = s.e ∧ (advance n s).h = s.h ∧ (advance n s).l = s.l ∧
      (advance n s).sp = s.sp ∧ (advance n s).pc = s.pc ∧ (advance n s).ime = s.ime ∧
      (advance n s).imePending = s.imePending ∧ (advance n s).haltState = s.haltState ∧
      (advance n s).params = s.params ∧ (advance n s).report = s.report ∧
      (advance n s).serialOut = s.serialOut := by
  induction n generalizing s with
  | zero => simp [advance]
  | succ n ih => simp [advance, ih]

/-- The interrupt check leaves the registers, the pending EI, the HALT state and the serial port alone. -/
@[simp] theorem serviceInterrupts_frame (s : State) :
    (serviceInterrupts s).a = s.a ∧ (serviceInterrupts s).f = s.f ∧ (serviceInterrupts s).b = s.b ∧
      (serviceInterrupts s).c = s.c ∧ (serviceInterrupts s).d = s.d ∧ (serviceInterrupts s).e = s.e ∧
      (serviceInterrupts s).h = s.h ∧ (serviceInterrupts s).l = s.l ∧
      (serviceInterrupts s).imePending = s.imePending ∧ (serviceInterrupts s).haltState = s.haltState ∧
      (serviceInterrupts s).params = s.params ∧ (serviceInterrupts s).report = s.report ∧
      (serviceInterrupts s).serialOut = s.serialOut := by
  unfold serviceInterrupts
  split <;> simp

/-- The serial probe writes memory and its port only. -/
@[simp] theorem serialProbe_frame (s : State) :
    (serialProbe s).a = s.a ∧ (serialProbe s).f = s.f ∧ (serialProbe s).b = s.b ∧ (serialProbe s).c = s.c ∧
      (serialProbe s).d = s.d ∧ (serialProbe s).e = s.e ∧ (serialProbe s).h = s.h ∧ (serialProbe s).l = s.l ∧
      (serialProbe s).sp = s.sp ∧ (serialProbe s).pc = s.pc ∧ (serialProbe s).ime = s.ime ∧
      (serialProbe s).imePending = s.imePending ∧ (serialProbe s).haltState = s.haltState ∧
      (serialProbe s).cyc = s.cyc ∧ (serialProbe s).video = s.video ∧ (serialProbe s).params = s.params ∧
      (serialProbe s).report = s.report ∧ (serialProbe s).pixelsOut = s.pixelsOut := by
  unfold serialProbe
  split <;> simp

/-- The fold writes the HALT state only. -/
@[simp] theorem applyFold_frame (sampled : State) (wasHalt : Bool) (s : State) :
    (applyFold sampled wasHalt s).a = s.a ∧ (applyFold sampled wasHalt s).f = s.f ∧
      (applyFold sampled wasHalt s).b = s.b ∧ (applyFold sampled wasHalt s).c = s.c ∧
      (applyFold sampled wasHalt s).d = s.d ∧ (applyFold sampled wasHalt s).e = s.e ∧
      (applyFold sampled wasHalt s).h = s.h ∧ (applyFold sampled wasHalt s).l = s.l ∧
      (applyFold sampled wasHalt s).sp = s.sp ∧ (applyFold sampled wasHalt s).pc = s.pc ∧
      (applyFold sampled wasHalt s).ime = s.ime ∧ (applyFold sampled wasHalt s).imePending = s.imePending ∧
      (applyFold sampled wasHalt s).mem = s.mem ∧ (applyFold sampled wasHalt s).cyc = s.cyc ∧
      (applyFold sampled wasHalt s).video = s.video ∧ (applyFold sampled wasHalt s).params = s.params ∧
      (applyFold sampled wasHalt s).report = s.report ∧ (applyFold sampled wasHalt s).serialOut = s.serialOut ∧
      (applyFold sampled wasHalt s).pixelsOut = s.pixelsOut := by
  simp [applyFold]

/-- The start of a step clears the ports and the report only. -/
@[simp] theorem openStep_frame (s : State) :
    (openStep s).a = s.a ∧ (openStep s).f = s.f ∧ (openStep s).b = s.b ∧ (openStep s).c = s.c ∧
      (openStep s).d = s.d ∧ (openStep s).e = s.e ∧ (openStep s).h = s.h ∧ (openStep s).l = s.l ∧
      (openStep s).sp = s.sp ∧ (openStep s).pc = s.pc ∧ (openStep s).ime = s.ime ∧
      (openStep s).imePending = s.imePending ∧ (openStep s).haltState = s.haltState ∧ (openStep s).mem = s.mem ∧
      (openStep s).cyc = s.cyc ∧ (openStep s).video = s.video ∧ (openStep s).params = s.params := by
  simp [openStep]

/-- The delayed effect of EI writes IME and the pending EI only. -/
@[simp] theorem settleIme_frame (arm : Bool) (s : State) :
    (settleIme arm s).a = s.a ∧ (settleIme arm s).f = s.f ∧ (settleIme arm s).b = s.b ∧ (settleIme arm s).c = s.c ∧
      (settleIme arm s).d = s.d ∧ (settleIme arm s).e = s.e ∧ (settleIme arm s).h = s.h ∧
      (settleIme arm s).l = s.l ∧ (settleIme arm s).sp = s.sp ∧ (settleIme arm s).pc = s.pc ∧
      (settleIme arm s).haltState = s.haltState ∧ (settleIme arm s).mem = s.mem ∧ (settleIme arm s).cyc = s.cyc ∧
      (settleIme arm s).video = s.video ∧ (settleIme arm s).params = s.params ∧
      (settleIme arm s).report = s.report ∧ (settleIme arm s).serialOut = s.serialOut ∧
      (settleIme arm s).pixelsOut = s.pixelsOut := by
  unfold settleIme
  split <;> simp

/-- Clearing the report writes nothing else. -/
@[simp] theorem clearReport_frame (s : State) :
    (clearReport s).a = s.a ∧ (clearReport s).f = s.f ∧ (clearReport s).b = s.b ∧ (clearReport s).c = s.c ∧
      (clearReport s).d = s.d ∧ (clearReport s).e = s.e ∧ (clearReport s).h = s.h ∧ (clearReport s).l = s.l ∧
      (clearReport s).sp = s.sp ∧ (clearReport s).pc = s.pc ∧ (clearReport s).ime = s.ime ∧
      (clearReport s).imePending = s.imePending ∧ (clearReport s).haltState = s.haltState ∧
      (clearReport s).mem = s.mem ∧ (clearReport s).cyc = s.cyc ∧ (clearReport s).video = s.video ∧
      (clearReport s).params = s.params ∧ (clearReport s).serialOut = s.serialOut ∧
      (clearReport s).pixelsOut = s.pixelsOut := by
  simp [clearReport]

/-- Parts (b) to (e) leave the 8-bit registers, the pending EI and the parameters alone. -/
@[simp] theorem finishStep_frame (s : State) :
    (finishStep s).a = s.a ∧ (finishStep s).f = s.f ∧ (finishStep s).b = s.b ∧ (finishStep s).c = s.c ∧
      (finishStep s).d = s.d ∧ (finishStep s).e = s.e ∧ (finishStep s).h = s.h ∧ (finishStep s).l = s.l ∧
      (finishStep s).imePending = s.imePending ∧ (finishStep s).params = s.params := by
  simp [finishStep]

/-- A step ends with nothing reported. -/
@[simp] theorem finishStep_report (s : State) : (finishStep s).report = Report.idle := rfl

@[simp] theorem clearReport_report (s : State) : (clearReport s).report = Report.idle := rfl

/-! ### The power-on state -/

/-- A power-on state is `State.reset` but for the parameters and memory. -/
theorem State.powerOn_eq (p : PowerOn) :
    State.powerOn p = { State.reset with params := p.params, mem := powerOnMemory p } := rfl

@[simp] theorem State.powerOn_params (p : PowerOn) : (State.powerOn p).params = p.params := rfl
@[simp] theorem State.powerOn_mem (p : PowerOn) : (State.powerOn p).mem = powerOnMemory p := rfl

end Sys2Proof.Machine
end

