-- ==== Sys2Proof/Laws/Ops.lean ====
section
/-! SUPPORT. What the shared operations can do, once each: sequencing, the store and the push of an instruction, the push of
interrupt entry, the pop, the pending sources, and the fetch. -/

namespace Sys2Proof.Machine

/-! ## Sequencing -/

@[simp] theorem andThen_next (s : State) (k : State → Res) : andThen (.next s) k = k s := rfl

@[simp] theorem andThen_fault (r : Fault) (k : State → Res) : andThen (.fault r) k = .fault r := rfl

theorem andThen_eq_next {r : Res} {k : State → Res} {t : State} :
    andThen r k = .next t ↔ ∃ s, r = .next s ∧ k s = .next t := by
  cases r <;> simp [andThen]

theorem andThen_eq_fault {r : Res} {k : State → Res} {q : Fault} :
    andThen r k = .fault q ↔ r = .fault q ∨ ∃ s, r = .next s ∧ k s = .fault q := by
  cases r <;> simp [andThen]

theorem andThen_eq_refused {r : Res} {k : State → Res} {q : Refusal} :
    andThen r k = .refused q ↔ r = .refused q ∨ ∃ s, r = .next s ∧ k s = .refused q := by
  cases r <;> simp [andThen]

theorem done_eq_next {n : Nat} {s t : State} : done n s = .next t ↔ t = s.reportCycles n := by
  simp only [done, Host.Outcome.next.injEq]
  exact eq_comm

/-! ## The store of an instruction -/

theorem echoFaults_eq_true {s : State} {addr : Word} :
    echoFaults s addr = true ↔ s.params.echoWrite = .fault ∧ regionOf addr.toNat = .echo := by
  simp [echoFaults]

theorem echoFaults_eq_false {s : State} {addr : Word} : echoFaults s addr = false ↔ CanStore s addr := by
  rw [← Bool.not_eq_true, echoFaults_eq_true, CanStore]
  cases s.params.echoWrite <;> simp

/-- A store is the bus write, or the fatal condition of R68. -/
theorem store_of_canStore {s : State} {addr : Word} (h : CanStore s addr) (v : Byte) :
    store addr v s = .next (s.write addr v) := by
  simp [store, echoFaults_eq_false.2 h]

theorem store_eq_next {s t : State} {addr : Word} {v : Byte} :
    store addr v s = .next t ↔ CanStore s addr ∧ t = s.write addr v := by
  rw [← echoFaults_eq_false, store]
  cases h : echoFaults s addr <;> simp [eq_comm]

theorem store_eq_fault {s : State} {addr : Word} {v : Byte} {r : Fault} :
    store addr v s = .fault r ↔
      (s.params.echoWrite = .fault ∧ regionOf addr.toNat = .echo) ∧ r = .echoWrite addr := by
  rw [← echoFaults_eq_true, store]
  cases h : echoFaults s addr <;> simp [eq_comm]

theorem store_ne_refused (s : State) (addr : Word) (v : Byte) (q : Refusal) : store addr v s ≠ .refused q := by
  unfold store
  split <;> simp

/-! ## The stack -/

theorem sub_one_sub_one (w : Word) : w - 1 - 1 = w - 2 := by
  rw [BitVec.sub_sub]
  rfl

/-- What a push leaves. -/
theorem pushPlain_eq (s : State) (w : Word) :
    s.pushPlain w =
      { s with
        sp := s.sp - 2
        mem := memWrite (memWrite s.mem (s.sp - 1) (hiByte w)) (s.sp - 2) (loByte w) } := by
  simp only [State.pushPlain, State.write, sub_one_sub_one]

@[simp] theorem pushPlain_sp (s : State) (w : Word) : (s.pushPlain w).sp = s.sp - 2 := by rw [pushPlain_eq]

theorem pushPlain_mem (s : State) (w : Word) :
    (s.pushPlain w).mem = memWrite (memWrite s.mem (s.sp - 1) (hiByte w)) (s.sp - 2) (loByte w) := by
  rw [pushPlain_eq]

theorem wrotePush_pushPlain (s : State) (w : Word) : WrotePush s.mem s.sp w (s.pushPlain w).mem := by
  rw [pushPlain_mem]
  exact ⟨_, wroteByte_memWrite _ _ _, wroteByte_memWrite _ _ _⟩

/-- A push by an instruction is the plain push, if neither byte's write is the fatal one. -/
theorem push16_of_canPush {s : State} (h : CanPush s) (w : Word) : push16 w s = .next (s.pushPlain w) := by
  have h1 : CanStore { s with sp := s.sp - 1 } (s.sp - 1) := h.1
  have h2 : CanStore ({ s with sp := s.sp - 1, mem := memWrite s.mem (s.sp - 1) (hiByte w) } : State)
      (s.sp - 1 - 1) := by
    rw [sub_one_sub_one]
    exact h.2
  have h3 := store_of_canStore (s :=
    { s with sp := s.sp - 1 - 1, mem := memWrite s.mem (s.sp - 1) (hiByte w) }) (addr := s.sp - 1 - 1) h2 (loByte w)
  rw [push16, store_of_canStore h1, andThen_next]
  exact h3

theorem push16_eq_next {s t : State} {w : Word} : push16 w s = .next t ↔ CanPush s ∧ t = s.pushPlain w := by
  constructor
  · intro h
    obtain ⟨s1, h1, h2⟩ := andThen_eq_next.1 h
    obtain ⟨hc1, rfl⟩ := store_eq_next.1 h1
    obtain ⟨hc2, rfl⟩ := store_eq_next.1 h2
    refine ⟨⟨hc1, ?_⟩, rfl⟩
    have hc2' : CanStore s (s.sp - 1 - 1) := hc2
    rwa [sub_one_sub_one] at hc2'
  · rintro ⟨h, rfl⟩
    exact push16_of_canPush h w

theorem push16_ne_refused (s : State) (w : Word) (q : Refusal) : push16 w s ≠ .refused q := by
  intro h
  rcases andThen_eq_refused.1 h with h | ⟨_, _, h⟩ <;> exact store_ne_refused _ _ _ _ h

/-- A push aborts at the first of its two addresses that is in the mirror. -/
theorem push16_eq_fault {s : State} {w : Word} {r : Fault} :
    push16 w s = .fault r ↔ s.params.echoWrite = .fault ∧
      ((regionOf (s.sp - 1).toNat = .echo ∧ r = .echoWrite (s.sp - 1)) ∨
        (regionOf (s.sp - 1).toNat ≠ .echo ∧ regionOf (s.sp - 2).toNat = .echo ∧ r = .echoWrite (s.sp - 2))) := by
  have key : push16 w s = .fault r ↔
      (s.params.echoWrite = .fault ∧ regionOf (s.sp - 1).toNat = .echo) ∧ r = .echoWrite (s.sp - 1) ∨
        CanStore s (s.sp - 1) ∧
          (s.params.echoWrite = .fault ∧ regionOf (s.sp - 2).toNat = .echo) ∧ r = .echoWrite (s.sp - 2) := by
    rw [push16, andThen_eq_fault, store_eq_fault]
    refine or_congr Iff.rfl ⟨?_, ?_⟩
    · rintro ⟨s1, h1, h2⟩
      obtain ⟨hc, rfl⟩ := store_eq_next.1 h1
      have h2' := store_eq_fault.1 h2
      simp only [State.write, sub_one_sub_one] at h2'
      exact ⟨hc, h2'⟩
    · rintro ⟨hc, h2⟩
      refine ⟨_, store_eq_next.2 ⟨hc, rfl⟩, store_eq_fault.2 ?_⟩
      simpa only [State.write, sub_one_sub_one] using h2
  rw [key, CanStore]
  cases s.params.echoWrite <;> simp

/-- What a pop returns. -/
@[simp] theorem pop16_fst (s : State) : (pop16 s).1 = poppedWord s := rfl

@[simp] theorem hiByte_wordOf (h l : Byte) : hiByte (wordOf h l) = h := by
  apply BitVec.eq_of_toNat_eq
  rw [hiByte_toNat, wordOf_toNat]
  have := l.isLt
  omega

@[simp] theorem loByte_wordOf (h l : Byte) : loByte (wordOf h l) = l := by
  apply BitVec.eq_of_toNat_eq
  rw [loByte_toNat, wordOf_toNat]
  have := l.isLt
  omega

@[simp] theorem wordOf_hiByte_loByte (w : Word) : wordOf (hiByte w) (loByte w) = w := by
  apply BitVec.eq_of_toNat_eq
  rw [wordOf_toNat, hiByte_toNat, loByte_toNat]
  omega

/-! ## Fetch -/

theorem afterOpcode_running {s : State} (h : s.haltState = .running) : s.afterOpcode = s.pc + 1 := by
  simp [State.afterOpcode, h]

theorem afterOpcode_haltBug {s : State} (h : s.haltState = .haltBug) : s.afterOpcode = s.pc := by
  simp [State.afterOpcode, h]

theorem fetchInstr_eq (s : State) :
    fetchInstr s = decodeBytes (s.read s.pc) (s.read s.afterOpcode) (s.read (s.afterOpcode + 1)) := rfl

end Sys2Proof.Machine
end

