-- ==== Sys2Proof/Laws/Flags.lean ====
section
/-! SUPPORT. The flags of a written F, and the arithmetic behind the addresses and operands of the instructions. -/

namespace Sys2Proof.Machine

/-! ## Flags -/

@[simp] theorem flagsByte_z (z n h c : Bool) : (flagsByte z n h c)[7] = z := by
  revert z n h c
  decide

@[simp] theorem flagsByte_n (z n h c : Bool) : (flagsByte z n h c)[6] = n := by
  revert z n h c
  decide

@[simp] theorem flagsByte_h (z n h c : Bool) : (flagsByte z n h c)[5] = h := by
  revert z n h c
  decide

@[simp] theorem flagsByte_c (z n h c : Bool) : (flagsByte z n h c)[4] = c := by
  revert z n h c
  decide

/-- A written F has its low nibble zero. -/
@[simp] theorem flagsByte_low (z n h c : Bool) : flagsByte z n h c &&& 0x0F#8 = 0 := by
  revert z n h c
  decide

theorem mask_low (v : Byte) : (v &&& 0xF0#8) &&& 0x0F#8 = 0 := by
  rw [BitVec.and_assoc]
  exact BitVec.and_zero

/-- F as it is written by an operation, read flag by flag. -/
@[simp] theorem flags_setFlags (s : State) (z n h c : Bool) :
    (s.setFlags z n h c).flagZ = z ∧ (s.setFlags z n h c).flagN = n ∧ (s.setFlags z n h c).flagH = h ∧
      (s.setFlags z n h c).flagC = c := by
  simp [State.setFlags, State.flagZ, State.flagN, State.flagH, State.flagC]

/-! ## Operands -/

theorem ioPage_eq (n : Byte) : ioPage n = BitVec.ofNat 16 (0xFF00 + n.toNat) := by
  apply BitVec.eq_of_toNat_eq
  have := n.isLt
  simp [ioPage, zext16]

theorem ioPage_toNat (n : Byte) : (ioPage n).toNat = 0xFF00 + n.toNat := by
  rw [ioPage_eq, BitVec.toNat_ofNat]
  have := n.isLt
  omega

/-- The I/O page is never the mirror: its stores are never the fatal one. -/
theorem canStore_ioPage (s : State) (n : Byte) : CanStore s (ioPage n) := by
  right
  rw [Ne, regionOf_echo, ioPage_toNat]
  omega

theorem add_sext16 (w : Word) (e : Byte) : w + sext16 e = plusSigned w e := by
  apply BitVec.eq_of_toInt_eq
  rw [plusSigned, BitVec.toInt_ofInt, BitVec.toInt_add, sext16, BitVec.toInt_signExtend_of_le (by decide),
    BitVec.toInt_eq_toNat_bmod w]
  simp

end Sys2Proof.Machine
end

