-- ==== Sys2Proof/Laws/Step.lean ====
section
/-! SUPPORT. What a step can do: its cases, and what its parts leave in the control fields, in memory and in the ports. -/

namespace Sys2Proof.Machine

/-! ## The device registers: each is plain storage of the I/O page -/

theorem memRead_write_if (m : Memory) (v : Byte) (x : Word) :
    memRead (memWrite m ifAddr v) x = if x = 0xFF0F then v else memRead m x :=
  memRead_memWrite_high (by decide) (by decide) m v x

theorem memRead_write_div (m : Memory) (v : Byte) (x : Word) :
    memRead (memWrite m divAddr v) x = if x = 0xFF04 then v else memRead m x :=
  memRead_memWrite_high (by decide) (by decide) m v x

theorem memRead_write_tima (m : Memory) (v : Byte) (x : Word) :
    memRead (memWrite m timaAddr v) x = if x = 0xFF05 then v else memRead m x :=
  memRead_memWrite_high (by decide) (by decide) m v x

theorem memRead_write_ly (m : Memory) (v : Byte) (x : Word) :
    memRead (memWrite m lyAddr v) x = if x = 0xFF44 then v else memRead m x :=
  memRead_memWrite_high (by decide) (by decide) m v x

theorem memRead_write_stat (m : Memory) (v : Byte) (x : Word) :
    memRead (memWrite m statAddr v) x = if x = 0xFF41 then v else memRead m x :=
  memRead_memWrite_high (by decide) (by decide) m v x

theorem memRead_write_sc (m : Memory) (v : Byte) (x : Word) :
    memRead (memWrite m scAddr v) x = if x = 0xFF02 then v else memRead m x :=
  memRead_memWrite_high (by decide) (by decide) m v x

/-! ## The step's cases -/

/-- What the instruction of a step starts from. -/
abbrev State.fetched (s : State) : State := (openStep s).afterFetch (fetchInstr s).length

theorem step_halted {s : State} (h : s.haltState = .halted) :
    step s = .next (finishStep (idleCycle (openStep s))) := by
  simp [step, h]

theorem step_awake {s : State} (h : s.haltState ≠ .halted) :
    step s = andThen (exec (fetchInstr s) s.fetched) fun t => .next (finishStep (settleIme (armed s) t)) := by
  unfold step
  cases hs : s.haltState with
  | halted => exact absurd hs h
  | running => rfl
  | haltBug => rfl

/-- A step that goes on is an idle cycle or a completed instruction, and then parts (b) to (e). -/
theorem step_eq_next {s t : State} :
    step s = .next t ↔
      (s.haltState = .halted ∧ t = finishStep (idleCycle (openStep s))) ∨
        (s.haltState ≠ .halted ∧ ∃ u, exec (fetchInstr s) s.fetched = .next u ∧
          t = finishStep (settleIme (armed s) u)) := by
  by_cases h : s.haltState = .halted
  · rw [step_halted h]
    simp [h, eq_comm]
  · rw [step_awake h, andThen_eq_next]
    simp [h, eq_comm]

/-- A step that aborts is an aborted instruction. -/
theorem step_eq_fault {s : State} {r : Fault} :
    step s = .fault r ↔ s.haltState ≠ .halted ∧ exec (fetchInstr s) s.fetched = .fault r := by
  by_cases h : s.haltState = .halted
  · rw [step_halted h]
    simp [h]
  · rw [step_awake h, andThen_eq_fault]
    simp [h]

theorem step_eq_refused {s : State} {q : Refusal} :
    step s = .refused q ↔ s.haltState ≠ .halted ∧ exec (fetchInstr s) s.fetched = .refused q := by
  by_cases h : s.haltState = .halted
  · rw [step_halted h]
    simp [h]
  · rw [step_awake h, andThen_eq_refused]
    simp [h]

/-- The address of the opcode byte of a one-byte instruction. -/
theorem opcodeAddr_fetched {s : State} (h : s.haltState ≠ .halted) : ((openStep s).afterFetch 1).opcodeAddr = s.pc := by
  cases hs : s.haltState with
  | halted => exact absurd hs h
  | running => simp [State.opcodeAddr, State.afterFetch, State.afterOpcode, openStep, hs]
  | haltBug => simp [State.opcodeAddr, State.afterFetch, State.afterOpcode, openStep, hs]

/-! ## Advancing the devices -/

theorem advance_succ (n : Nat) (s : State) : advance (n + 1) s = advance n (mCycle s) := rfl

/-- A property that one M-cycle keeps, `advance` keeps. -/
theorem advance_induct {P : State → Prop} (h : ∀ s, P s → P (mCycle s)) : ∀ (n : Nat) (s : State), P s → P (advance n s)
  | 0, _, hs => hs
  | n + 1, s, hs => advance_induct h n (mCycle s) (h s hs)

/-- Four dots with the memory they all see, their pixels at the end of the port. -/
theorem dots_eq (s : State) :
    dot (dot (dot (dot s))) =
      { s with
        video := (runDots s.params (fun _ => s.mem) 4 s.video).1
        pixelsOut := s.pixelsOut ++ (runDots s.params (fun _ => s.mem) 4 s.video).2 } := by
  simp only [dot, runDots, List.append_assoc, List.nil_append]

/-- One M-cycle: the tick, the four dots, the reconciliation. -/
theorem mCycle_eq (s : State) :
    mCycle s =
      { clockTick s with
        video := (runDots s.params (fun _ => (clockTick s).mem) 4 (clockTick s).video).1
        pixelsOut := (clockTick s).pixelsOut ++ (runDots s.params (fun _ => (clockTick s).mem) 4 (clockTick s).video).2
        mem := reconcile (ppuTag s.video.mode)
          (runDots s.params (fun _ => (clockTick s).mem) 4 (clockTick s).video).1.mode (clockTick s).mem } := by
  rw [mCycle, batch, dots_eq]
  rfl

theorem mCycle_cyc (s : State) : (mCycle s).cyc = nextCyc s.params s.cyc := by
  simp [mCycle, clockTick]

/-- The Clock counts the M-cycles played. -/
theorem advance_cyc : ∀ (n : Nat) (s : State), s.cyc < 2 ^ s.params.clkWidth →
    (advance n s).cyc = (s.cyc + n) % 2 ^ s.params.clkWidth
  | 0, s, h => by simp [advance, Nat.mod_eq_of_lt h]
  | n + 1, s, h => by
    have hp : 0 < 2 ^ s.params.clkWidth := Nat.two_pow_pos _
    rw [advance_succ, advance_cyc n (mCycle s) (by simpa [mCycle_cyc, nextCyc] using Nat.mod_lt _ hp)]
    simp [mCycle_cyc, nextCyc]
    congr 1
    omega

/-- A dot emits at most one pixel. -/
theorem dot_pixels (s : State) : (dot s).pixelsOut.length ≤ s.pixelsOut.length + 1 := by
  cases h : (tickOneDot s.params s.mem s.video).2 <;> simp [dot, h]

theorem mCycle_pixels (s : State) : (mCycle s).pixelsOut.length ≤ s.pixelsOut.length + 4 := by
  have h1 := dot_pixels (clockTick s)
  have h2 := dot_pixels (dot (clockTick s))
  have h3 := dot_pixels (dot (dot (clockTick s)))
  have h4 := dot_pixels (dot (dot (dot (clockTick s))))
  have h0 : (clockTick s).pixelsOut = s.pixelsOut := by simp
  rw [h0] at h1
  have : (mCycle s).pixelsOut = (dot (dot (dot (dot (clockTick s))))).pixelsOut := rfl
  rw [this]
  omega

/-- `advance(n)` emits at most `4 n` pixels. -/
theorem advance_pixels : ∀ (n : Nat) (s : State), (advance n s).pixelsOut.length ≤ s.pixelsOut.length + 4 * n
  | 0, s => by simp [advance]
  | n + 1, s => by
    have h1 := advance_pixels n (mCycle s)
    have h2 := mCycle_pixels s
    rw [advance_succ]
    omega

/-! ## The interrupt check and the fold -/

theorem dispatches_eq_true {s : State} : dispatches s = true ↔ s.ime = true ∧ pendingSources s.mem ≠ 0 := by
  simp [dispatches]

theorem serviceInterrupts_of_dispatches {s : State} (h : dispatches s = true) :
    serviceInterrupts s = advance 5 (takeInterrupt (lowestSource (pendingSources s.mem)) s) := by
  simp [serviceInterrupts, h]

theorem serviceInterrupts_of_not {s : State} (h : dispatches s = false) : serviceInterrupts s = s := by
  simp [serviceInterrupts, h]

/-- The source taken: the least one set in the low five bits. -/
theorem lowestSource_spec (q : Byte) (h : q &&& 0x1F#8 ≠ 0) :
    lowestSource (q &&& 0x1F#8) < 5 ∧ (q &&& 0x1F#8).getLsbD (lowestSource (q &&& 0x1F#8)) = true ∧
      ∀ j, j < lowestSource (q &&& 0x1F#8) → (q &&& 0x1F#8).getLsbD j = false := by
  revert q
  decide +kernel

/-- Taking an interrupt, field by field. -/
theorem takeInterrupt_eq (i : Nat) (s : State) :
    takeInterrupt i s =
      { s with
        ime := false
        sp := s.sp - 2
        pc := irqVector i
        mem := memWrite (s.pushPlain s.pc).mem ifAddr (memRead (s.pushPlain s.pc).mem ifAddr &&& ~~~(irqBit i)) } := by
  simp only [takeInterrupt, pushPlain_eq, State.write, State.read]

/-- A check that dispatches leaves IME clear, SP two lower, and PC at the vector of the least pending source. -/
theorem serviceInterrupts_vector {c : State} (h : dispatches c = true) :
    (serviceInterrupts c).ime = false ∧ (serviceInterrupts c).sp = c.sp - 2 ∧
      ∃ i, i < 5 ∧ (pendingSources c.mem).getLsbD i = true ∧ (∀ j, j < i → (pendingSources c.mem).getLsbD j = false) ∧
        (serviceInterrupts c).pc = BitVec.ofNat 16 (0x0040 + 8 * i) := by
  obtain ⟨hi, hb, hl⟩ := lowestSource_spec _ (dispatches_eq_true.1 h).2
  rw [serviceInterrupts_of_dispatches h]
  refine ⟨by simp [takeInterrupt_eq], by simp [takeInterrupt_eq], _, hi, hb, hl, ?_⟩
  simp only [advance_frame, takeInterrupt_eq]
  rfl

/-- Parts (b) to (e), in order, from the state after the instruction. -/
theorem finishStep_eq (s : State) :
    finishStep s =
      clearReport (serialProbe (applyFold (advance s.report.cycles s) s.report.enteredHalt
        (serviceInterrupts (advance s.report.cycles s)))) := rfl

@[simp] theorem finishStep_ime (s : State) :
    (finishStep s).ime = (serviceInterrupts (advance s.report.cycles s)).ime := by simp [finishStep]

@[simp] theorem finishStep_pc (s : State) :
    (finishStep s).pc = (serviceInterrupts (advance s.report.cycles s)).pc := by simp [finishStep]

@[simp] theorem finishStep_sp (s : State) :
    (finishStep s).sp = (serviceInterrupts (advance s.report.cycles s)).sp := by simp [finishStep]

@[simp] theorem finishStep_cyc (s : State) :
    (finishStep s).cyc = (serviceInterrupts (advance s.report.cycles s)).cyc := by simp [finishStep]

@[simp] theorem finishStep_video (s : State) :
    (finishStep s).video = (serviceInterrupts (advance s.report.cycles s)).video := by simp [finishStep]

@[simp] theorem finishStep_pixelsOut (s : State) :
    (finishStep s).pixelsOut = (serviceInterrupts (advance s.report.cycles s)).pixelsOut := by simp [finishStep]

/-! The rows of R405. -/

@[simp] theorem foldHalt_bug (old : HaltState) : foldHalt true true false old = .haltBug := rfl

@[simp] theorem foldHalt_wake_ime (wasHalt : Bool) (old : HaltState) : foldHalt true wasHalt true old = .running := by
  cases wasHalt <;> rfl

@[simp] theorem foldHalt_wake (ime : Bool) (old : HaltState) : foldHalt true false ime old = .running := by
  cases ime <;> rfl

@[simp] theorem foldHalt_sleep (ime : Bool) (old : HaltState) : foldHalt false true ime old = .halted := by
  cases ime <;> rfl

@[simp] theorem foldHalt_keep (ime : Bool) (old : HaltState) : foldHalt false false ime old = old := by
  cases ime <;> rfl

/-- The HALT state after a step. -/
theorem finishStep_haltState (s : State) :
    (finishStep s).haltState =
      foldHalt (decide (pendingSources (advance s.report.cycles s).mem ≠ 0)) s.report.enteredHalt s.ime s.haltState := by
  simp [finishStep, applyFold]

/-! ## Memory across the parts of a step -/

theorem raiseIrq_eq (i : Nat) (m : Memory) : raiseIrq i m = memWrite m ifAddr (memRead m ifAddr ||| irqBit i) := rfl

/-- A property of memory that every bus write keeps, a Clock tick keeps. -/
theorem clockTick_mem {P : Memory → Prop} (h : ∀ m a v, P m → P (memWrite m a v)) {s : State} (hs : P s.mem) :
    P (clockTick s).mem := by
  simp only [clockTick, timerStep, dividerStep, raiseIrq]
  repeat' split
  all_goals first | exact hs | exact h _ _ _ hs | exact h _ _ _ (h _ _ _ hs) | exact h _ _ _ (h _ _ _ (h _ _ _ hs))

/-- … a reconciliation keeps. -/
theorem reconcile_mem {P : Memory → Prop} (h : ∀ m a v, P m → P (memWrite m a v)) (before : PpuTag) (after : PpuMode)
    {m : Memory} (hm : P m) : P (reconcile before after m) := by
  have h2 : P (memWrite (memWrite m lyAddr (byteOf (scanlineOf after))) statAddr
      (newStat (memRead m statAddr)
        (byteOf (scanlineOf after) = memRead (memWrite m lyAddr (byteOf (scanlineOf after))) lycAddr)
        (ppuTag after))) := h _ _ _ (h _ _ _ hm)
  simp only [reconcile, raiseIrq]
  split <;> split
  · exact h _ _ _ (h _ _ _ h2)
  · exact h _ _ _ h2
  · exact h _ _ _ h2
  · exact h2

/-- … an M-cycle keeps. -/
theorem mCycle_mem {P : Memory → Prop} (h : ∀ m a v, P m → P (memWrite m a v)) {s : State} (hs : P s.mem) :
    P (mCycle s).mem := by
  have h1 : (mCycle s).mem =
      reconcile (ppuTag (clockTick s).video.mode) (dot (dot (dot (dot (clockTick s))))).video.mode
        (dot (dot (dot (dot (clockTick s))))).mem := rfl
  rw [h1]
  refine reconcile_mem h _ _ ?_
  simpa using clockTick_mem h hs

theorem advance_mem {P : Memory → Prop} (h : ∀ m a v, P m → P (memWrite m a v)) (n : Nat) {s : State} (hs : P s.mem) :
    P (advance n s).mem :=
  advance_induct (P := fun s => P s.mem) (fun _ hs => mCycle_mem h hs) n s hs

theorem takeInterrupt_mem {P : Memory → Prop} (h : ∀ m a v, P m → P (memWrite m a v)) (i : Nat) {s : State}
    (hs : P s.mem) : P (takeInterrupt i s).mem := by
  rw [takeInterrupt_eq]
  dsimp only
  refine h _ _ _ ?_
  rw [pushPlain_mem]
  exact h _ _ _ (h _ _ _ hs)

theorem serviceInterrupts_mem {P : Memory → Prop} (h : ∀ m a v, P m → P (memWrite m a v)) {s : State} (hs : P s.mem) :
    P (serviceInterrupts s).mem := by
  unfold serviceInterrupts
  split
  · exact advance_mem h 5 (takeInterrupt_mem h _ hs)
  · exact hs

theorem serialProbe_mem {P : Memory → Prop} (h : ∀ m a v, P m → P (memWrite m a v)) {s : State} (hs : P s.mem) :
    P (serialProbe s).mem := by
  unfold serialProbe probeMemory raiseIrq
  split
  · dsimp only
    split
    · exact h _ _ _ (h _ _ _ hs)
    · exact h _ _ _ hs
  · exact hs

/-- … and parts (b) to (e) of a step keep. -/
theorem finishStep_mem {P : Memory → Prop} (h : ∀ m a v, P m → P (memWrite m a v)) {s : State} (hs : P s.mem) :
    P (finishStep s).mem := by
  have h1 : P (serviceInterrupts (advance s.report.cycles s)).mem :=
    serviceInterrupts_mem h (advance_mem h _ hs)
  have h2 := serialProbe_mem h (s := applyFold (advance s.report.cycles s) s.report.enteredHalt
    (serviceInterrupts (advance s.report.cycles s))) (by simpa using h1)
  simpa [finishStep] using h2

end Sys2Proof.Machine
end

