-- ==== Sys2Proof/Laws/Exec.lean ====
section
/-! SUPPORT. What `exec` can do over all instructions, for claims that do not look at one instruction. -/

namespace Sys2Proof.Machine

/-- What an instruction can do, in five shapes: complete without a store; store one byte and complete; push a word and
complete; `LD (nn),SP`; abort. `storeAddresses` names the addresses. -/
theorem exec_shape (i : Instr) (hp : i ≠ .prefixCb) (s : State) :
    (∃ t, exec i s = .next t ∧ storeAddresses i s = [] ∧ t.mem = s.mem) ∨
    (∃ a v k, exec i s = andThen (store a v s) k ∧ storeAddresses i s = [a] ∧
      ∀ u, ∃ t, k u = .next t ∧ t.mem = u.mem) ∨
    (∃ w k, exec i s = andThen (push16 w s) k ∧ storeAddresses i s = [s.sp - 1, s.sp - 2] ∧
      ∀ u, ∃ t, k u = .next t ∧ t.mem = u.mem) ∨
    (∃ nn, i = .ldNnSp nn) ∨
    (∃ op, exec i s = .fault (.unknownOpcode op s.opcodeAddr) ∧ storeAddresses i s = [] ∧
      (isIllegal i = true ∨ i = .stop ∧ s.params.stopPolicy = .fault)) := by
  cases i
  case prefixCb => exact absurd rfl hp
  case ldNnSp nn => exact .inr (.inr (.inr (.inl ⟨nn, rfl⟩)))
  case stop =>
    cases hq : s.params.stopPolicy
    · exact .inr (.inr (.inr (.inr ⟨0x10, by simp [exec, execStop, hq, unknownOpcode], rfl, .inr ⟨rfl, rfl⟩⟩)))
    · exact .inl ⟨((fetch8 s).2).reportCycles 1, by simp [exec, execStop, hq, done], rfl, rfl⟩
  case ei =>
    refine .inl ?_
    simp only [exec, execEi]
    split <;> exact ⟨_, rfl, rfl, rfl⟩
  case jpCcNn cc nn =>
    refine .inl ?_
    simp only [exec, execJpCcNn]
    split <;> exact ⟨_, rfl, rfl, rfl⟩
  case jrCcE cc nn =>
    refine .inl ?_
    simp only [exec, execJrCcE]
    split <;> exact ⟨_, rfl, rfl, rfl⟩
  case retCc cc =>
    refine .inl ?_
    simp only [exec, execRetCc]
    split <;> exact ⟨_, rfl, rfl, rfl⟩
  case callCcNn cc nn =>
    cases hc : s.cond cc
    · exact .inl ⟨s.reportCycles 3, by simp [exec, execCallCcNn, hc, done], (if_neg (by simp [hc]) : storeAddresses (.callCcNn cc nn) s = []), rfl⟩
    · refine .inr (.inr (.inl ⟨s.pc, fun u => done 6 (jumpTo nn u), ?_,
        (if_pos hc : storeAddresses (.callCcNn cc nn) s = [s.sp - 1, s.sp - 2]), fun u => ⟨_, rfl, rfl⟩⟩))
      simp only [exec, execCallCcNn, hc, callTo, if_true]
      cases push16 s.pc s <;> rfl
  case callNn nn =>
    refine .inr (.inr (.inl ⟨s.pc, fun u => done 6 (jumpTo nn u), ?_, rfl, fun u => ⟨_, rfl, rfl⟩⟩))
    simp only [exec, execCallNn, callTo]
    cases push16 s.pc s <;> rfl
  case rstT t =>
    refine .inr (.inr (.inl
      ⟨s.pc, fun u => done 4 (jumpTo (BitVec.ofNat 16 (8 * t)) u), ?_, rfl, fun u => ⟨_, rfl, rfl⟩⟩))
    simp only [exec, execRstT, callTo]
    cases push16 s.pc s <;> rfl
  case pushRr rr => exact .inr (.inr (.inl ⟨s.getStk rr, done 4, rfl, rfl, fun u => ⟨_, rfl, rfl⟩⟩))
  case popRr rr => exact .inl ⟨_, rfl, rfl, by simp⟩
  case incR _ => exact .inl ⟨_, rfl, rfl, by simp⟩
  case decR _ => exact .inl ⟨_, rfl, rfl, by simp⟩
  case setBR _ _ => exact .inl ⟨_, rfl, rfl, by simp⟩
  case resBR _ _ => exact .inl ⟨_, rfl, rfl, by simp⟩
  case rlcR _ => exact .inl ⟨_, rfl, rfl, by simp⟩
  case rrcR _ => exact .inl ⟨_, rfl, rfl, by simp⟩
  case rlR _ => exact .inl ⟨_, rfl, rfl, by simp⟩
  case rrR _ => exact .inl ⟨_, rfl, rfl, by simp⟩
  case slaR _ => exact .inl ⟨_, rfl, rfl, by simp⟩
  case sraR _ => exact .inl ⟨_, rfl, rfl, by simp⟩
  case swapR _ => exact .inl ⟨_, rfl, rfl, by simp⟩
  case srlR _ => exact .inl ⟨_, rfl, rfl, by simp⟩
  case ldRR _ _ => exact .inl ⟨_, rfl, rfl, by simp⟩
  case ldRN _ _ => exact .inl ⟨_, rfl, rfl, by simp⟩
  case ldRInd _ => exact .inl ⟨_, rfl, rfl, by simp⟩
  case ldRrNn _ _ => exact .inl ⟨_, rfl, rfl, by simp⟩
  case incRr _ => exact .inl ⟨_, rfl, rfl, by simp⟩
  case decRr _ => exact .inl ⟨_, rfl, rfl, by simp⟩
  case ldABc => exact .inl ⟨_, rfl, rfl, rfl⟩
  case ldADe => exact .inl ⟨_, rfl, rfl, rfl⟩
  case ldANn _ => exact .inl ⟨_, rfl, rfl, rfl⟩
  case ldhAC => exact .inl ⟨_, rfl, rfl, rfl⟩
  case ldhAN _ => exact .inl ⟨_, rfl, rfl, rfl⟩
  case ldAHlDec => exact .inl ⟨_, rfl, rfl, rfl⟩
  case ldAHlInc => exact .inl ⟨_, rfl, rfl, rfl⟩
  case ldSpHl => exact .inl ⟨_, rfl, rfl, rfl⟩
  case ldHlSpE _ => exact .inl ⟨_, rfl, rfl, rfl⟩
  case addR _ => exact .inl ⟨_, rfl, rfl, rfl⟩
  case addInd => exact .inl ⟨_, rfl, rfl, rfl⟩
  case addN _ => exact .inl ⟨_, rfl, rfl, rfl⟩
  case adcR _ => exact .inl ⟨_, rfl, rfl, rfl⟩
  case adcInd => exact .inl ⟨_, rfl, rfl, rfl⟩
  case adcN _ => exact .inl ⟨_, rfl, rfl, rfl⟩
  case subR _ => exact .inl ⟨_, rfl, rfl, rfl⟩
  case subInd => exact .inl ⟨_, rfl, rfl, rfl⟩
  case subN _ => exact .inl ⟨_, rfl, rfl, rfl⟩
  case sbcR _ => exact .inl ⟨_, rfl, rfl, rfl⟩
  case sbcInd => exact .inl ⟨_, rfl, rfl, rfl⟩
  case sbcN _ => exact .inl ⟨_, rfl, rfl, rfl⟩
  case andR _ => exact .inl ⟨_, rfl, rfl, rfl⟩
  case andInd => exact .inl ⟨_, rfl, rfl, rfl⟩
  case andN _ => exact .inl ⟨_, rfl, rfl, rfl⟩
  case xorR _ => exact .inl ⟨_, rfl, rfl, rfl⟩
  case xorInd => exact .inl ⟨_, rfl, rfl, rfl⟩
  case xorN _ => exact .inl ⟨_, rfl, rfl, rfl⟩
  case orR _ => exact .inl ⟨_, rfl, rfl, rfl⟩
  case orInd => exact .inl ⟨_, rfl, rfl, rfl⟩
  case orN _ => exact .inl ⟨_, rfl, rfl, rfl⟩
  case cpR _ => exact .inl ⟨_, rfl, rfl, rfl⟩
  case cpInd => exact .inl ⟨_, rfl, rfl, rfl⟩
  case cpN _ => exact .inl ⟨_, rfl, rfl, rfl⟩
  case daa => exact .inl ⟨_, rfl, rfl, rfl⟩
  case cpl => exact .inl ⟨_, rfl, rfl, rfl⟩
  case scf => exact .inl ⟨_, rfl, rfl, rfl⟩
  case ccf => exact .inl ⟨_, rfl, rfl, rfl⟩
  case addHlRr _ => exact .inl ⟨_, rfl, rfl, rfl⟩
  case addSpE _ => exact .inl ⟨_, rfl, rfl, rfl⟩
  case rlca => exact .inl ⟨_, rfl, rfl, rfl⟩
  case rrca => exact .inl ⟨_, rfl, rfl, rfl⟩
  case rla => exact .inl ⟨_, rfl, rfl, rfl⟩
  case rra => exact .inl ⟨_, rfl, rfl, rfl⟩
  case jpNn _ => exact .inl ⟨_, rfl, rfl, rfl⟩
  case jpHl => exact .inl ⟨_, rfl, rfl, rfl⟩
  case jrE _ => exact .inl ⟨_, rfl, rfl, rfl⟩
  case ret => exact .inl ⟨_, rfl, rfl, rfl⟩
  case reti => exact .inl ⟨_, rfl, rfl, rfl⟩
  case nop => exact .inl ⟨_, rfl, rfl, rfl⟩
  case halt => exact .inl ⟨_, rfl, rfl, rfl⟩
  case di => exact .inl ⟨_, rfl, rfl, rfl⟩
  case bitBR _ _ => exact .inl ⟨_, rfl, rfl, rfl⟩
  case bitBInd _ => exact .inl ⟨_, rfl, rfl, rfl⟩
  case ldIndR _ => exact .inr (.inl ⟨_, _, _, rfl, rfl, fun u => ⟨_, rfl, rfl⟩⟩)
  case ldIndN _ => exact .inr (.inl ⟨_, _, _, rfl, rfl, fun u => ⟨_, rfl, rfl⟩⟩)
  case ldHlDecA => exact .inr (.inl ⟨_, _, _, rfl, rfl, fun u => ⟨_, rfl, rfl⟩⟩)
  case ldHlIncA => exact .inr (.inl ⟨_, _, _, rfl, rfl, fun u => ⟨_, rfl, rfl⟩⟩)
  case incInd => exact .inr (.inl ⟨_, _, _, rfl, rfl, fun u => ⟨_, rfl, rfl⟩⟩)
  case decInd => exact .inr (.inl ⟨_, _, _, rfl, rfl, fun u => ⟨_, rfl, rfl⟩⟩)
  case rlcInd => exact .inr (.inl ⟨_, _, _, rfl, rfl, fun u => ⟨_, rfl, rfl⟩⟩)
  case rrcInd => exact .inr (.inl ⟨_, _, _, rfl, rfl, fun u => ⟨_, rfl, rfl⟩⟩)
  case rlInd => exact .inr (.inl ⟨_, _, _, rfl, rfl, fun u => ⟨_, rfl, rfl⟩⟩)
  case rrInd => exact .inr (.inl ⟨_, _, _, rfl, rfl, fun u => ⟨_, rfl, rfl⟩⟩)
  case slaInd => exact .inr (.inl ⟨_, _, _, rfl, rfl, fun u => ⟨_, rfl, rfl⟩⟩)
  case sraInd => exact .inr (.inl ⟨_, _, _, rfl, rfl, fun u => ⟨_, rfl, rfl⟩⟩)
  case swapInd => exact .inr (.inl ⟨_, _, _, rfl, rfl, fun u => ⟨_, rfl, rfl⟩⟩)
  case srlInd => exact .inr (.inl ⟨_, _, _, rfl, rfl, fun u => ⟨_, rfl, rfl⟩⟩)
  case resBInd _ => exact .inr (.inl ⟨_, _, _, rfl, rfl, fun u => ⟨_, rfl, rfl⟩⟩)
  case setBInd _ => exact .inr (.inl ⟨_, _, _, rfl, rfl, fun u => ⟨_, rfl, rfl⟩⟩)
  case ldBcA => exact .inr (.inl ⟨_, _, _, rfl, rfl, fun u => ⟨_, rfl, rfl⟩⟩)
  case ldDeA => exact .inr (.inl ⟨_, _, _, rfl, rfl, fun u => ⟨_, rfl, rfl⟩⟩)
  case ldNnA _ => exact .inr (.inl ⟨_, _, _, rfl, rfl, fun u => ⟨_, rfl, rfl⟩⟩)
  case ldhCA => exact .inr (.inl ⟨_, _, _, rfl, rfl, fun u => ⟨_, rfl, rfl⟩⟩)
  case ldhNA _ => exact .inr (.inl ⟨_, _, _, rfl, rfl, fun u => ⟨_, rfl, rfl⟩⟩)
  case illegalD3 => exact .inr (.inr (.inr (.inr ⟨_, rfl, rfl, .inl rfl⟩)))
  case illegalDB => exact .inr (.inr (.inr (.inr ⟨_, rfl, rfl, .inl rfl⟩)))
  case illegalDD => exact .inr (.inr (.inr (.inr ⟨_, rfl, rfl, .inl rfl⟩)))
  case illegalE3 => exact .inr (.inr (.inr (.inr ⟨_, rfl, rfl, .inl rfl⟩)))
  case illegalE4 => exact .inr (.inr (.inr (.inr ⟨_, rfl, rfl, .inl rfl⟩)))
  case illegalEB => exact .inr (.inr (.inr (.inr ⟨_, rfl, rfl, .inl rfl⟩)))
  case illegalEC => exact .inr (.inr (.inr (.inr ⟨_, rfl, rfl, .inl rfl⟩)))
  case illegalED => exact .inr (.inr (.inr (.inr ⟨_, rfl, rfl, .inl rfl⟩)))
  case illegalF4 => exact .inr (.inr (.inr (.inr ⟨_, rfl, rfl, .inl rfl⟩)))
  case illegalFC => exact .inr (.inr (.inr (.inr ⟨_, rfl, rfl, .inl rfl⟩)))
  case illegalFD => exact .inr (.inr (.inr (.inr ⟨_, rfl, rfl, .inl rfl⟩)))

end Sys2Proof.Machine
end

