-- ==== Sys2Proof/Laws/PerInstr.lean ====
section
/-! SUPPORT. Laws for every instruction as syntax: the bytes its encoding has are the bytes the decoder takes (R107). -/

namespace Sys2Proof.Laws.TableLength

/-- The encoding has as many bytes as the instruction is fetched in. -/
def Statement (i : Instr) : Prop := (encode i).length = i.length

theorem ldRR (dst : Reg8) (src : Reg8) : Statement (.ldRR dst src) := rfl

theorem ldRN (dst : Reg8) (n : Byte) : Statement (.ldRN dst n) := rfl

theorem ldRInd (dst : Reg8) : Statement (.ldRInd dst) := rfl

theorem ldIndR (src : Reg8) : Statement (.ldIndR src) := rfl

theorem ldIndN (n : Byte) : Statement (.ldIndN n) := rfl

theorem ldABc : Statement .ldABc := rfl

theorem ldADe : Statement .ldADe := rfl

theorem ldBcA : Statement .ldBcA := rfl

theorem ldDeA : Statement .ldDeA := rfl

theorem ldANn (nn : Word) : Statement (.ldANn nn) := rfl

theorem ldNnA (nn : Word) : Statement (.ldNnA nn) := rfl

theorem ldhAC : Statement .ldhAC := rfl

theorem ldhCA : Statement .ldhCA := rfl

theorem ldhAN (n : Byte) : Statement (.ldhAN n) := rfl

theorem ldhNA (n : Byte) : Statement (.ldhNA n) := rfl

theorem ldAHlDec : Statement .ldAHlDec := rfl

theorem ldHlDecA : Statement .ldHlDecA := rfl

theorem ldAHlInc : Statement .ldAHlInc := rfl

theorem ldHlIncA : Statement .ldHlIncA := rfl

theorem ldRrNn (rr : Reg16) (nn : Word) : Statement (.ldRrNn rr nn) := rfl

theorem ldNnSp (nn : Word) : Statement (.ldNnSp nn) := rfl

theorem ldSpHl : Statement .ldSpHl := rfl

theorem pushRr (rr : StkReg) : Statement (.pushRr rr) := rfl

theorem popRr (rr : StkReg) : Statement (.popRr rr) := rfl

theorem ldHlSpE (e : Byte) : Statement (.ldHlSpE e) := rfl

theorem addR (src : Reg8) : Statement (.addR src) := rfl

theorem addInd : Statement .addInd := rfl

theorem addN (n : Byte) : Statement (.addN n) := rfl

theorem adcR (src : Reg8) : Statement (.adcR src) := rfl

theorem adcInd : Statement .adcInd := rfl

theorem adcN (n : Byte) : Statement (.adcN n) := rfl

theorem subR (src : Reg8) : Statement (.subR src) := rfl

theorem subInd : Statement .subInd := rfl

theorem subN (n : Byte) : Statement (.subN n) := rfl

theorem sbcR (src : Reg8) : Statement (.sbcR src) := rfl

theorem sbcInd : Statement .sbcInd := rfl

theorem sbcN (n : Byte) : Statement (.sbcN n) := rfl

theorem andR (src : Reg8) : Statement (.andR src) := rfl

theorem andInd : Statement .andInd := rfl

theorem andN (n : Byte) : Statement (.andN n) := rfl

theorem xorR (src : Reg8) : Statement (.xorR src) := rfl

theorem xorInd : Statement .xorInd := rfl

theorem xorN (n : Byte) : Statement (.xorN n) := rfl

theorem orR (src : Reg8) : Statement (.orR src) := rfl

theorem orInd : Statement .orInd := rfl

theorem orN (n : Byte) : Statement (.orN n) := rfl

theorem cpR (src : Reg8) : Statement (.cpR src) := rfl

theorem cpInd : Statement .cpInd := rfl

theorem cpN (n : Byte) : Statement (.cpN n) := rfl

theorem incR (dst : Reg8) : Statement (.incR dst) := rfl

theorem incInd : Statement .incInd := rfl

theorem decR (dst : Reg8) : Statement (.decR dst) := rfl

theorem decInd : Statement .decInd := rfl

theorem daa : Statement .daa := rfl

theorem cpl : Statement .cpl := rfl

theorem scf : Statement .scf := rfl

theorem ccf : Statement .ccf := rfl

theorem addHlRr (rr : Reg16) : Statement (.addHlRr rr) := rfl

theorem incRr (rr : Reg16) : Statement (.incRr rr) := rfl

theorem decRr (rr : Reg16) : Statement (.decRr rr) := rfl

theorem addSpE (e : Byte) : Statement (.addSpE e) := rfl

theorem rlca : Statement .rlca := rfl

theorem rrca : Statement .rrca := rfl

theorem rla : Statement .rla := rfl

theorem rra : Statement .rra := rfl

theorem jpNn (nn : Word) : Statement (.jpNn nn) := rfl

theorem jpCcNn (cc : Cond) (nn : Word) : Statement (.jpCcNn cc nn) := rfl

theorem jpHl : Statement .jpHl := rfl

theorem jrE (e : Byte) : Statement (.jrE e) := rfl

theorem jrCcE (cc : Cond) (e : Byte) : Statement (.jrCcE cc e) := rfl

theorem callNn (nn : Word) : Statement (.callNn nn) := rfl

theorem callCcNn (cc : Cond) (nn : Word) : Statement (.callCcNn cc nn) := rfl

theorem ret : Statement .ret := rfl

theorem retCc (cc : Cond) : Statement (.retCc cc) := rfl

theorem reti : Statement .reti := rfl

theorem rstT (t : Nat) : Statement (.rstT t) := rfl

theorem nop : Statement .nop := rfl

theorem halt : Statement .halt := rfl

theorem stop : Statement .stop := rfl

theorem di : Statement .di := rfl

theorem ei : Statement .ei := rfl

theorem prefixCb : Statement .prefixCb := rfl

theorem illegalD3 : Statement .illegalD3 := rfl

theorem illegalDB : Statement .illegalDB := rfl

theorem illegalDD : Statement .illegalDD := rfl

theorem illegalE3 : Statement .illegalE3 := rfl

theorem illegalE4 : Statement .illegalE4 := rfl

theorem illegalEB : Statement .illegalEB := rfl

theorem illegalEC : Statement .illegalEC := rfl

theorem illegalED : Statement .illegalED := rfl

theorem illegalF4 : Statement .illegalF4 := rfl

theorem illegalFC : Statement .illegalFC := rfl

theorem illegalFD : Statement .illegalFD := rfl

theorem rlcR (r : Reg8) : Statement (.rlcR r) := rfl

theorem rlcInd : Statement .rlcInd := rfl

theorem rrcR (r : Reg8) : Statement (.rrcR r) := rfl

theorem rrcInd : Statement .rrcInd := rfl

theorem rlR (r : Reg8) : Statement (.rlR r) := rfl

theorem rlInd : Statement .rlInd := rfl

theorem rrR (r : Reg8) : Statement (.rrR r) := rfl

theorem rrInd : Statement .rrInd := rfl

theorem slaR (r : Reg8) : Statement (.slaR r) := rfl

theorem slaInd : Statement .slaInd := rfl

theorem sraR (r : Reg8) : Statement (.sraR r) := rfl

theorem sraInd : Statement .sraInd := rfl

theorem swapR (r : Reg8) : Statement (.swapR r) := rfl

theorem swapInd : Statement .swapInd := rfl

theorem srlR (r : Reg8) : Statement (.srlR r) := rfl

theorem srlInd : Statement .srlInd := rfl

theorem bitBR (b : Nat) (r : Reg8) : Statement (.bitBR b r) := rfl

theorem bitBInd (b : Nat) : Statement (.bitBInd b) := rfl

theorem resBR (b : Nat) (r : Reg8) : Statement (.resBR b r) := rfl

theorem resBInd (b : Nat) : Statement (.resBInd b) := rfl

theorem setBR (b : Nat) (r : Reg8) : Statement (.setBR b r) := rfl

theorem setBInd (b : Nat) : Statement (.setBInd b) := rfl

end Sys2Proof.Laws.TableLength
end

