-- ==== Sys2Proof/Laws/Video.lean ====
section
/-! SUPPORT. What a dot of the VideoUnit can do, mode by mode; that it keeps the unit's ranges; sequences of dots; the
selection of sprites. -/

namespace Sys2Proof.Machine

/-! ## One dot, mode by mode -/

theorem tickOneDot_off {m : Memory} (h : (memRead m lcdcAddr).getLsbD 7 = false) (p : Params) (v : Video) :
    tickOneDot p m v = ({ mode := .stopped, wlc := v.wlc }, none) := by
  simp only [tickOneDot, h, Bool.false_eq_true, if_false]

theorem tickOneDot_stopped {m : Memory} (h : (memRead m lcdcAddr).getLsbD 7 = true) (p : Params) (wlc : Nat) :
    tickOneDot p m { mode := .stopped, wlc := wlc } = ({ mode := .oamScan 0 79, wlc := 0 }, none) := by
  simp only [tickOneDot, h, if_true]; rfl

theorem tickOneDot_oamScan {m : Memory} (h : (memRead m lcdcAddr).getLsbD 7 = true) (p : Params) (wlc ly n : Nat) :
    tickOneDot p m { mode := .oamScan ly (n + 2), wlc := wlc } = ({ mode := .oamScan ly (n + 1), wlc := wlc }, none) := by
  simp only [tickOneDot, h, if_true]; rfl

theorem tickOneDot_oamScan_last {m : Memory} (h : (memRead m lcdcAddr).getLsbD 7 = true) (p : Params) (wlc ly : Nat) :
    tickOneDot p m { mode := .oamScan ly 1, wlc := wlc } = ({ mode := startDraw m (memRead m lcdcAddr) ly, wlc := wlc }, none) := by
  simp only [tickOneDot, h, if_true]; rfl

theorem tickOneDot_draw {m : Memory} (h : (memRead m lcdcAddr).getLsbD 7 = true) (p : Params) (wlc : Nat) (line : DrawLine) :
    tickOneDot p m { mode := .draw line, wlc := wlc } = drawTick p m (memRead m lcdcAddr) wlc line := by
  simp only [tickOneDot, h, if_true]

theorem tickOneDot_hBlank {m : Memory} (h : (memRead m lcdcAddr).getLsbD 7 = true) (p : Params) (wlc ly n : Nat) :
    tickOneDot p m { mode := .hBlank ly (n + 2), wlc := wlc } = ({ mode := .hBlank ly (n + 1), wlc := wlc }, none) := by
  simp only [tickOneDot, h, if_true]; rfl

theorem tickOneDot_hBlank_last {m : Memory} (h : (memRead m lcdcAddr).getLsbD 7 = true) (p : Params) (wlc ly : Nat) :
    tickOneDot p m { mode := .hBlank ly 1, wlc := wlc } =
      ({ mode := if ly + 1 = 144 then .vBlank 4560 else .oamScan (ly + 1) 80, wlc := wlc }, none) := by
  simp only [tickOneDot, h, if_true, hBlankTick]
  by_cases hl : ly + 1 = 144 <;> simp only [hl, if_true, if_false] <;> rfl

theorem tickOneDot_vBlank {m : Memory} (h : (memRead m lcdcAddr).getLsbD 7 = true) (p : Params) (wlc n : Nat) :
    tickOneDot p m { mode := .vBlank (n + 2), wlc := wlc } = ({ mode := .vBlank (n + 1), wlc := wlc }, none) := by
  simp only [tickOneDot, h, if_true]; rfl

theorem tickOneDot_vBlank_last {m : Memory} (h : (memRead m lcdcAddr).getLsbD 7 = true) (p : Params) (wlc : Nat) :
    tickOneDot p m { mode := .vBlank 1, wlc := wlc } = ({ mode := .oamScan 0 80, wlc := 0 }, none) := by
  simp only [tickOneDot, h, if_true]; rfl

theorem hBlankDots_of_lt (p : Params) {dots : Nat} (h : dots < 376) : hBlankDots p dots = 376 - dots := if_pos h

/-- HBlank has a dot, whatever the free value. -/
theorem hBlankDots_pos (p : Params) (dots : Nat) : 1 ≤ hBlankDots p dots := by
  unfold hBlankDots
  split <;> omega

/-- What emitting a column does. -/
theorem emitTick_eq (p : Params) (m : Memory) (lcdc : Byte) (wlc : Nat) (line : DrawLine) :
    emitTick p m lcdc wlc line =
      ({ mode := if line.col + 1 = 160 then .hBlank line.ly (hBlankDots p line.dots) else .draw { line with col := line.col + 1 }
         wlc := if line.col + 1 = 160 ∧ line.windowShown = true then wlc + 1 else wlc },
        some { x := line.col, y := line.ly, color := pixelColor m lcdc wlc line.sprites line.col line.ly }) := by
  unfold emitTick
  dsimp only
  by_cases h : line.col + 1 = 160 <;> simp only [h, if_true, if_false, true_and, false_and]

/-- What one dot of Draw can do: spend a penalty dot, start the window stall, or emit a column. -/
theorem drawTick_cases (p : Params) (m : Memory) (lcdc : Byte) (wlc : Nat) (line : DrawLine) :
    (∃ penalty shown,
      drawTick p m lcdc wlc line =
        ({ mode := .draw { line with dots := line.dots + 1, penalty := penalty, windowShown := shown }, wlc := wlc },
          none) ∧
      (0 < line.penalty ∧ penalty = line.penalty - 1 ∧ shown = line.windowShown ∨
        line.penalty = 0 ∧ line.windowShown = false ∧ 0 < p.windowStallDots ∧ penalty = p.windowStallDots - 1 ∧
          shown = true)) ∨
    (line.penalty = 0 ∧ ∃ shown, (line.windowShown = true → shown = true) ∧
      drawTick p m lcdc wlc line =
        emitTick p m lcdc wlc { line with dots := line.dots + 1, windowShown := shown }) := by
  unfold drawTick
  dsimp only
  by_cases hp : 0 < line.penalty
  · rw [if_pos hp]
    exact .inl ⟨_, _, rfl, .inl ⟨hp, rfl, rfl⟩⟩
  · rw [if_neg hp]
    have hp0 : line.penalty = 0 := by omega
    by_cases hw : windowTriggers m lcdc { line with dots := line.dots + 1 } = true
    · rw [if_pos hw]
      have hs : line.windowShown = false := by
        simp only [windowTriggers, Bool.and_eq_true, Bool.not_eq_true'] at hw
        exact hw.2
      by_cases hst : 0 < p.windowStallDots
      · rw [if_pos hst]
        exact .inl ⟨_, _, rfl, .inr ⟨hp0, hs, hst, rfl, rfl⟩⟩
      · rw [if_neg hst]
        exact .inr ⟨hp0, true, fun _ => rfl, rfl⟩
    · rw [if_neg hw]
      exact .inr ⟨hp0, line.windowShown, id, rfl⟩

/-- A penalty dot (R331). -/
theorem drawTick_penalty (p : Params) (m : Memory) (lcdc : Byte) (wlc : Nat) {line : DrawLine} (h : 0 < line.penalty) :
    drawTick p m lcdc wlc line =
      ({ mode := .draw { line with dots := line.dots + 1, penalty := line.penalty - 1 }, wlc := wlc }, none) := by
  simp [drawTick, h]

/-- The dot that shows the window and starts its stall (R332). -/
theorem drawTick_stall {p : Params} {m : Memory} {lcdc : Byte} (wlc : Nat) {line : DrawLine} (h : line.penalty = 0)
    (hc : windowCovers m lcdc line.col line.ly = true) (hs : line.windowShown = false) (hp : 0 < p.windowStallDots) :
    drawTick p m lcdc wlc line =
      ({ mode := .draw { line with dots := line.dots + 1, penalty := p.windowStallDots - 1, windowShown := true }
         wlc := wlc }, none) := by
  simp [drawTick, h, windowTriggers, hc, hs, hp]

/-- Every other dot emits its column (R333), on a line that has shown the window if it has by now. -/
theorem drawTick_emit {p : Params} {m : Memory} {lcdc : Byte} (wlc : Nat) {line : DrawLine} (h : line.penalty = 0)
    (hc : windowCovers m lcdc line.col line.ly = false ∨ line.windowShown = true ∨ p.windowStallDots = 0) :
    drawTick p m lcdc wlc line =
      emitTick p m lcdc wlc
        { line with
          dots := line.dots + 1
          windowShown := line.windowShown || windowCovers m lcdc line.col line.ly } := by
  unfold drawTick
  cases hcv : windowCovers m lcdc line.col line.ly <;> cases hw : line.windowShown <;>
    simp [windowTriggers, hcv, hw, h] at hc ⊢
  simp [hc]

/-! ## The ranges of the unit -/

theorem startDraw_wf (p : Params) (m : Memory) (lcdc : Byte) {wlc ly : Nat} (h : ly ≤ 143) (hw : wlc ≤ ly) :
    videoWf p { mode := startDraw m lcdc ly, wlc := wlc } := by
  have := Nat.mod_lt (memRead m scxAddr).toNat (show 0 < 8 by decide)
  refine ⟨h, ?_, ?_, hw, ?_, ?_⟩
  · simp only [selectSprites, List.length_take]
    omega
  · simp
  · simp
  · simp
    omega

/-- A dot keeps the ranges (R51, R52). -/
theorem tickOneDot_wf {p : Params} (m : Memory) {v : Video} (hv : videoWf p v) :
    videoWf p (tickOneDot p m v).1 := by
  obtain ⟨mode, wlc⟩ := v
  cases hm : (memRead m lcdcAddr).getLsbD 7 with
  | false =>
    rw [tickOneDot_off hm]
    show wlc ≤ 144
    cases mode with
    | stopped => exact hv
    | oamScan ly n => have := hv.1; have := hv.2.2.2; dsimp only at *; omega
    | draw line => have := hv.1; have := hv.2.2.2.1; dsimp only at *; omega
    | hBlank ly n => have := hv.1; have := hv.2.2.2; dsimp only at *; omega
    | vBlank n => exact hv.2.2
  | true =>
    cases mode with
    | stopped =>
      rw [tickOneDot_stopped hm]
      exact ⟨by omega, by omega, by omega, Nat.le_refl 0⟩
    | oamScan ly n =>
      obtain ⟨h1, h2, h3, h4⟩ := hv
      obtain _ | _ | n := n
      · omega
      · rw [tickOneDot_oamScan_last hm]
        exact startDraw_wf p m _ h1 h4
      · rw [tickOneDot_oamScan hm]
        exact ⟨h1, by omega, by omega, h4⟩
    | hBlank ly n =>
      obtain ⟨h1, h2, h3, h4⟩ := hv
      obtain _ | _ | n := n
      · omega
      · rw [tickOneDot_hBlank_last hm]
        by_cases hl : ly + 1 = 144
        · simp only [hl, if_true]
          exact ⟨by omega, by omega, by simp only at h4 ⊢; omega⟩
        · simp only [hl, if_false]
          exact ⟨by omega, by omega, by omega, h4⟩
      · rw [tickOneDot_hBlank hm]
        exact ⟨h1, by omega, by omega, h4⟩
    | vBlank n =>
      obtain ⟨h1, h2, h3⟩ := hv
      obtain _ | _ | n := n
      · omega
      · rw [tickOneDot_vBlank_last hm]
        exact ⟨by omega, by omega, by omega, Nat.le_refl 0⟩
      · rw [tickOneDot_vBlank hm]
        exact ⟨by omega, by omega, h3⟩
    | draw line =>
      obtain ⟨h1, h2, h3, h4, h5, h6⟩ := hv
      dsimp only at h4
      rw [tickOneDot_draw hm]
      rcases drawTick_cases p m (memRead m lcdcAddr) wlc line with ⟨pen, shown, e, hc⟩ | ⟨h0, shown, hs, e⟩
      · rw [e]
        refine ⟨h1, h2, h3, h4, ?_, ?_⟩
        · rcases hc with hc | hc <;> dsimp only <;> omega
        · rcases hc with ⟨_, _, rfl⟩ | ⟨h0, hw, _, _, rfl⟩
          · dsimp only
            omega
          · rw [hw] at h6
            simp at h6 ⊢
            omega
      · have h6' : line.dots + line.penalty ≤ 19 + line.col + (if shown then p.windowStallDots else 0) := by
          cases hw : line.windowShown with
          | true =>
            rw [hs hw]
            rw [hw] at h6
            exact h6
          | false =>
            rw [hw] at h6
            simp at h6
            omega
        rw [e, emitTick_eq]
        dsimp only
        by_cases hc : line.col + 1 = 160
        · simp only [hc, if_true]
          refine ⟨h1, hBlankDots_pos p _, fun hstall => ?_, ?_⟩
          · have hb : (if shown then p.windowStallDots else 0) ≤ 196 := by split <;> omega
            rw [hBlankDots_of_lt p (by omega)]
            omega
          · dsimp only
            split <;> omega
        · simp only [hc, if_false, false_and]
          exact ⟨h1, h2, by simp only; omega, h4, by simp only; omega, by simp only; omega⟩

/-! ## Sequences of dots -/

/-- Some dots and then some more. -/
theorem runDots_add (p : Params) (m : Nat → Memory) (a b : Nat) (v : Video) :
    runDots p m (a + b) v =
      ((runDots p (fun k => m (a + k)) b (runDots p m a v).1).1,
        (runDots p m a v).2 ++ (runDots p (fun k => m (a + k)) b (runDots p m a v).1).2) := by
  induction b with
  | zero => simp [runDots]
  | succ b ih =>
    rw [← Nat.add_assoc]
    simp only [runDots]
    rw [ih]
    simp only [List.append_assoc]

/-- The last of a sequence of dots. -/
theorem runDots_end (p : Params) (m : Nat → Memory) (n : Nat) (v : Video) :
    runDots p m (n + 1) v =
      ((tickOneDot p (m n) (runDots p m n v).1).1,
        (runDots p m n v).2 ++ (tickOneDot p (m n) (runDots p m n v).1).2.toList) := rfl

theorem runDots_one (p : Params) (m : Nat → Memory) (v : Video) :
    runDots p m 1 v = ((tickOneDot p (m 0) v).1, (tickOneDot p (m 0) v).2.toList) := by
  simp [runDots]

/-- The first of a sequence of dots. -/
theorem runDots_succ (p : Params) (m : Nat → Memory) (n : Nat) (v : Video) :
    runDots p m (n + 1) v =
      ((runDots p (fun k => m (k + 1)) n (tickOneDot p (m 0) v).1).1,
        (tickOneDot p (m 0) v).2.toList ++ (runDots p (fun k => m (k + 1)) n (tickOneDot p (m 0) v).1).2) := by
  rw [Nat.add_comm n 1, runDots_add, runDots_one]
  simp only [Nat.add_comm 1]

/-! ## The selection of sprites -/

theorem insertSprite_perm (s : Sprite) : ∀ l : List Sprite, (insertSprite s l).Perm (s :: l)
  | [] => .refl _
  | s' :: rest => by
    unfold insertSprite
    split
    · exact .refl _
    · exact ((insertSprite_perm s rest).cons s').trans (.swap s s' rest)

/-- Sorting neither drops nor adds a sprite, nor one of two equal ones. -/
theorem sortSprites_perm : ∀ l : List Sprite, (sortSprites l).Perm l
  | [] => .refl _
  | s :: rest => (insertSprite_perm s _).trans ((sortSprites_perm rest).cons s)

theorem mem_insertSprite {s x : Sprite} {l : List Sprite} : x ∈ insertSprite s l ↔ x = s ∨ x ∈ l := by
  rw [(insertSprite_perm s l).mem_iff, List.mem_cons]

theorem mem_sortSprites {x : Sprite} {l : List Sprite} : x ∈ sortSprites l ↔ x ∈ l := (sortSprites_perm l).mem_iff

theorem spriteLe_total (s s' : Sprite) (h : spriteLe s s' = false) : spriteLe s' s = true := by
  simp only [spriteLe, Bool.or_eq_false_iff, decide_eq_false_iff_not, Bool.and_eq_false_iff, Bool.or_eq_true,
    decide_eq_true_eq, Bool.and_eq_true] at *
  by_cases hx : s.x = s'.x
  · rw [hx] at h ⊢
    simp at h ⊢
    omega
  · have : s.x.toNat ≠ s'.x.toNat := fun e => hx (BitVec.eq_of_toNat_eq e)
    omega

theorem spriteLe_trans {s s' s'' : Sprite} (h : spriteLe s s' = true) (h' : spriteLe s' s'' = true) :
    spriteLe s s'' = true := by
  simp only [spriteLe, Bool.or_eq_true, decide_eq_true_eq, Bool.and_eq_true] at *
  rcases h with h | ⟨h, hi⟩ <;> rcases h' with h' | ⟨h', hi'⟩
  · exact .inl (by omega)
  · exact .inl (by rw [← h']; exact h)
  · exact .inl (by rw [h]; exact h')
  · exact .inr ⟨h.trans h', by omega⟩

theorem insertSprite_sorted (s : Sprite) : ∀ {l : List Sprite}, l.Pairwise (fun a b => spriteLe a b = true) →
    (insertSprite s l).Pairwise fun a b => spriteLe a b = true
  | [], _ => by simp [insertSprite]
  | s' :: rest, h => by
    rw [List.pairwise_cons] at h
    unfold insertSprite
    split
    · next hle =>
      rw [List.pairwise_cons, List.pairwise_cons]
      refine ⟨fun x hx => ?_, h⟩
      rcases List.mem_cons.1 hx with rfl | hx
      · exact hle
      · exact spriteLe_trans hle (h.1 x hx)
    · next hle =>
      rw [List.pairwise_cons]
      refine ⟨fun x hx => ?_, insertSprite_sorted s h.2⟩
      rcases mem_insertSprite.1 hx with rfl | hx
      · exact spriteLe_total _ _ (by simpa using hle)
      · exact h.1 x hx

/-- Sorting sorts (R326). -/
theorem sortSprites_sorted : ∀ l : List Sprite, (sortSprites l).Pairwise fun a b => spriteLe a b = true
  | [] => by simp [sortSprites]
  | s :: rest => insertSprite_sorted s (sortSprites_sorted rest)

end Sys2Proof.Machine
end

