-- ==== Sys2Proof/Tests/Slice0.lean ====
section
/-! SUPPORT. Tests of one step or one decode each, the refusals of the well-formedness check, and the witnesses of the
obligations' hypotheses. What a test expects is the spec's: the example of the rule it names, or a vector of the spec's file
95 (`95 L1`). -/

set_option Elab.async false

namespace Sys2Proof.Tests

open Sys2Proof.Machine

/-! ## States to start from -/

/-- A state with bytes placed from outside. -/
def holding (cells : List (Word × Byte)) (s : State) : State :=
  { s with mem := cells.foldl (fun m c => loadBytes [c.2] c.1 m) s.mem }

/-- The power-on state with the LCD off and no interrupt requested. -/
def quiet : State := holding [(0xFF0F, 0x00), (0xFF40, 0x00)] State.reset

/-- A state with bytes placed at PC. -/
def atPc (bytes : List Byte) (s : State) : State := { s with mem := loadBytes bytes s.pc s.mem }

/-- A line in Draw with so many penalty dots left, at a column. -/
def drawing (penalty col : Nat) (shown : Bool) : DrawLine :=
  { ly := 0, sprites := [], col := col, dots := 100, penalty := penalty, windowShown := shown }

/-- The window on, from the first column. -/
def windowOn : Memory := (holding [(0xFF40, 0xB1), (0xFF4B, 0x07)] quiet).mem

/-- The step goes on, to a state of which `p` holds. -/
def ends (s : State) (p : State → Bool) : Bool :=
  match step s with
  | .next t => p t
  | .fault _ => false
  | .refused _ => false

/-! ## Well-formedness: one ill-formed term for each check -/

theorem test_wf_rst : ¬(Instr.rstT 8).WellFormed := by decide

theorem test_wf_bit : ¬(Instr.bitBR 8 .a).WellFormed ∧ ¬(Instr.bitBInd 8).WellFormed := by decide

theorem test_wf_res : ¬(Instr.resBR 8 .a).WellFormed ∧ ¬(Instr.resBInd 8).WellFormed := by decide

theorem test_wf_set : ¬(Instr.setBR 8 .a).WellFormed ∧ ¬(Instr.setBInd 8).WellFormed := by decide

/-! ## Decoding: a word of every row, from the encodings of the rules and of spec/opcode_table.json -/

theorem test_decode_load8 :
    decodeBytes 0b01011111 0 0 = .ldRR .e .a ∧ decodeBytes 0b00001110 0x9C 0 = .ldRN .c 0x9C ∧
      decodeBytes 0b01111110 0 0 = .ldRInd .a ∧ decodeBytes 0b01110001 0 0 = .ldIndR .c ∧
      decodeBytes 0b00110110 0x9C 0 = .ldIndN 0x9C ∧ decodeBytes 0b00001010 0 0 = .ldABc ∧
      decodeBytes 0b00011010 0 0 = .ldADe ∧ decodeBytes 0b00000010 0 0 = .ldBcA ∧
      decodeBytes 0b00010010 0 0 = .ldDeA ∧ decodeBytes 0b11111010 0x34 0x12 = .ldANn 0x1234 ∧
      decodeBytes 0b11101010 0x34 0x12 = .ldNnA 0x1234 ∧ decodeBytes 0b11110010 0 0 = .ldhAC ∧
      decodeBytes 0b11100010 0 0 = .ldhCA ∧ decodeBytes 0b11110000 0x9C 0 = .ldhAN 0x9C := by
  decide

theorem test_decode_load8_2 :
    decodeBytes 0b11100000 0x9C 0 = .ldhNA 0x9C ∧ decodeBytes 0b00111010 0 0 = .ldAHlDec ∧
      decodeBytes 0b00110010 0 0 = .ldHlDecA ∧ decodeBytes 0b00101010 0 0 = .ldAHlInc ∧
      decodeBytes 0b00100010 0 0 = .ldHlIncA := by
  decide

theorem test_decode_load16 :
    decodeBytes 0b00110001 0x34 0x12 = .ldRrNn .sp 0x1234 ∧ decodeBytes 0b00001000 0x34 0x12 = .ldNnSp 0x1234 ∧
      decodeBytes 0b11111001 0 0 = .ldSpHl ∧ decodeBytes 0b11010101 0 0 = .pushRr .de ∧
      decodeBytes 0b11110001 0 0 = .popRr .af ∧ decodeBytes 0b11111000 0x9C 0 = .ldHlSpE 0x9C := by
  decide

theorem test_decode_alu8 :
    decodeBytes 0b10000000 0 0 = .addR .b ∧ decodeBytes 0b10000110 0 0 = .addInd ∧
      decodeBytes 0b11000110 0x9C 0 = .addN 0x9C ∧ decodeBytes 0b10001111 0 0 = .adcR .a ∧
      decodeBytes 0b10001110 0 0 = .adcInd ∧ decodeBytes 0b11001110 0x9C 0 = .adcN 0x9C ∧
      decodeBytes 0b10010001 0 0 = .subR .c ∧ decodeBytes 0b10010110 0 0 = .subInd ∧
      decodeBytes 0b11010110 0x9C 0 = .subN 0x9C ∧ decodeBytes 0b10011011 0 0 = .sbcR .e ∧
      decodeBytes 0b10011110 0 0 = .sbcInd ∧ decodeBytes 0b11011110 0x9C 0 = .sbcN 0x9C ∧
      decodeBytes 0b10100100 0 0 = .andR .h ∧ decodeBytes 0b10100110 0 0 = .andInd := by
  decide

theorem test_decode_alu8_2 :
    decodeBytes 0b11100110 0x9C 0 = .andN 0x9C ∧ decodeBytes 0b10101101 0 0 = .xorR .l ∧
      decodeBytes 0b10101110 0 0 = .xorInd ∧ decodeBytes 0b11101110 0x9C 0 = .xorN 0x9C ∧
      decodeBytes 0b10110010 0 0 = .orR .d ∧ decodeBytes 0b10110110 0 0 = .orInd ∧
      decodeBytes 0b11110110 0x9C 0 = .orN 0x9C ∧ decodeBytes 0b10111000 0 0 = .cpR .b ∧
      decodeBytes 0b10111110 0 0 = .cpInd ∧ decodeBytes 0b11111110 0x9C 0 = .cpN 0x9C ∧
      decodeBytes 0b00011100 0 0 = .incR .e ∧ decodeBytes 0b00110100 0 0 = .incInd ∧
      decodeBytes 0b00111101 0 0 = .decR .a ∧ decodeBytes 0b00110101 0 0 = .decInd := by
  decide

theorem test_decode_alu8_3 :
    decodeBytes 0b00100111 0 0 = .daa ∧ decodeBytes 0b00101111 0 0 = .cpl ∧ decodeBytes 0b00110111 0 0 = .scf ∧
      decodeBytes 0b00111111 0 0 = .ccf := by
  decide

theorem test_decode_alu16 :
    decodeBytes 0b00101001 0 0 = .addHlRr .hl ∧ decodeBytes 0b00000011 0 0 = .incRr .bc ∧
      decodeBytes 0b00111011 0 0 = .decRr .sp ∧ decodeBytes 0b11101000 0x9C 0 = .addSpE 0x9C := by
  decide

theorem test_decode_rotate_shift_bit :
    decodeBytes 0b00000111 0 0 = .rlca ∧ decodeBytes 0b00001111 0 0 = .rrca ∧
      decodeBytes 0b00010111 0 0 = .rla ∧ decodeBytes 0b00011111 0 0 = .rra ∧
      decodeBytes 0xCB 0b00000001 0 = .rlcR .c ∧ decodeBytes 0xCB 0b00000110 0 = .rlcInd ∧
      decodeBytes 0xCB 0b00001000 0 = .rrcR .b ∧ decodeBytes 0xCB 0b00001110 0 = .rrcInd ∧
      decodeBytes 0xCB 0b00010010 0 = .rlR .d ∧ decodeBytes 0xCB 0b00010110 0 = .rlInd ∧
      decodeBytes 0xCB 0b00011011 0 = .rrR .e ∧ decodeBytes 0xCB 0b00011110 0 = .rrInd ∧
      decodeBytes 0xCB 0b00100111 0 = .slaR .a ∧ decodeBytes 0xCB 0b00100110 0 = .slaInd := by
  decide

theorem test_decode_rotate_shift_bit_2 :
    decodeBytes 0xCB 0b00101101 0 = .sraR .l ∧ decodeBytes 0xCB 0b00101110 0 = .sraInd ∧
      decodeBytes 0xCB 0b00110100 0 = .swapR .h ∧ decodeBytes 0xCB 0b00110110 0 = .swapInd ∧
      decodeBytes 0xCB 0b00111001 0 = .srlR .c ∧ decodeBytes 0xCB 0b00111110 0 = .srlInd ∧
      decodeBytes 0xCB 0b01110000 0 = .bitBR 6 .b ∧ decodeBytes 0xCB 0b01011110 0 = .bitBInd 3 ∧
      decodeBytes 0xCB 0b10111010 0 = .resBR 7 .d ∧ decodeBytes 0xCB 0b10101110 0 = .resBInd 5 ∧
      decodeBytes 0xCB 0b11110011 0 = .setBR 6 .e ∧ decodeBytes 0xCB 0b11011110 0 = .setBInd 3 := by
  decide

theorem test_decode_control :
    decodeBytes 0b11000011 0x34 0x12 = .jpNn 0x1234 ∧ decodeBytes 0b11000010 0x34 0x12 = .jpCcNn .nz 0x1234 ∧
      decodeBytes 0b11101001 0 0 = .jpHl ∧ decodeBytes 0b00011000 0x9C 0 = .jrE 0x9C ∧
      decodeBytes 0b00110000 0x9C 0 = .jrCcE .nc 0x9C ∧ decodeBytes 0b11001101 0x34 0x12 = .callNn 0x1234 ∧
      decodeBytes 0b11011100 0x34 0x12 = .callCcNn .c 0x1234 ∧ decodeBytes 0b11001001 0 0 = .ret ∧
      decodeBytes 0b11010000 0 0 = .retCc .nc ∧ decodeBytes 0b11011001 0 0 = .reti ∧
      decodeBytes 0b11101111 0 0 = .rstT 5 := by
  decide

theorem test_decode_system :
    decodeBytes 0b00000000 0 0 = .nop ∧ decodeBytes 0b01110110 0 0 = .halt ∧
      decodeBytes 0b00010000 0 0 = .stop ∧ decodeBytes 0b11110011 0 0 = .di ∧ decodeBytes 0b11111011 0 0 = .ei ∧
      decodeBytes 0b11010011 0 0 = .illegalD3 ∧ decodeBytes 0b11011011 0 0 = .illegalDB ∧
      decodeBytes 0b11011101 0 0 = .illegalDD ∧ decodeBytes 0b11100011 0 0 = .illegalE3 ∧
      decodeBytes 0b11100100 0 0 = .illegalE4 ∧ decodeBytes 0b11101011 0 0 = .illegalEB ∧
      decodeBytes 0b11101100 0 0 = .illegalEC ∧ decodeBytes 0b11101101 0 0 = .illegalED ∧
      decodeBytes 0b11110100 0 0 = .illegalF4 := by
  decide

theorem test_decode_system_2 :
    decodeBytes 0b11111100 0 0 = .illegalFC ∧ decodeBytes 0b11111101 0 0 = .illegalFD := by
  decide

/-- The row PREFIX CB is a prefix byte with nothing after it. -/
theorem test_decode_prefix : decode [0xCB] = .ok (.prefixCb, []) := rfl

/-- What is too short is not read as an instruction. -/
theorem test_decode_short :
    decode [] = .error .empty ∧ decode [0x3E] = .error (.truncated 0x3E) ∧
      decode [0xEA, 0x00] = .error (.truncated 0xEA) :=
  ⟨rfl, rfl, rfl⟩

/-- The rows as spec/opcode_table.json numbers their bits, first byte lowest. -/
theorem test_decodeTableWord :
    decodeTableWord 8 0x78 = some (.ldRR .a .b) ∧ decodeTableWord 16 0x143E = some (.ldRN .a 0x14) ∧
      decodeTableWord 24 0xC000EA = some (.ldNnA 0xC000) ∧ decodeTableWord 16 0x7FCB = some (.bitBR 7 .a) := by
  decide

/-- The very next step runs the word. -/
theorem test_withFetchWord :
    ends (State.reset.withFetchWord 16 0x143E) (fun t => t.a = 0x14 && t.pc = 0x0102) = true := by
  decide +kernel

/-- Where PC has no storage behind it, the word is placed at the power-on entry point. -/
theorem test_withFetchWord_gap :
    ends (({ quiet with pc := 0xFEA0, haltState := .halted } : State).withFetchWord 8 0x3C)
      (fun t => t.a = 0x02 && t.pc = 0x0101) = true := by
  decide +kernel

/-! ## One step: ### 8-bit loads (file 40) -/

/-- R130. -/
theorem test_ldRR : ends (atPc [0x78] { quiet with b := 0x42 })
    (fun t => t.a = 0x42 && t.cyc = 1) = true := by
  decide +kernel

/-- 95 L2 (LD H,(HL)). -/
theorem test_ldRInd : ends (atPc [0x66] (holding [(0xC123, 0x9A)] { quiet with h := 0xC1, l := 0x23 }))
    (fun t => t.h = 0x9A && t.l = 0x23 && t.pc = 0x0101 && t.cyc = 2) = true := by
  decide +kernel

/-- R131. -/
theorem test_ldRN : ends (atPc [0x3E, 0x14] quiet)
    (fun t => t.a = 0x14 && t.pc = 0x0102 && t.cyc = 2) = true := by
  decide +kernel

/-- R132. -/
theorem test_ldRInd_a : ends (atPc [0x7E] (holding [(0xC000, 0x99)] { quiet with h := 0xC0, l := 0x00 }))
    (fun t => t.a = 0x99 && t.cyc = 2) = true := by
  decide +kernel

/-- R133. -/
theorem test_ldIndR : ends (atPc [0x77] { quiet with h := 0xC0, l := 0x10, a := 0x5A })
    (fun t => t.read 0xC010 = 0x5A && t.cyc = 2) = true := by
  decide +kernel

/-- R134. -/
theorem test_ldIndN : ends (atPc [0x36, 0xAB] { quiet with h := 0x80, l := 0x00 })
    (fun t => t.read 0x8000 = 0xAB && t.cyc = 3) = true := by
  decide +kernel

/-- 95 L4. -/
theorem test_ldIndN_rom : ends (atPc [0x36, 0x5A] { quiet with h := 0x00, l := 0x00 })
    (fun t => t.read 0x0000 = 0x00 && t.pc = 0x0102 && t.cyc = 3) = true := by
  decide +kernel

/-- R135. -/
theorem test_ldABc : ends (atPc [0x0A] (holding [(0xFE9F, 0x77)] { quiet with b := 0xFE, c := 0x9F, a := 0x00 }))
    (fun t => t.a = 0x77 && t.cyc = 2) = true := by
  decide +kernel

/-- R136. -/
theorem test_ldADe : ends (atPc [0x1A] { quiet with d := 0xFE, e := 0xA0 })
    (fun t => t.a = 0xFF && t.cyc = 2) = true := by
  decide +kernel

/-- R137. -/
theorem test_ldBcA : ends (atPc [0x02] { quiet with b := 0xC0, c := 0x01, a := 0x07 })
    (fun t => t.read 0xC001 = 0x07 && t.cyc = 2) = true := by
  decide +kernel

/-- R138. -/
theorem test_ldDeA : ends (atPc [0x12] { quiet with d := 0xFF, e := 0x80, a := 0x01 })
    (fun t => t.read 0xFF80 = 0x01 && t.cyc = 2) = true := by
  decide +kernel

/-- 95 L11: the mirror. -/
theorem test_ldANn : ends (atPc [0xFA, 0x01, 0xE0] (holding [(0xC001, 0x3C)] quiet))
    (fun t => t.a = 0x3C && t.pc = 0x0103 && t.cyc = 4) = true := by
  decide +kernel

/-- R140, R68. -/
theorem test_ldNnA : ends (atPc [0xEA, 0x00, 0xC0] { quiet with a := 0x12 })
    (fun t => t.read 0xC000 = 0x12 && t.read 0xE000 = 0x12 && t.cyc = 4) = true := by
  decide +kernel

/-- 95 L10. -/
theorem test_ldNnA_mirror : ends (atPc [0xEA, 0x00, 0xE0] (holding [(0xC000, 0x11)] { quiet with a := 0x99 }))
    (fun t => t.read 0xC000 = 0x11 && t.read 0xE000 = 0x11 && t.cyc = 4) = true := by
  decide +kernel

/-- R141. -/
theorem test_ldhAC : ends (atPc [0xF2] (holding [(0xFF44, 0x05)] { quiet with c := 0x44, a := 0x55 }))
    (fun t => t.a = 0x05 && t.cyc = 2) = true := by
  decide +kernel

/-- R142. -/
theorem test_ldhCA : ends (atPc [0xE2] { quiet with c := 0x47, a := 0xE4 })
    (fun t => t.read 0xFF47 = 0xE4 && t.cyc = 2) = true := by
  decide +kernel

/-- R143. -/
theorem test_ldhAN : ends (atPc [0xF0, 0x0F] (holding [(0xFF0F, 0xA5)] { quiet with a := 0x00 }))
    (fun t => t.a = 0xA5 && t.cyc = 3) = true := by
  decide +kernel

/-- 95 L7. -/
theorem test_ldhNA : ends (atPc [0xE0, 0x80] { quiet with a := 0x42 })
    (fun t => t.read 0xFF80 = 0x42 && t.pc = 0x0102 && t.cyc = 3) = true := by
  decide +kernel

/-- R145. -/
theorem test_ldAHlDec : ends (atPc [0x3A] (holding [(0xC005, 0x09)] { quiet with h := 0xC0, l := 0x05 }))
    (fun t => t.a = 0x09 && t.h = 0xC0 && t.l = 0x04 && t.cyc = 2) = true := by
  decide +kernel

/-- 95 L6. -/
theorem test_ldHlDecA : ends (atPc [0x32] { quiet with h := 0x00, l := 0x00, a := 0x77 })
    (fun t => t.h = 0xFF && t.l = 0xFF && t.read 0x0000 = 0x00 && t.cyc = 2) = true := by
  decide +kernel

/-- 95 L5. -/
theorem test_ldAHlInc : ends (atPc [0x2A] (holding [(0xFFFF, 0x1F)] { quiet with h := 0xFF, l := 0xFF }))
    (fun t => t.a = 0x1F && t.h = 0x00 && t.l = 0x00 && t.cyc = 2) = true := by
  decide +kernel

/-- R148. -/
theorem test_ldHlIncA : ends (atPc [0x22] { quiet with h := 0xC0, l := 0x00, a := 0x11 })
    (fun t => t.read 0xC000 = 0x11 && t.h = 0xC0 && t.l = 0x01 && t.cyc = 2) = true := by
  decide +kernel

/-! ## One step: ### 16-bit loads and the stack (file 41) -/

/-- 95 L12. -/
theorem test_ldRrNn : ends (atPc [0x31, 0x34, 0x12] quiet)
    (fun t => t.sp = 0x1234 && t.pc = 0x0103 && t.cyc = 3) = true := by
  decide +kernel

/-- R162. -/
theorem test_ldRrNn_hl : ends (atPc [0x21, 0x00, 0xC0] quiet)
    (fun t => t.h = 0xC0 && t.l = 0x00 && t.cyc = 3) = true := by
  decide +kernel

/-- 95 L13. -/
theorem test_ldNnSp : ends (atPc [0x08, 0x00, 0xC1] { quiet with sp := 0xFFF8 })
    (fun t => t.read 0xC100 = 0xF8 && t.read 0xC101 = 0xFF && t.cyc = 5) = true := by
  decide +kernel

/-- R164. -/
theorem test_ldSpHl : ends (atPc [0xF9] { quiet with h := 0xDF, l := 0xFF })
    (fun t => t.sp = 0xDFFF && t.cyc = 2) = true := by
  decide +kernel

/-- 95 L14. -/
theorem test_pushRr : ends (atPc [0xC5] { quiet with b := 0x12, c := 0x34, sp := 0xD000 })
    (fun t => t.sp = 0xCFFE && t.read 0xCFFF = 0x12 && t.read 0xCFFE = 0x34 && t.cyc = 4) = true := by
  decide +kernel

/-- 95 L17. -/
theorem test_pushRr_wrap : ends (atPc [0xE5] { quiet with h := 0xAB, l := 0xCD, sp := 0x0001 })
    (fun t => t.sp = 0xFFFF && t.read 0x0000 = 0x00 && t.read 0xFFFF = 0xCD && t.cyc = 4) = true := by
  decide +kernel

/-- R166. -/
theorem test_popRr : ends (atPc [0xD1] (holding [(0xFFFC, 0x34), (0xFFFD, 0x12)] { quiet with sp := 0xFFFC }))
    (fun t => t.d = 0x12 && t.e = 0x34 && t.sp = 0xFFFE && t.cyc = 3) = true := by
  decide +kernel

/-- 95 L15. -/
theorem test_popRr_af : ends (atPc [0xF1] (holding [(0xC000, 0xFF), (0xC001, 0x12)] { quiet with sp := 0xC000 }))
    (fun t => t.a = 0x12 && t.f = 0xF0 && t.sp = 0xC002 && t.cyc = 3) = true := by
  decide +kernel

/-- 95 L18. -/
theorem test_ldHlSpE : ends (atPc [0xF8, 0xFF] { quiet with sp := 0x0000, f := 0xB0 })
    (fun t => t.h = 0xFF && t.l = 0xFF && t.f = 0x00 && t.sp = 0x0000 && t.cyc = 3) = true := by
  decide +kernel

/-- 95 L20. -/
theorem test_ldHlSpE_carries : ends (atPc [0xF8, 0x08] { quiet with sp := 0xFFF8 })
    (fun t => t.h = 0x00 && t.l = 0x00 && t.f = 0x30 && t.cyc = 3) = true := by
  decide +kernel

/-! ## One step: ### 8-bit arithmetic and logic (file 42) -/

/-- R182. -/
theorem test_addR : ends (atPc [0x80] { quiet with a := 0x3A, b := 0xC6 })
    (fun t => t.a = 0x00 && t.f = 0xB0 && t.cyc = 1) = true := by
  decide +kernel

/-- R183. -/
theorem test_addInd : ends (atPc [0x86] (holding [(0xC000, 0x12)] { quiet with a := 0x3C, h := 0xC0, l := 0x00 }))
    (fun t => t.a = 0x4E && t.f = 0x00 && t.cyc = 2) = true := by
  decide +kernel

/-- 95 A1. -/
theorem test_addN : ends (atPc [0xC6, 0x01] { quiet with a := 0x0F, f := 0x00 })
    (fun t => t.a = 0x10 && t.f = 0x20 && t.cyc = 2) = true := by
  decide +kernel

/-- R185. -/
theorem test_adcR : ends (atPc [0x8B] { quiet with a := 0xE1, e := 0x0F, f := 0x10 })
    (fun t => t.a = 0xF1 && t.f = 0x20 && t.cyc = 1) = true := by
  decide +kernel

/-- R186. -/
theorem test_adcInd : ends (atPc [0x8E]
    (holding [(0xC000, 0x1E)] { quiet with a := 0xE1, h := 0xC0, l := 0x00, f := 0x10 }))
    (fun t => t.a = 0x00 && t.f = 0xB0 && t.cyc = 2) = true := by
  decide +kernel

/-- 95 A4. -/
theorem test_adcN : ends (atPc [0xCE, 0xFF] { quiet with a := 0x00, f := 0x10 })
    (fun t => t.a = 0x00 && t.f = 0xB0 && t.cyc = 2) = true := by
  decide +kernel

/-- R188. -/
theorem test_subR : ends (atPc [0x93] { quiet with a := 0x3E, e := 0x3E })
    (fun t => t.a = 0x00 && t.f = 0xC0 && t.cyc = 1) = true := by
  decide +kernel

/-- R189. -/
theorem test_subInd : ends (atPc [0x96] (holding [(0xC000, 0x40)] { quiet with a := 0x3E, h := 0xC0, l := 0x00 }))
    (fun t => t.a = 0xFE && t.f = 0x50 && t.cyc = 2) = true := by
  decide +kernel

/-- 95 A7. -/
theorem test_subN : ends (atPc [0xD6, 0x01] { quiet with a := 0x00 })
    (fun t => t.a = 0xFF && t.f = 0x70 && t.cyc = 2) = true := by
  decide +kernel

/-- R191. -/
theorem test_sbcR : ends (atPc [0x9C] { quiet with a := 0x3B, h := 0x2A, f := 0x10 })
    (fun t => t.a = 0x10 && t.f = 0x40 && t.cyc = 1) = true := by
  decide +kernel

/-- R192. -/
theorem test_sbcInd : ends (atPc [0x9E]
    (holding [(0xC000, 0x4F)] { quiet with a := 0x3B, h := 0xC0, l := 0x00, f := 0x10 }))
    (fun t => t.a = 0xEB && t.f = 0x70 && t.cyc = 2) = true := by
  decide +kernel

/-- 95 A8. -/
theorem test_sbcN : ends (atPc [0xDE, 0xFF] { quiet with a := 0x00, f := 0x10 })
    (fun t => t.a = 0x00 && t.f = 0xF0 && t.cyc = 2) = true := by
  decide +kernel

/-- R194. -/
theorem test_andR : ends (atPc [0xA5] { quiet with a := 0x5A, l := 0x3F })
    (fun t => t.a = 0x1A && t.f = 0x20 && t.cyc = 1) = true := by
  decide +kernel

/-- R195. -/
theorem test_andInd : ends (atPc [0xA6] { quiet with a := 0x5A, h := 0xC0, l := 0x00 })
    (fun t => t.a = 0x00 && t.f = 0xA0 && t.cyc = 2) = true := by
  decide +kernel

/-- R196. -/
theorem test_andN : ends (atPc [0xE6, 0x38] { quiet with a := 0x5A })
    (fun t => t.a = 0x18 && t.f = 0x20 && t.cyc = 2) = true := by
  decide +kernel

/-- R197. -/
theorem test_xorR : ends (atPc [0xAF] { quiet with a := 0xFF })
    (fun t => t.a = 0x00 && t.f = 0x80 && t.cyc = 1) = true := by
  decide +kernel

/-- R198. -/
theorem test_xorInd : ends (atPc [0xAE] (holding [(0xC000, 0x8A)] { quiet with a := 0xFF, h := 0xC0, l := 0x00 }))
    (fun t => t.a = 0x75 && t.f = 0x00 && t.cyc = 2) = true := by
  decide +kernel

/-- R199. -/
theorem test_xorN : ends (atPc [0xEE, 0x0F] { quiet with a := 0xFF })
    (fun t => t.a = 0xF0 && t.f = 0x00 && t.cyc = 2) = true := by
  decide +kernel

/-- R200. -/
theorem test_orR : ends (atPc [0xB7] { quiet with a := 0x5A })
    (fun t => t.a = 0x5A && t.f = 0x00 && t.cyc = 1) = true := by
  decide +kernel

/-- R201. -/
theorem test_orInd : ends (atPc [0xB6] (holding [(0xC000, 0x0F)] { quiet with a := 0x5A, h := 0xC0, l := 0x00 }))
    (fun t => t.a = 0x5F && t.f = 0x00 && t.cyc = 2) = true := by
  decide +kernel

/-- 95 A12. -/
theorem test_orN : ends (atPc [0xF6, 0x00] { quiet with a := 0x00, f := 0x70 })
    (fun t => t.a = 0x00 && t.f = 0x80 && t.cyc = 2) = true := by
  decide +kernel

/-- R203. -/
theorem test_cpR : ends (atPc [0xB8] { quiet with a := 0x3C, b := 0x2F })
    (fun t => t.a = 0x3C && t.f = 0x60 && t.cyc = 1) = true := by
  decide +kernel

/-- R204. -/
theorem test_cpInd : ends (atPc [0xBE] (holding [(0xC000, 0x40)] { quiet with a := 0x3C, h := 0xC0, l := 0x00 }))
    (fun t => t.a = 0x3C && t.f = 0x50 && t.cyc = 2) = true := by
  decide +kernel

/-- R205. -/
theorem test_cpN : ends (atPc [0xFE, 0x3C] { quiet with a := 0x3C })
    (fun t => t.a = 0x3C && t.f = 0xC0 && t.cyc = 2) = true := by
  decide +kernel

/-- 95 A15. -/
theorem test_incR : ends (atPc [0x04] { quiet with b := 0xFF, f := 0x10 })
    (fun t => t.b = 0x00 && t.f = 0xB0 && t.cyc = 1) = true := by
  decide +kernel

/-- 95 A16. -/
theorem test_incInd : ends (atPc [0x34] (holding [(0xC000, 0x0F)] { quiet with h := 0xC0, l := 0x00, f := 0x00 }))
    (fun t => t.read 0xC000 = 0x10 && t.f = 0x20 && t.cyc = 3) = true := by
  decide +kernel

/-- 95 A17. -/
theorem test_decR : ends (atPc [0x0D] { quiet with c := 0x00, f := 0x00 })
    (fun t => t.c = 0xFF && t.f = 0x60 && t.cyc = 1) = true := by
  decide +kernel

/-- 95 A18. -/
theorem test_decInd : ends (atPc [0x35] (holding [(0xC000, 0x01)] { quiet with h := 0xC0, l := 0x00, f := 0x10 }))
    (fun t => t.read 0xC000 = 0x00 && t.f = 0xD0 && t.cyc = 3) = true := by
  decide +kernel

/-- 95 A20. -/
theorem test_daa_add : ends (atPc [0x27] { quiet with a := 0x9A, f := 0x00 })
    (fun t => t.a = 0x00 && t.f = 0x90 && t.cyc = 1) = true := by
  decide +kernel

/-- 95 A22. -/
theorem test_daa_sub : ends (atPc [0x27] { quiet with a := 0x00, f := 0x50 })
    (fun t => t.a = 0xA0 && t.f = 0x50 && t.cyc = 1) = true := by
  decide +kernel

/-- 95 A23. -/
theorem test_cpl : ends (atPc [0x2F] { quiet with a := 0x35, f := 0x90 })
    (fun t => t.a = 0xCA && t.f = 0xF0 && t.cyc = 1) = true := by
  decide +kernel

/-- 95 A24. -/
theorem test_scf : ends (atPc [0x37] { quiet with f := 0xE0 })
    (fun t => t.f = 0x90 && t.cyc = 1) = true := by
  decide +kernel

/-- 95 A25. -/
theorem test_ccf : ends (atPc [0x3F] { quiet with f := 0xF0 })
    (fun t => t.f = 0x80 && t.cyc = 1) = true := by
  decide +kernel

/-! ## One step: ### 16-bit arithmetic (file 43) -/

/-- R230; Z kept. -/
theorem test_addHlRr : ends (atPc [0x09] { quiet with h := 0x8A, l := 0x23, b := 0x06, c := 0x05, f := 0x80 })
    (fun t => t.h = 0x90 && t.l = 0x28 && t.f = 0xA0 && t.cyc = 2) = true := by
  decide +kernel

/-- 95 A27. -/
theorem test_addHlRr_hl : ends (atPc [0x29] { quiet with h := 0x80, l := 0x00, f := 0x00 })
    (fun t => t.h = 0x00 && t.l = 0x00 && t.f = 0x10 && t.cyc = 2) = true := by
  decide +kernel

/-- 95 A29. -/
theorem test_incRr : ends (atPc [0x13] { quiet with d := 0xFF, e := 0xFF, f := 0xF0 })
    (fun t => t.d = 0x00 && t.e = 0x00 && t.f = 0xF0 && t.cyc = 2) = true := by
  decide +kernel

/-- 95 A30. -/
theorem test_decRr : ends (atPc [0x3B] { quiet with sp := 0x0000 })
    (fun t => t.sp = 0xFFFF && t.f = 0xB0 && t.cyc = 2) = true := by
  decide +kernel

/-- 95 A32. -/
theorem test_addSpE : ends (atPc [0xE8, 0x01] { quiet with sp := 0x00FF })
    (fun t => t.sp = 0x0100 && t.f = 0x30 && t.cyc = 4) = true := by
  decide +kernel

/-- 95 A33. -/
theorem test_addSpE_neg : ends (atPc [0xE8, 0x80] { quiet with sp := 0x0080 })
    (fun t => t.sp = 0x0000 && t.f = 0x10 && t.cyc = 4) = true := by
  decide +kernel

/-! ## One step: ### Rotates, shifts and bits (file 44) -/

/-- R240. -/
theorem test_rlca : ends (atPc [0x07] { quiet with a := 0x85 })
    (fun t => t.a = 0x0B && t.f = 0x10 && t.cyc = 1) = true := by
  decide +kernel

/-- R241. -/
theorem test_rrca : ends (atPc [0x0F] { quiet with a := 0x3B })
    (fun t => t.a = 0x9D && t.f = 0x10 && t.cyc = 1) = true := by
  decide +kernel

/-- R242. -/
theorem test_rla : ends (atPc [0x17] { quiet with a := 0x95, f := 0x10 })
    (fun t => t.a = 0x2B && t.f = 0x10 && t.cyc = 1) = true := by
  decide +kernel

/-- R243. -/
theorem test_rra : ends (atPc [0x1F] { quiet with a := 0x81, f := 0x00 })
    (fun t => t.a = 0x40 && t.f = 0x10 && t.cyc = 1) = true := by
  decide +kernel

/-- R245. -/
theorem test_rlcR : ends (atPc [0xCB, 0x00] { quiet with b := 0x85 })
    (fun t => t.b = 0x0B && t.f = 0x10 && t.pc = 0x0102 && t.cyc = 2) = true := by
  decide +kernel

/-- R246. -/
theorem test_rlcInd : ends (atPc [0xCB, 0x06] { quiet with h := 0xC0, l := 0x00 })
    (fun t => t.read 0xC000 = 0x00 && t.f = 0x80 && t.cyc = 4) = true := by
  decide +kernel

/-- R247. -/
theorem test_rrcR : ends (atPc [0xCB, 0x09] { quiet with c := 0x01 })
    (fun t => t.c = 0x80 && t.f = 0x10 && t.cyc = 2) = true := by
  decide +kernel

/-- 95 B6. -/
theorem test_rrcInd : ends (atPc [0xCB, 0x0E] (holding [(0xC000, 0x01)] { quiet with h := 0xC0, l := 0x00 }))
    (fun t => t.read 0xC000 = 0x80 && t.f = 0x10 && t.cyc = 4) = true := by
  decide +kernel

/-- R249. -/
theorem test_rlR : ends (atPc [0xCB, 0x15] { quiet with l := 0x80, f := 0x00 })
    (fun t => t.l = 0x00 && t.f = 0x90 && t.cyc = 2) = true := by
  decide +kernel

/-- R250. -/
theorem test_rlInd : ends (atPc [0xCB, 0x16]
    (holding [(0xC000, 0x11)] { quiet with h := 0xC0, l := 0x00, f := 0x00 }))
    (fun t => t.read 0xC000 = 0x22 && t.f = 0x00 && t.cyc = 4) = true := by
  decide +kernel

/-- R251. -/
theorem test_rrR : ends (atPc [0xCB, 0x1F] { quiet with a := 0x01, f := 0x00 })
    (fun t => t.a = 0x00 && t.f = 0x90 && t.cyc = 2) = true := by
  decide +kernel

/-- R252. -/
theorem test_rrInd : ends (atPc [0xCB, 0x1E]
    (holding [(0xC000, 0x8A)] { quiet with h := 0xC0, l := 0x00, f := 0x00 }))
    (fun t => t.read 0xC000 = 0x45 && t.f = 0x00 && t.cyc = 4) = true := by
  decide +kernel

/-- R253. -/
theorem test_slaR : ends (atPc [0xCB, 0x22] { quiet with d := 0x80 })
    (fun t => t.d = 0x00 && t.f = 0x90 && t.cyc = 2) = true := by
  decide +kernel

/-- R254. -/
theorem test_slaInd : ends (atPc [0xCB, 0x26] (holding [(0xC000, 0xFF)] { quiet with h := 0xC0, l := 0x00 }))
    (fun t => t.read 0xC000 = 0xFE && t.f = 0x10 && t.cyc = 4) = true := by
  decide +kernel

/-- R255. -/
theorem test_sraR : ends (atPc [0xCB, 0x2F] { quiet with a := 0x8A })
    (fun t => t.a = 0xC5 && t.f = 0x00 && t.cyc = 2) = true := by
  decide +kernel

/-- R256. -/
theorem test_sraInd : ends (atPc [0xCB, 0x2E] (holding [(0xC000, 0x01)] { quiet with h := 0xC0, l := 0x00 }))
    (fun t => t.read 0xC000 = 0x00 && t.f = 0x90 && t.cyc = 4) = true := by
  decide +kernel

/-- R257. -/
theorem test_swapR : ends (atPc [0xCB, 0x37] { quiet with a := 0xF1 })
    (fun t => t.a = 0x1F && t.f = 0x00 && t.cyc = 2) = true := by
  decide +kernel

/-- R258. -/
theorem test_swapInd : ends (atPc [0xCB, 0x36] { quiet with h := 0xC0, l := 0x00 })
    (fun t => t.read 0xC000 = 0x00 && t.f = 0x80 && t.cyc = 4) = true := by
  decide +kernel

/-- R259. -/
theorem test_srlR : ends (atPc [0xCB, 0x3F] { quiet with a := 0x01 })
    (fun t => t.a = 0x00 && t.f = 0x90 && t.cyc = 2) = true := by
  decide +kernel

/-- R260. -/
theorem test_srlInd : ends (atPc [0xCB, 0x3E] (holding [(0xC000, 0xFF)] { quiet with h := 0xC0, l := 0x00 }))
    (fun t => t.read 0xC000 = 0x7F && t.f = 0x10 && t.cyc = 4) = true := by
  decide +kernel

/-- 95 B14. -/
theorem test_bitBR : ends (atPc [0xCB, 0x7C] { quiet with h := 0x7F, f := 0x10 })
    (fun t => t.h = 0x7F && t.f = 0xB0 && t.cyc = 2) = true := by
  decide +kernel

/-- 95 B15. -/
theorem test_bitBInd : ends (atPc [0xCB, 0x46]
    (holding [(0xC000, 0x01)] { quiet with h := 0xC0, l := 0x00, f := 0xC0 }))
    (fun t => t.read 0xC000 = 0x01 && t.f = 0x20 && t.cyc = 3) = true := by
  decide +kernel

/-- R263. -/
theorem test_resBR : ends (atPc [0xCB, 0xBF] { quiet with a := 0x80 })
    (fun t => t.a = 0x00 && t.f = 0xB0 && t.cyc = 2) = true := by
  decide +kernel

/-- R264. -/
theorem test_resBInd : ends (atPc [0xCB, 0x9E]
    (holding [(0xC000, 0xFF)] { quiet with h := 0xC0, l := 0x00, f := 0xF0 }))
    (fun t => t.read 0xC000 = 0xF7 && t.f = 0xF0 && t.cyc = 4) = true := by
  decide +kernel

/-- R265. -/
theorem test_setBR : ends (atPc [0xCB, 0xDF] { quiet with a := 0x80 })
    (fun t => t.a = 0x88 && t.f = 0xB0 && t.cyc = 2) = true := by
  decide +kernel

/-- R266. -/
theorem test_setBInd : ends (atPc [0xCB, 0xDE] { quiet with h := 0xC0, l := 0x00 })
    (fun t => t.read 0xC000 = 0x08 && t.cyc = 4) = true := by
  decide +kernel

/-! ## One step: ### Control transfer (file 45) -/

/-- R281. -/
theorem test_jpNn : ends (atPc [0xC3, 0x50, 0x01] quiet)
    (fun t => t.pc = 0x0150 && t.cyc = 4) = true := by
  decide +kernel

/-- R282. -/
theorem test_jpCcNn : ends (atPc [0xCA, 0x00, 0x02] { quiet with f := 0x80 })
    (fun t => t.pc = 0x0200 && t.cyc = 4) = true := by
  decide +kernel

/-- R282. -/
theorem test_jpCcNn_not : ends (atPc [0xCA, 0x00, 0x02] { quiet with f := 0x00 })
    (fun t => t.pc = 0x0103 && t.cyc = 3) = true := by
  decide +kernel

/-- R283. -/
theorem test_jpHl : ends (atPc [0xE9] { quiet with h := 0xC0, l := 0x00 })
    (fun t => t.pc = 0xC000 && t.cyc = 1) = true := by
  decide +kernel

/-- 95 J7. -/
theorem test_jrE : ends (atPc [0x18, 0x80] quiet)
    (fun t => t.pc = 0x0082 && t.cyc = 3) = true := by
  decide +kernel

/-- R285. -/
theorem test_jrCcE : ends (atPc [0x20, 0xFC] { quiet with pc := 0x0106, f := 0x00 })
    (fun t => t.pc = 0x0104 && t.cyc = 3) = true := by
  decide +kernel

/-- R285. -/
theorem test_jrCcE_not : ends (atPc [0x20, 0xFC] { quiet with pc := 0x0106, f := 0x80 })
    (fun t => t.pc = 0x0108 && t.cyc = 2) = true := by
  decide +kernel

/-- R286. -/
theorem test_callNn : ends (atPc [0xCD, 0x00, 0x02] { quiet with pc := 0x0150 })
    (fun t => t.pc = 0x0200 && t.sp = 0xFFFC &&
      t.read 0xFFFD = 0x01 && t.read 0xFFFC = 0x53 && t.cyc = 6) = true := by
  decide +kernel

/-- 95 J10 with the condition of J11 true. -/
theorem test_callCcNn : ends (atPc [0xCC, 0x00, 0x02] { quiet with f := 0x80, sp := 0xD000 })
    (fun t => t.pc = 0x0200 && t.sp = 0xCFFE &&
      t.read 0xCFFF = 0x01 && t.read 0xCFFE = 0x03 && t.cyc = 6) = true := by
  decide +kernel

/-- R287. -/
theorem test_callCcNn_not : ends (atPc [0xDC, 0x00, 0x02] { quiet with f := 0x00 })
    (fun t => t.pc = 0x0103 && t.sp = 0xFFFE && t.cyc = 3) = true := by
  decide +kernel

/-- R288. -/
theorem test_ret : ends (atPc [0xC9] (holding [(0xFFFC, 0x53), (0xFFFD, 0x01)] { quiet with sp := 0xFFFC }))
    (fun t => t.pc = 0x0153 && t.sp = 0xFFFE && t.cyc = 4) = true := by
  decide +kernel

/-- 95 J13. -/
theorem test_retCc : ends (atPc [0xD0]
    (holding [(0xC000, 0x34), (0xC001, 0x12)] { quiet with f := 0x00, sp := 0xC000 }))
    (fun t => t.pc = 0x1234 && t.sp = 0xC002 && t.cyc = 5) = true := by
  decide +kernel

/-- R289. -/
theorem test_retCc_not : ends (atPc [0xC8] { quiet with f := 0x00, sp := 0xC000 })
    (fun t => t.pc = 0x0101 && t.sp = 0xC000 && t.cyc = 2) = true := by
  decide +kernel

/-- R290. -/
theorem test_reti : ends (atPc [0xD9] (holding [(0xFFFC, 0x53), (0xFFFD, 0x01)] { quiet with sp := 0xFFFC }))
    (fun t => t.pc = 0x0153 && t.sp = 0xFFFE && t.ime = true && t.cyc = 4) = true := by
  decide +kernel

/-- R291. -/
theorem test_rstT : ends (atPc [0xEF] { quiet with pc := 0x0200 })
    (fun t => t.pc = 0x0028 && t.sp = 0xFFFC &&
      t.read 0xFFFD = 0x02 && t.read 0xFFFC = 0x01 && t.cyc = 4) = true := by
  decide +kernel

/-! ## One step: ### System (file 46) -/

/-- R300. -/
theorem test_nop : ends (atPc [0x00] quiet)
    (fun t => t.pc = 0x0101 && t.cyc = 1) = true := by
  decide +kernel

/-- 95 H1. -/
theorem test_halt : ends (atPc [0x76] quiet)
    (fun t => t.pc = 0x0101 && t.haltState = .halted && t.cyc = 1) = true := by
  decide +kernel

/-- 95 H3. -/
theorem test_halt_bug : ends (atPc [0x76] (holding [(0xFFFF, 0x01), (0xFF0F, 0x01)] quiet))
    (fun t => t.pc = 0x0101 && t.haltState = .haltBug && t.cyc = 1) = true := by
  decide +kernel

/-- R302 under STOP_POLICY = nop2. -/
theorem test_stop_nop2 : ends (atPc [0x10, 0x00] { quiet with params := { Params.default with stopPolicy := .nop2 } })
    (fun t => t.pc = 0x0102 && t.cyc = 1) = true := by
  decide +kernel

/-- R303. -/
theorem test_di : ends (atPc [0xF3] { quiet with ime := true })
    (fun t => t.ime = false && t.cyc = 1) = true := by
  decide +kernel

/-- R304. -/
theorem test_ei : ends (atPc [0xFB] (holding [(0xFFFF, 0x04), (0xFF0F, 0x04)] quiet))
    (fun t => t.pc = 0x0101 && t.ime = false && t.imePending = true && t.cyc = 1) = true := by
  decide +kernel

/-- R304, its second step. -/
theorem test_ei_then : ends (atPc [0x00] (holding [(0xFFFF, 0x04), (0xFF0F, 0x04)] { quiet with imePending := true }))
    (fun t => t.pc = 0x0050 && t.ime = false && t.imePending = false &&
      t.read 0xFF0F = 0x00 && t.read 0xFFFD = 0x01 && t.read 0xFFFC = 0x01 && t.cyc = 6) = true := by
  decide +kernel

/-! ## One step: ### The step (files 51 to 53) -/

/-- 95 I3. -/
theorem test_interrupt_priority : ends (atPc [0x00]
    (holding [(0xFFFF, 0x1F), (0xFF0F, 0x1F)] { quiet with ime := true }))
    (fun t => t.pc = 0x0040 && t.read 0xFF0F = 0x1E && t.cyc = 6) = true := by
  decide +kernel

/-- 95 I5. -/
theorem test_interrupt_mask : ends (atPc [0x00] (holding [(0xFFFF, 0xE0), (0xFF0F, 0xE0)] { quiet with ime := true }))
    (fun t => t.pc = 0x0101 && t.cyc = 1) = true := by
  decide +kernel

/-- 95 H3, its second step: the byte is fetched and PC does not move. -/
theorem test_haltBug_repeats_byte : ends (atPc [0x3C]
    (holding [(0xFFFF, 0x01), (0xFF0F, 0x01)] { quiet with haltState := .haltBug, a := 0x00 }))
    (fun t => t.a = 0x01 && t.pc = 0x0100 && t.haltState = .running && t.cyc = 1) = true := by
  decide +kernel

/-- R401, R405. -/
theorem test_halted_sleeps : ends (atPc [0x00] { quiet with haltState := .halted })
    (fun t => t.pc = 0x0100 && t.haltState = .halted && t.cyc = 1) = true := by
  decide +kernel

/-- R429: IME clear. -/
theorem test_halted_wakes : ends (atPc [0x00]
    (holding [(0xFFFF, 0x04), (0xFF0F, 0x04)] { quiet with haltState := .halted }))
    (fun t => t.pc = 0x0100 && t.haltState = .running && t.cyc = 1) = true := by
  decide +kernel

/-- R384. -/
theorem test_timer : ends (atPc [0x00]
    (holding [(0xFF07, 0x05), (0xFF05, 0xFF), (0xFF06, 0x12)] { quiet with cyc := 3 }))
    (fun t => t.read 0xFF05 = 0x12 && t.read 0xFF0F = 0x04 && t.cyc = 4) = true := by
  decide +kernel

/-- R382. -/
theorem test_div : ends (atPc [0x00] { quiet with cyc := 63 })
    (fun t => t.read 0xFF04 = 0xAC && t.cyc = 64) = true := by
  decide +kernel

/-- R406. -/
theorem test_serial : ends (atPc [0x00] (holding [(0xFF02, 0xFE), (0xFF01, 0x41)] quiet))
    (fun t => t.read 0xFF02 = 0x7E && t.read 0xFF0F = 0x08 && t.serialOut = (some 0x41) && t.cyc = 1) = true := by
  decide +kernel

/-- R73. -/
theorem test_dma : ends (atPc [0xE0, 0x46] (holding [(0xC000, 0x12), (0xC09F, 0x34)] { quiet with a := 0xC0 }))
    (fun t => t.read 0xFE00 = 0x12 && t.read 0xFE9F = 0x34 && t.read 0xFF46 = 0xC0 && t.cyc = 3) = true := by
  decide +kernel

/-- R244, R257: the second byte is at PC. -/
theorem test_prefixCb :
    (match exec .prefixCb (atPc [0x37] { quiet with a := 0xF1 }) with
      | .next t => t.a = 0x1F && t.f = 0x00 && t.pc = 0x0101 && t.report.cycles = 2
      | .fault _ => false
      | .refused _ => false) = true := by
  decide +kernel

/-- R305: each of the eleven, with PC past the byte, at 0x0100. -/
theorem test_illegal :
    [Instr.illegalD3, .illegalDB, .illegalDD, .illegalE3, .illegalE4, .illegalEB, .illegalEC, .illegalED, .illegalF4,
        .illegalFC, .illegalFD].map (fun i => exec i { quiet with pc := 0x0101 }) =
      [0xD3, 0xDB, 0xDD, 0xE3, 0xE4, 0xEB, 0xEC, 0xED, 0xF4, 0xFC, 0xFD].map
        fun op => .fault (.unknownOpcode op 0x0100) := rfl

/-- R302: the default policy, at the opcode byte's address. -/
theorem test_stop_fault : step (atPc [0x10] quiet) = .fault (.unknownOpcode 0x10 0x0100) := rfl

/-- 95 V1: the first reconciliation after power-on. -/
theorem test_first_reconciliation :
    ends State.reset (fun t => t.read 0xFF44 = 0x00 && t.read 0xFF41 = 0x86 && t.read 0xFF0F = 0xE1 &&
      t.video.mode = .oamScan 0 76) = true := by
  decide +kernel

/-- 95 V4: leaving Stopped is a change to OamScan. -/
theorem test_stat_oamScan :
    ends (holding [(0xFF41, 0xA5), (0xFF0F, 0x00)] State.reset)
      (fun t => t.read 0xFF41 = 0xA6 && t.read 0xFF0F = 0x02) = true := by
  decide +kernel

/-- 95 V5: STAT and VBlank together at the end of HBlank of scanline 143. -/
theorem test_vblank :
    ends { holding [(0xFF41, 0x94), (0xFF0F, 0x00), (0xFF45, 0x01)] State.reset with
          video := { mode := .hBlank 143 4, wlc := 0 } }
      (fun t => t.read 0xFF44 = 0x90 && t.read 0xFF0F = 0x03) = true := by
  decide +kernel

/-- R6, R58, R64: a power-on state holds the image it is made with, and `RAM_INIT` in RAM and its mirror. -/
theorem test_powerOn :
    memRead (State.powerOn { defaultPowerOn with rom := fun i => byteOf i.val, ramInit := 0x5A }).mem 0x01A5 = 0xA5 ∧
      memRead (State.powerOn { defaultPowerOn with ramInit := 0x5A }).mem 0xE000 = 0x5A :=
  ⟨(memRead_powerOnMemory _ _).trans (by decide +kernel), (memRead_powerOnMemory _ _).trans (by decide +kernel)⟩

/-- R332, R333: the dot that shows the window starts the stall; with a stall of 0 it emits its column. -/
theorem test_window_trigger :
    (drawTick Params.default windowOn 0xB1 0 (drawing 0 0 false) =
      ({ mode := .draw { drawing 5 0 true with dots := 101 }, wlc := 0 }, none)) ∧
      (drawTick { Params.default with windowStallDots := 0 } windowOn 0xB1 0 (drawing 0 0 false)).1 =
        { mode := .draw { drawing 0 1 true with dots := 101 }, wlc := 0 } := by
  decide +kernel

/-- 95 V8: twelve sprites, the two with the largest x dropped. -/
theorem test_sprite_limit :
    (selectSprites (holding ((List.range 12).flatMap fun i =>
        [(BitVec.ofNat 16 (0xFE00 + 4 * i), 16), (BitVec.ofNat 16 (0xFE01 + 4 * i), byteOf (8 * (12 - i)))]) quiet).mem
      8 0).map (fun s => (s.x.toNat, s.index)) =
      [(8, 11), (16, 10), (24, 9), (32, 8), (40, 7), (48, 6), (56, 5), (64, 4), (72, 3), (80, 2)] := by
  decide +kernel

/-! ## Witnesses: a state and operands that meet the hypotheses of each obligation together -/

theorem witness_DecodeOfEncode : (Instr.setBInd 7).WellFormed ∧ Instr.setBInd 7 ≠ .prefixCb := by decide

/-- Running, and in HaltBug, where the opcode byte is its own operand. -/
theorem witness_StepRunsDecoded :
    (State.reset.haltState ≠ .halted ∧ (Instr.addN 0x01).WellFormed ∧ Instr.addN 0x01 ≠ .prefixCb ∧
      decode [(atPc [0xC6, 0x01] State.reset).read 0x0100, (atPc [0xC6, 0x01] State.reset).read 0x0101,
        (atPc [0xC6, 0x01] State.reset).read 0x0102] = .ok (.addN 0x01, [0x00])) ∧
    (HaltState.haltBug ≠ .halted ∧ (Instr.addN 0xC6).WellFormed ∧
      decode [(atPc [0xC6, 0x01] State.reset).read 0x0100, (atPc [0xC6, 0x01] State.reset).read 0x0100,
        (atPc [0xC6, 0x01] State.reset).read 0x0101] = .ok (.addN 0xC6, [0x01])) :=
  ⟨⟨by decide, by decide, by decide, rfl⟩, by decide, by decide, rfl⟩

/-- An instruction across 0xFFFF. -/
theorem witness_FetchesEncoded :
    ∃ s : State, s.haltState = .running ∧ s.pc = 0xFFFF ∧ (Instr.jrE 0x05).WellFormed ∧ Instr.jrE 0x05 ≠ .prefixCb ∧
      ∀ k v, (encode (.jrE 0x05))[k]? = some v → s.read (s.pc + BitVec.ofNat 16 k) = v := by
  refine ⟨atPc [0x18, 0x05] { State.reset with pc := 0xFFFF }, rfl, rfl, by decide, by decide, fun k v h => ?_⟩
  match k with
  | 0 => cases h; decide
  | 1 => cases h; decide
  | k + 2 => cases h

theorem witness_RegisterFile : ∃ rr : Reg16, rr = .sp := ⟨.sp, rfl⟩

/-- The first and last address of each clause. -/
theorem witness_BusRead :
    (∀ x ∈ ([0xE000, 0xFDFF] : List Word), 0xE000 ≤ x.toNat ∧ x.toNat ≤ 0xFDFF) ∧
      (∀ x ∈ ([0xFEA0, 0xFEFF] : List Word), 0xFEA0 ≤ x.toNat ∧ x.toNat ≤ 0xFEFF) ∧
      ∀ x ∈ ([0x0000, 0xDFFF, 0xFE00, 0xFE9F, 0xFF00, 0xFFFF] : List Word),
        x.toNat ≤ 0xDFFF ∨ (0xFE00 ≤ x.toNat ∧ x.toNat ≤ 0xFE9F) ∨ 0xFF00 ≤ x.toNat := by
  simp

theorem witness_BusWrite :
    (∀ a ∈ ([0x0000, 0x7FFF, 0xE000, 0xFDFF, 0xFEA0, 0xFEFF] : List Word), a ≠ 0xFF46 ∧
      (a.toNat ≤ 0x7FFF ∨ (0xE000 ≤ a.toNat ∧ a.toNat ≤ 0xFDFF) ∨ (0xFEA0 ≤ a.toNat ∧ a.toNat ≤ 0xFEFF))) ∧
      (∀ a ∈ ([0x8000, 0xDFFF, 0xFE00, 0xFE9F, 0xFF00, 0xFF45, 0xFF47, 0xFFFF] : List Word), a ≠ 0xFF46 ∧
        ((0x8000 ≤ a.toNat ∧ a.toNat ≤ 0xDFFF) ∨ (0xFE00 ≤ a.toNat ∧ a.toNat ≤ 0xFE9F) ∨ 0xFF00 ≤ a.toNat)) ∧
      ∀ a ∈ ([0xC000, 0xDDFF] : List Word), 0xC000 ≤ a.toNat ∧ a.toNat ≤ 0xDDFF := by
  simp

theorem witness_OamDma :
    (∀ k ∈ [0, 159], k < 160) ∧
      ∀ x ∈ ([0xFDFF, 0xFEA0, 0xFF45, 0xFF47] : List Word), x ≠ 0xFF46 ∧ ¬(0xFE00 ≤ x.toNat ∧ x.toNat ≤ 0xFE9F) := by
  simp

/-- The first and last offset of ROM and of the I/O region, the RAM addresses at the ends of its ranges and in the mirror,
and the addresses outside the I/O table. -/
theorem witness_PowerOnState :
    (0 < 32768 ∧ 32767 < 32768 ∧ 0 < 128 ∧ 127 < 128) ∧
      (∀ x ∈ ([0x8000, 0xDFFF, 0xE000, 0xFDFF, 0xFE00, 0xFE9F, 0xFF80, 0xFFFE] : List Word),
        (0x8000 ≤ x.toNat ∧ x.toNat ≤ 0xFE9F) ∨ (0xFF80 ≤ x.toNat ∧ x.toNat ≤ 0xFFFE)) ∧
      ∀ x ∈ ([0x8000, 0xFDFF, 0xFE00, 0xFE9F, 0xFF03, 0xFF7F, 0xFF80, 0xFFFF] : List Word),
        0x8000 ≤ x.toNat ∧ ¬(0xFEA0 ≤ x.toNat ∧ x.toNat ≤ 0xFEFF) ∧
          ∀ e ∈ ioResetVideo ++ ioResetSystem ++ ioResetAudio, e.1 ≠ x.toNat := by
  simp [ioResetVideo, ioResetSystem, ioResetAudio]

/-- The setting that makes a mirror write fatal, with every pointer next to the mirror. -/
def echoFatal : State :=
  { quiet with
    params := { Params.default with echoWrite := .fault }
    h := 0xDF, l := 0xFF, b := 0xFE, c := 0x00, d := 0x80, e := 0x00 }

theorem witness_StoreByte :
    CanStore echoFatal echoFatal.hl ∧ CanStore echoFatal echoFatal.bc ∧ CanStore echoFatal echoFatal.de ∧
      CanStore echoFatal 0x0000 ∧ CanStore quiet 0xE000 :=
  ⟨.inr (by decide +kernel), .inr (by decide +kernel), .inr (by decide +kernel), .inr (by decide +kernel), .inl rfl⟩

theorem witness_LoadPair : CanStore echoFatal 0xDFFE ∧ CanStore echoFatal (0xDFFE + 1) :=
  ⟨.inr (by decide), .inr (by decide)⟩

theorem witness_PushPair : CanPush { echoFatal with sp := 0xE000 } ∧ CanPush { quiet with sp := 0xE001 } :=
  ⟨⟨.inr (by decide), .inr (by decide)⟩, .inl rfl, .inl rfl⟩

/-- Any two pairs, AF and another among them. -/
theorem witness_PopOfPush :
    (regionOf (State.reset.sp - 1).toNat).writable = true ∧ (regionOf (State.reset.sp - 2).toNat).writable = true ∧
      State.reset.sp - 1 ≠ 0xFF46 ∧ State.reset.sp - 2 ≠ 0xFF46 ∧ StkReg.bc ≠ StkReg.af := by
  decide +kernel

theorem witness_StepByte : CanStore echoFatal echoFatal.hl := .inr (by decide)

theorem witness_DaaIsDecimal : 99 < 100 ∧ 1 < 100 ∧ ({ quiet with a := 0x99 } : State).a = bcd 99 := by decide

theorem witness_ShiftMemory : CanStore echoFatal echoFatal.hl := .inr (by decide)

theorem witness_BitOperations : 7 < 8 ∧ CanStore echoFatal echoFatal.hl := ⟨by decide, .inr (by decide)⟩

theorem witness_PrefixRunsSelected : CanStore echoFatal echoFatal.hl := .inr (by decide)

theorem witness_Calls :
    7 < 8 ∧ CanPush quiet ∧ quiet.cond .z = true ∧ ({ quiet with f := 0x00 } : State).cond .z = false :=
  ⟨by decide, ⟨.inl rfl, .inl rfl⟩, by decide, by decide⟩

theorem witness_StopPolicies :
    ({ quiet with params := { Params.default with stopPolicy := .nop2 } } : State).params.stopPolicy = .nop2 ∧
      (atPc [0x10] quiet).params.stopPolicy = .fault ∧ (atPc [0x10] quiet).haltState ≠ .halted ∧
      (atPc [0x10] quiet).read (atPc [0x10] quiet).pc = 0x10 := by
  decide +kernel

theorem witness_UnassignedAbort :
    isIllegal .illegalFD = true ∧ (atPc [0xFD] quiet).haltState ≠ .halted ∧
      (atPc [0xFD] quiet).read (atPc [0xFD] quiet).pc = 0xFD := by
  decide +kernel

theorem witness_InstructionsComplete :
    (isIllegal (.ldNnSp 0xDFFE) = false ∧ Instr.ldNnSp 0xDFFE ≠ .prefixCb ∧ Instr.ldNnSp 0xDFFE ≠ .stop ∧
      ∀ a ∈ storeAddresses (.ldNnSp 0xDFFE) echoFatal, CanStore echoFatal a) ∧
    (isIllegal .stop = false ∧
      ({ quiet with params := { Params.default with stopPolicy := .nop2 } } : State).params.stopPolicy = .nop2) := by
  refine ⟨⟨by decide, by decide, by decide, fun a h => ?_⟩, by decide⟩
  rcases List.mem_cons.1 h with rfl | h
  · exact .inr (by decide)
  · rcases List.mem_cons.1 h with rfl | h
    · exact .inr (by decide)
    · cases h

/-- A push whose second byte is the last of the mirror, and a store to its first. -/
theorem witness_EchoWriteAborts :
    echoFatal.params.echoWrite = .fault ∧
      (storeAddresses (.pushRr .bc) { echoFatal with sp := 0xFE01 }).find?
        (fun x => decide (0xE000 ≤ x.toNat) && decide (x.toNat ≤ 0xFDFF)) = some 0xFDFF ∧
      (storeAddresses (.ldNnA 0xE000) echoFatal).find?
        (fun x => decide (0xE000 ≤ x.toNat) && decide (x.toNat ≤ 0xFDFF)) = some 0xE000 := by
  decide +kernel

/-- A store to the DMA trigger, and an instruction without a store. -/
theorem witness_MemoryFrame :
    (Instr.ldNnA 0xFF46 ≠ .prefixCb ∧ (∃ t, exec (.ldNnA 0xFF46) quiet = .next t) ∧
      (∀ a ∈ storeAddresses (.ldNnA 0xFF46) quiet, (0xFE9F + 1 : Word) ≠ a ∧ (0xFE9F + 1 : Word) ≠ a + 0x2000) ∧
      ¬(0xFE00 ≤ (0xFE9F + 1 : Word).toNat ∧ (0xFE9F + 1 : Word).toNat ≤ 0xFE9F)) ∧
    (Instr.nop ≠ .prefixCb ∧ (∃ t, exec .nop quiet = .next t) ∧ storeAddresses .nop quiet = []) :=
  ⟨⟨by decide, ⟨_, rfl⟩, fun a h => by cases List.mem_singleton.1 h; decide, by decide⟩, by decide, ⟨_, rfl⟩, rfl⟩

theorem witness_RegisterDiscipline :
    (∃ t, exec .nop quiet = .next t) ∧ writesFlags .nop = false ∧ writesSp .nop = false ∧ writesIme .nop = false :=
  ⟨⟨_, rfl⟩, rfl, rfl, rfl⟩

theorem witness_ExecuteContract : (∃ t, exec .halt quiet = .next t) ∧ ∃ t, exec .daa quiet = .next t :=
  ⟨⟨_, rfl⟩, _, rfl⟩

theorem witness_StepOutcomes :
    ({ quiet with haltState := .halted } : State).haltState = .halted ∧
      step (atPc [0xD3] quiet) = .fault (.unknownOpcode 0xD3 0x0100) ∧
      step (atPc [0x10] quiet) = .fault (.unknownOpcode 0x10 0x0100) ∧
      step (atPc [0xEA, 0xFF, 0xFD] echoFatal) = .fault (.echoWrite 0xFDFF) :=
  ⟨rfl, rfl, rfl, rfl⟩

theorem exists_of_ends {s : State} {p : State → Bool} (h : ends s p = true) : ∃ t, step s = .next t ∧ p t = true := by
  unfold ends at h
  split at h
  · next t ht => exact ⟨t, ht, h⟩
  · cases h
  · cases h

/-- A NOP, an idle cycle, and a NOP whose step dispatches. -/
theorem witness_StepTime :
    (quiet.cyc < 2 ^ quiet.params.clkWidth ∧ ∃ t, step quiet = .next t ∧ decide (t.cyc = 1) = true) ∧
      (∃ t, step { quiet with haltState := .halted } = .next t ∧ decide (t.cyc = 1) = true) ∧
      ∃ t, step { holding [(0xFF0F, 0x04), (0xFFFF, 0x04)] quiet with ime := true } = .next t ∧
        decide (t.cyc = 6) = true :=
  ⟨⟨by decide, exists_of_ends (by decide +kernel)⟩, exists_of_ends (by decide +kernel), exists_of_ends (by decide +kernel)⟩

/-- Requests of the first and of the last source, and the conditions that keep the check from dispatching. -/
theorem witness_InterruptCheck :
    (memRead quiet.mem 0xFF0F &&& memRead quiet.mem 0xFFFF &&& 0x1F#8 = 0) ∧
      ({ holding [(0xFF0F, 0x1F), (0xFFFF, 0x1F)] quiet with ime := true } : State).ime = true ∧
      memRead (holding [(0xFF0F, 0x1F), (0xFFFF, 0x1F)] quiet).mem 0xFF0F &&&
        memRead (holding [(0xFF0F, 0x1F), (0xFFFF, 0x1F)] quiet).mem 0xFFFF &&& 0x1F#8 ≠ 0 ∧
      memRead (holding [(0xFF0F, 0xF0), (0xFFFF, 0x10)] quiet).mem 0xFF0F &&&
        memRead (holding [(0xFF0F, 0xF0), (0xFFFF, 0x10)] quiet).mem 0xFFFF &&& 0x1F#8 ≠ 0 := by
  decide +kernel

/-- A state at a HALT, and what stands after its cycle. -/
def atHalt : State := atPc [0x76] quiet

def haltCycle (s : State) : State :=
  advance 1 (settleIme (armed s) { openStep s with pc := s.pc + 1, report := { cycles := 1, enteredHalt := true } })

def asking (s : State) : State := holding [(0xFF0F, 0x04), (0xFFFF, 0x04)] s

/-- A HALT in Running and in HaltBug, with nothing pending and with a request and IME clear or set; and a NOP in HaltBug and
in Running, with a request and without one. -/
theorem witness_HaltOutcomes :
    (atHalt.haltState ≠ .halted ∧ atHalt.read atHalt.pc = 0x76 ∧ fetchInstr atHalt = .halt ∧
      pendingSources (haltCycle atHalt).mem = 0) ∧
      ((asking atHalt).haltState = .running ∧ (asking atHalt).read (asking atHalt).pc = 0x76 ∧
        pendingSources (haltCycle (asking atHalt)).mem ≠ 0 ∧ (haltCycle (asking atHalt)).ime = false ∧
        (haltCycle { asking atHalt with ime := true }).ime = true) ∧
      ends { asking atHalt with haltState := .haltBug } (fun t => t.haltState = .haltBug && t.pc = 0x0100) = true ∧
      (fetchInstr quiet = .nop ∧
        ends { asking quiet with haltState := .haltBug } (fun t => t.haltState = .running && t.pc = 0x0100) = true ∧
        ends { quiet with haltState := .haltBug } (fun t => t.haltState = .haltBug && t.pc = 0x0100) = true ∧
        ends quiet (fun t => t.haltState = .running && t.pc = 0x0101) = true) := by
  decide +kernel

theorem witness_HaltedStep :
    pendingSources (mCycle (openStep { quiet with haltState := .halted })).mem = 0 ∧
      pendingSources (mCycle (openStep { asking quiet with haltState := .halted })).mem ≠ 0 ∧ quiet.ime = false ∧
      ({ asking quiet with haltState := .halted, ime := true } : State).ime = true := by
  decide +kernel

/-- A pending EI before a NOP, without and with a request pending, and before a DI; no pending EI before an EI, and before a
NOP. -/
theorem witness_EiDelay :
    quiet.params.eiDelay = true ∧ quiet.haltState ≠ .halted ∧
      (∃ t, step { quiet with imePending := true } = .next t ∧ decide (t.ime = true) = true) ∧
      (∃ t, step { asking quiet with imePending := true } = .next t ∧
        (decide (t.ime = false) && decide (t.pc = 0x0050)) = true) ∧
      (fetchInstr (atPc [0xF3] quiet) = .di ∧
        ∃ t, step { asking (atPc [0xF3] quiet) with imePending := true } = .next t ∧
          (decide (t.ime = false) && decide (t.pc = 0x0101)) = true) ∧
      (fetchInstr (atPc [0xFB] quiet) = .ei ∧ quiet.imePending = false ∧ quiet.ime = false ∧
        ∃ t, step (atPc [0xFB] quiet) = .next t ∧ decide (t.imePending = true) = true) ∧
      ∃ t, step quiet = .next t ∧ decide (t.imePending = false) = true :=
  ⟨by decide, by decide, exists_of_ends (by decide +kernel), exists_of_ends (by decide +kernel),
    ⟨by decide, exists_of_ends (by decide +kernel)⟩, ⟨by decide, by decide, by decide, exists_of_ends (by decide +kernel)⟩,
    exists_of_ends (by decide +kernel)⟩

/-- A step that stores to ROM. -/
theorem witness_RomNeverChanges :
    ∃ t, step (atPc [0xEA, 0x00, 0x01] quiet) = .next t ∧ decide (t.pc = 0x0103) = true :=
  exists_of_ends (by decide +kernel)

theorem witness_SerialProbe :
    (memRead quiet.mem 0xFF02).getLsbD 7 = false ∧
      (memRead (holding [(0xFF02, 0x80)] quiet).mem 0xFF02).getLsbD 7 = true := by
  decide +kernel

/-- A setting with a window stall longer than a line, and the least width of the counter. -/
theorem witness_InvAtReset : ({ Params.default with windowStallDots := 1000, clkWidth := 8 } : Params).wf := by decide

/-- A state in the middle of a frame, not a state of the run from power-on. -/
def midFrame : State := { quiet with mem := [], video := { mode := .hBlank 143 1, wlc := 144 }, cyc := 255 }

theorem witness_StepKeepsInv :
    Inv midFrame ∧ ∃ t, step midFrame = .next t ∧ decide (ppuTag t.video.mode = .vBlank) = true :=
  ⟨⟨by decide, by decide, by decide, by decide, by decide, ⟨by decide, by decide, fun _ => by decide, by decide⟩, rfl⟩,
    exists_of_ends (by decide +kernel)⟩

/-- Not enabled; enabled, at its period, below and at 0xFF. -/
theorem witness_ClockTick :
    quiet.params = Params.default ∧ (memRead quiet.mem 0xFF07).getLsbD 2 = false ∧
      (memRead (holding [(0xFF07, 0x05)] quiet).mem 0xFF07).getLsbD 2 = true ∧
      tacPeriod quiet.params ((memRead (holding [(0xFF07, 0x05)] quiet).mem 0xFF07).toNat % 4) = .cycles4 ∧
      (({ quiet with cyc := 3 } : State).cyc + 1) % 2 ^ quiet.params.clkWidth % 4 = 0 ∧
      memRead quiet.mem 0xFF05 ≠ 0xFF ∧ memRead (holding [(0xFF05, 0xFF)] quiet).mem 0xFF05 = 0xFF := by
  decide +kernel

/-- The default width with its highest count, and 8 bits. -/
theorem witness_ClockWidthUnobservable :
    SameButClock { quiet with cyc := 2 ^ 64 - 1 }
        { quiet with cyc := 255, params := { Params.default with clkWidth := 8 } } ∧
      (∃ t, step { quiet with cyc := 2 ^ 64 - 1 } = .next t ∧ decide (t.cyc = 0) = true) ∧
      SameButClock (atPc [0xD3] quiet)
        { atPc [0xD3] quiet with cyc := 256, params := { Params.default with clkWidth := 9 } } ∧
      step (atPc [0xD3] quiet) = .fault (.unknownOpcode 0xD3 0x0100) :=
  ⟨⟨by decide, by decide, by decide, rfl⟩, exists_of_ends (by decide +kernel),
    ⟨by decide, by decide, by decide, rfl⟩, rfl⟩

/-- Eleven sprites on scanline 0, all at x = 0: the last in OAM is not selected. -/
def elevenSprites : Memory := (List.range 11).foldl (fun m i => m.put (0xFE00 + 4 * i) 0x10) []

theorem witness_SpriteSelection :
    (memRead elevenSprites 0xFF40).getLsbD 7 = true ∧ 10 < 40 ∧ (oamEntry elevenSprites 10).y.toNat ≤ 0 + 16 ∧
      0 + 16 < (oamEntry elevenSprites 10).y.toNat + 8 ∧
      oamEntry elevenSprites 10 ∉ selectSprites elevenSprites (spriteHeight (memRead elevenSprites 0xFF40)) 0 ∧
      oamEntry elevenSprites 9 ∈ selectSprites elevenSprites (spriteHeight (memRead elevenSprites 0xFF40)) 0 := by
  decide +kernel

/-- The cases of a Draw dot: the last penalty dot; the window covering for the first time with a stall, and with none; no
window at the first and at the last column; the dots at which R333 still leaves HBlank one, and at which it does not. -/
theorem witness_SpriteSelection_draw :
    (memRead windowOn 0xFF40).getLsbD 7 = true ∧ 0 < (drawing 1 0 false).penalty ∧
      ((drawing 0 0 false).penalty = 0 ∧ windowCovers windowOn 0xB1 0 0 = true ∧ (drawing 0 0 false).windowShown = false ∧
        0 < Params.default.windowStallDots) ∧
      ({ Params.default with windowStallDots := 0 } : Params).windowStallDots = 0 ∧
      (windowCovers elevenSprites 0x91 0 0 = false ∧ (drawing 0 0 false).col + 1 ≠ 160 ∧
        (drawing 0 159 false).col + 1 = 160) ∧
      374 + 1 < 376 ∧ ¬375 + 1 < 376 := by
  decide +kernel

theorem witness_LcdDisableAndRestart :
    (memRead quiet.mem 0xFF40).getLsbD 7 = false ∧
      ((memRead State.reset.mem 0xFF40).getLsbD 7 = true ∧ State.reset.video.mode = .stopped) := by
  decide +kernel

/-- Tile 0 filled with colour id 3. -/
def filledTile : Memory := (List.range 16).foldl (fun m i => m.put (0x8000 + i) 0xFF) []

def cornerSprite (flags : Byte) : Sprite := { index := 0, y := 16, x := 8, tile := 0, flags := flags }

/-- Every clause: the layers off, no sprite, a transparent sprite, one behind an opaque background, and one that shows, at
the first and at the last column it covers. -/
theorem witness_PixelComposition :
    ((0x92 : Byte).getLsbD 0 = false ∧ (0x91 : Byte).getLsbD 1 = false) ∧
      ((0x93 : Byte).getLsbD 1 = true ∧ ∀ col ∈ [0, 7], (cornerSprite 0).x.toNat ≤ col + 8 ∧
        col + 8 < (cornerSprite 0).x.toNat + 8) ∧
      spriteId [] 0x93 (cornerSprite 0) 0 0 = 0 ∧
      (spriteId filledTile 0x93 (cornerSprite 0x80) 0 0 ≠ 0 ∧ (cornerSprite 0x80).flags.getLsbD 7 = true ∧
        backgroundId filledTile 0x93 0 0 0 ≠ 0) ∧
      (spriteId filledTile 0x93 (cornerSprite 0) 0 0 ≠ 0 ∧ (cornerSprite 0).flags.getLsbD 7 = false) := by
  decide +kernel

theorem witness_TileFetch : (0x91 : Byte).getLsbD 0 = true ∧ (0x90 : Byte).getLsbD 0 = false := by decide

theorem witness_ScanlineIs456Dots :
    Params.default.windowStallDots ≤ 196 ∧ ({ Params.default with windowStallDots := 196 } : Params).windowStallDots ≤ 196 ∧
      143 ≤ 143 ∧ LcdOn (fun _ => State.reset.mem) 456 :=
  ⟨by decide, by decide, by decide, fun _ _ => show (memRead State.reset.mem lcdcAddr).getLsbD 7 = true by decide⟩

theorem witness_FrameIs70224Dots :
    Params.default.windowStallDots ≤ 196 ∧ ({ Params.default with windowStallDots := 196 } : Params).windowStallDots ≤ 196 ∧
      LcdOn (fun _ => State.reset.mem) 70224 :=
  ⟨by decide, by decide, fun _ _ => show (memRead State.reset.mem lcdcAddr).getLsbD 7 = true by decide⟩

end Sys2Proof.Tests
end

/-! ## Family 10_state: the OAM DMA and the dots of OamScan and Draw -/

namespace Sys2Proof.Machine

/-! ### The DMA trigger -/

/-- A write to the DMA trigger at every address: OAM reads what the page reads once the byte is stored, every other address
reads as it does once the byte is stored. -/
theorem memRead_memWrite_dma (m : Memory) (v : Byte) (x : Word) :
    memRead (memWrite m dmaAddr v) x =
      if regionOf x.toNat = .oam then memRead (m.put 0xFF46 v) (wordOf v (loByte x)) else memRead (m.put 0xFF46 v) x :=
  memRead_dmaCopy v (m.put 0xFF46 v) x

/-- Storing the DMA byte is seen at the trigger's own address only. -/
theorem memRead_put_dma (m : Memory) (v : Byte) (x : Word) :
    memRead (m.put 0xFF46 v) x = if x = dmaAddr then v else memRead m x := by
  have hw : (regionOf dmaAddr.toNat).writable = true := rfl
  have h : memRead (m.put 0xFF46 v) x = _ := memRead_writeRegion m dmaAddr v x
  simpa only [hw, true_and, storageAddr_eq_dma] using h

/-- The copy takes byte `k` of OAM from byte `k` of the page (R73). -/
theorem wordOf_loByte_oam (v : Byte) {k : Nat} (hk : k < 160) :
    wordOf v (loByte (BitVec.ofNat 16 (0xFE00 + k))) = BitVec.ofNat 16 (256 * v.toNat + k) := by
  have hv := v.isLt
  apply BitVec.eq_of_toNat_eq
  rw [wordOf_toNat, loByte_toNat, BitVec.toNat_ofNat, BitVec.toNat_ofNat]
  omega

/-- Settles O11: the write is the copy of the page from the memory in which the byte is stored, and the copy changes OAM
only. -/
theorem oamDma : Obligations.OamDma := by
  intro m v
  refine ⟨?_, fun k hk => ?_, fun x hx hoam => ?_⟩
  · have hnot : regionOf dmaAddr.toNat ≠ .oam := by decide
    exact (memRead_memWrite_dma m v dmaAddr).trans ((if_neg hnot).trans ((memRead_put_dma m v _).trans (if_pos rfl)))
  · have hin : regionOf (BitVec.ofNat 16 (0xFE00 + k)).toNat = .oam := by
      rw [BitVec.toNat_ofNat, regionOf_oam]
      omega
    refine (memRead_memWrite_dma m v _).trans ?_
    rw [if_pos hin, wordOf_loByte_oam v hk]
  · have hnot : regionOf x.toNat ≠ .oam := fun h => hoam (regionOf_oam.1 h)
    exact (memRead_memWrite_dma m v x).trans ((if_neg hnot).trans ((memRead_put_dma m v x).trans (if_neg hx)))

/-! ### The sprites selected for a scanline -/

/-- Strictly earlier in the order of R326: by x, then by index. -/
def SpriteBefore (s s' : Sprite) : Prop := s.x.toNat < s'.x.toNat ∨ (s.x = s'.x ∧ s.index < s'.index)

/-- Among sprites of different index the order of R326 is strict. -/
theorem spriteBefore_of_spriteLe {s s' : Sprite} (h : spriteLe s s' = true) (hi : s.index ≠ s'.index) :
    SpriteBefore s s' := by
  simp only [spriteLe, Bool.or_eq_true, decide_eq_true_eq, Bool.and_eq_true] at h
  exact h.imp_right fun ⟨hx, hle⟩ => ⟨hx, by omega⟩

theorem coversLine_iff {height ly : Nat} {s : Sprite} :
    coversLine height ly s = true ↔ s.y.toNat ≤ ly + 16 ∧ ly + 16 < s.y.toNat + height := by
  simp only [coversLine, Bool.and_eq_true, decide_eq_true_eq]

/-- The entries of OAM that cover the scanline, in the order of R326, before the selection keeps ten of them. -/
def coveringSprites (m : Memory) (height ly : Nat) : List Sprite :=
  sortSprites (((List.range 40).map (oamEntry m)).filter (coversLine height ly))

theorem selectSprites_eq_take (m : Memory) (height ly : Nat) :
    selectSprites m height ly = (coveringSprites m height ly).take 10 := rfl

theorem mem_coveringSprites {m : Memory} {height ly : Nat} {s : Sprite} :
    s ∈ coveringSprites m height ly ↔ ∃ i < 40, s = oamEntry m i ∧ coversLine height ly s = true := by
  simp only [coveringSprites, mem_sortSprites, List.mem_filter, List.mem_map, List.mem_range]
  constructor
  · rintro ⟨⟨i, hi, rfl⟩, hc⟩
    exact ⟨i, hi, rfl, hc⟩
  · rintro ⟨i, hi, rfl, hc⟩
    exact ⟨⟨i, hi, rfl⟩, hc⟩

/-- No two of them have the same index: each is an entry of its own. -/
theorem coveringSprites_index_ne (m : Memory) (height ly : Nat) :
    (coveringSprites m height ly).Pairwise fun s s' => s.index ≠ s'.index := by
  have hentries : ((List.range 40).map (oamEntry m)).Pairwise fun s s' => s.index ≠ s'.index :=
    List.pairwise_map.2 List.nodup_range
  exact (hentries.filter _).perm (sortSprites_perm _).symm Ne.symm

/-- They stand in strictly rising order. -/
theorem coveringSprites_sorted (m : Memory) (height ly : Nat) :
    (coveringSprites m height ly).Pairwise SpriteBefore :=
  (sortSprites_sorted _).imp₂ (fun _ _ => spriteBefore_of_spriteLe) (coveringSprites_index_ne m height ly)

/-- What a cut of an ordered list leaves out comes after all it keeps, and the cut is then full. -/
theorem take_full_and_before_of_not_mem {α : Type} {R : α → α → Prop} {l : List α} {n : Nat} {x : α}
    (hl : l.Pairwise R) (hx : x ∈ l) (hn : x ∉ l.take n) : (l.take n).length = n ∧ ∀ y ∈ l.take n, R y x := by
  have hlen : n ≤ l.length := by
    by_contra hlt
    rw [List.take_of_length_le (by omega)] at hn
    exact hn hx
  have hdrop : x ∈ l.drop n := by
    rw [← List.take_append_drop n l, List.mem_append] at hx
    exact hx.resolve_left hn
  rw [← List.take_append_drop n l, List.pairwise_append] at hl
  exact ⟨List.length_take_of_le hlen, fun y hy => hl.2.2 y hy x hdrop⟩

theorem selectSprites_length_le (m : Memory) (height ly : Nat) : (selectSprites m height ly).length ≤ 10 :=
  List.length_take_le _ _

theorem selectSprites_sorted (m : Memory) (height ly : Nat) : (selectSprites m height ly).Pairwise SpriteBefore :=
  (coveringSprites_sorted m height ly).sublist (List.take_sublist _ _)

/-- A selected sprite is an entry of OAM that covers the scanline. -/
theorem entry_of_mem_selectSprites {m : Memory} {height ly : Nat} {s : Sprite} (h : s ∈ selectSprites m height ly) :
    ∃ i < 40, s = oamEntry m i ∧ coversLine height ly s = true :=
  mem_coveringSprites.1 (List.mem_of_mem_take h)

/-- A covering entry is left out only after ten that come before it. -/
theorem selectSprites_full_of_not_mem {m : Memory} {height ly i : Nat} (hi : i < 40)
    (hc : coversLine height ly (oamEntry m i) = true) (hn : oamEntry m i ∉ selectSprites m height ly) :
    (selectSprites m height ly).length = 10 ∧ ∀ s ∈ selectSprites m height ly, SpriteBefore s (oamEntry m i) :=
  take_full_and_before_of_not_mem (coveringSprites_sorted m height ly) (mem_coveringSprites.2 ⟨i, hi, rfl, hc⟩) hn

/-! ### The dots of OamScan and Draw -/

/-- A dot that emits a column, before the last. -/
theorem drawTick_emit_inner {p : Params} {m : Memory} {lcdc : Byte} (wlc : Nat) {line : DrawLine} (h : line.penalty = 0)
    (hc : windowCovers m lcdc line.col line.ly = false ∨ line.windowShown = true ∨ p.windowStallDots = 0)
    (hcol : line.col + 1 ≠ 160) :
    drawTick p m lcdc wlc line =
      ({ mode := .draw
           { line with
             dots := line.dots + 1
             col := line.col + 1
             windowShown := line.windowShown || windowCovers m lcdc line.col line.ly }
         wlc := wlc },
        some { x := line.col, y := line.ly, color := pixelColor m lcdc wlc line.sprites line.col line.ly }) := by
  rw [drawTick_emit wlc h hc, emitTick_eq]
  simp only [hcol, if_false, false_and]

/-- The dot that emits the last column and starts HBlank. -/
theorem drawTick_emit_last {p : Params} {m : Memory} {lcdc : Byte} (wlc : Nat) {line : DrawLine} (h : line.penalty = 0)
    (hc : windowCovers m lcdc line.col line.ly = false ∨ line.windowShown = true ∨ p.windowStallDots = 0)
    (hcol : line.col + 1 = 160) :
    drawTick p m lcdc wlc line =
      ({ mode := .hBlank line.ly (hBlankDots p (line.dots + 1))
         wlc := if line.windowShown || windowCovers m lcdc line.col line.ly then wlc + 1 else wlc },
        some { x := line.col, y := line.ly, color := pixelColor m lcdc wlc line.sprites line.col line.ly }) := by
  rw [drawTick_emit wlc h hc, emitTick_eq]
  simp only [hcol, if_true, true_and]

/-- Settles O54: OamScan by its two kinds of dot and the laws of `selectSprites`, Draw by the three kinds of dot of
`drawTick`. -/
theorem spriteSelection : Obligations.SpriteSelection := by
  intro p m ly wlc lcdc height entry covers before hon
  refine ⟨fun n => tickOneDot_oamScan hon p wlc ly n, ?_, fun line => ?_⟩
  · refine ⟨selectSprites m height ly, tickOneDot_oamScan_last hon p wlc ly, selectSprites_length_le m height ly,
      selectSprites_sorted m height ly, fun s hs => ?_, fun i hi hc hn => ?_⟩
    · obtain ⟨i, hi, hentry, hc⟩ := entry_of_mem_selectSprites hs
      exact ⟨i, hi, hentry, coversLine_iff.1 hc⟩
    · exact selectSprites_full_of_not_mem hi (coversLine_iff.2 hc) hn
  · have hdot := tickOneDot_draw hon p wlc line
    refine ⟨fun hpen => ?_, fun hpen hcov hnew hstall => ?_, fun hpen hc => ⟨fun hcol => ?_, fun hcol => ?_⟩⟩
    · exact hdot.trans (drawTick_penalty p m lcdc wlc hpen)
    · exact hdot.trans (drawTick_stall wlc hpen hcov hnew hstall)
    · exact hdot.trans (drawTick_emit_inner wlc hpen hc hcol)
    · exact ⟨hBlankDots p (line.dots + 1), hBlankDots_pos p _, hBlankDots_of_lt p,
        hdot.trans (drawTick_emit_last wlc hpen hc hcol)⟩

end Sys2Proof.Machine

/-! ## Family 20_memory: what a bus write leaves -/

namespace Sys2Proof.Machine

/-- A write to a region that is not writable leaves the memory itself as it is (R64, R68, R71). -/
theorem memWrite_of_not_writable {addr : Word} (hw : ¬(regionOf addr.toNat).writable = true) (m : Memory) (v : Byte) :
    memWrite m addr v = m := by
  have hne : addr ≠ dmaAddr := by
    rintro rfl
    exact hw rfl
  rw [memWrite, if_neg hne, writeRegion, if_neg hw]

/-- The addresses that show a byte of storage: its own, and its mirror in the first 7,680 bytes of work RAM (R67, R68). -/
theorem storageAddr_eq_self_or_mirror {x addr : Word} (hs : (regionOf addr.toNat).hasStorage = true) :
    storageAddr x = some addr.toNat ↔
      x = addr ∨ (0xC000 ≤ addr.toNat ∧ addr.toNat ≤ 0xDDFF ∧ x = addr + 0x2000) := by
  have hx := x.isLt
  have hmirror : (addr + 0x2000 : Word).toNat = (addr.toNat + 0x2000) % 0x10000 := BitVec.toNat_add ..
  rw [storageAddr_eq_some, ← BitVec.toNat_inj, ← BitVec.toNat_inj, hmirror]
  constructor
  · rintro (⟨hlo, hhi, hk⟩ | ⟨-, hk⟩)
    · exact .inr (by omega)
    · exact .inl hk.symm
  · rintro (hself | hshown)
    · exact .inr ⟨hself ▸ hs, hself.symm⟩
    · exact .inl (by omega)

/-- Settles O10: by whether the region of the address is writable; if it is, the addresses that show the written byte are
its own and its mirror. -/
theorem busWrite : Obligations.BusWrite := by
  intro m a v hdma
  refine ⟨fun hfixed => ?_, fun hstored x => ?_⟩
  · have hw : ¬(regionOf a.toNat).writable = true := fun hw => by
      have := writable_iff.1 hw
      omega
    exact memWrite_of_not_writable hw m v
  · have hw : (regionOf a.toNat).writable = true := writable_iff.2 (by omega)
    have hshown := storageAddr_eq_self_or_mirror (x := x) (hasStorage_of_writable hw)
    exact (memRead_memWrite_of_ne hdma m v x).trans (if_congr ((and_iff_right hw).trans hshown) rfl rfl)

end Sys2Proof.Machine

/-! ## Family 30_encoding: the length of what is decoded -/

namespace Sys2Proof

/-! ### After the prefix: always two bytes -/

@[simp] theorem decodeShift_length (y : Nat) (opd : Option Reg8) : (decodeShift y opd).length = 2 := by
  unfold decodeShift
  split <;> rfl

@[simp] theorem decodeCb_length (op2 : Byte) : (decodeCb op2).length = 2 := by
  unfold decodeCb
  split
  case h_1 => exact decodeShift_length _ _
  all_goals rfl

/-! ### Any first byte: the bytes after it are operands and do not choose the row -/

@[simp] theorem decodeAluImm_length (y : Nat) (n : Byte) : (decodeAluImm y n).length = 2 := by
  unfold decodeAluImm
  split <;> rfl

theorem decodeQuarter0_length_operands (y z : Nat) (n n' : Byte) (nn nn' : Word) :
    (decodeQuarter0 y z n nn).length = (decodeQuarter0 y z n' nn').length := by
  unfold decodeQuarter0
  split
  case h_1 | h_2 | h_7 => split <;> rfl
  all_goals rfl

theorem decodeQuarter3_length_operands (y z : Nat) (n n' : Byte) (nn nn' : Word) :
    (decodeQuarter3 y z n nn).length = (decodeQuarter3 y z n' nn').length := by
  unfold decodeQuarter3
  split
  case h_1 | h_3 | h_4 | h_5 | h_6 => split <;> rfl
  case h_7 => rw [decodeAluImm_length, decodeAluImm_length]
  all_goals rfl

theorem decodeFirst_length_operands (op n1 n2 m1 m2 : Byte) :
    (decodeFirst op n1 n2).length = (decodeFirst op m1 m2).length := by
  unfold decodeFirst
  split
  case h_1 => exact decodeQuarter0_length_operands ..
  case h_4 => exact decodeQuarter3_length_operands ..
  all_goals rfl

theorem decodeBytes_length_operands (b0 b1 b2 c1 c2 : Byte) :
    (decodeBytes b0 b1 b2).length = (decodeBytes b0 c1 c2).length := by
  unfold decodeBytes
  split
  · rw [decodeCb_length, decodeCb_length]
  · exact decodeFirst_length_operands ..

/-- Settles O3: the bytes after the first do not change the length, so they may be taken as 0, and what is left is the
comparison of R107's lists with the first-byte map at its 256 places. -/
theorem lengthByFirstByte : Obligations.LengthByFirstByte := by
  intro b0 b1 b2
  rw [decodeBytes_length_operands b0 b1 b2 0 0]
  revert b0
  decide

end Sys2Proof

/-! ## Family 40_load8: the 8-bit loads -/

namespace Sys2Proof.Machine

/-! ### The shapes of an instruction's rule -/

/-- An instruction that only computes its next state and reports its cycles. -/
theorem executes_of_done {i : Instr} {bytes : List Byte} {n : Nat} {s t : State} (henc : encode i = bytes)
    (hexec : exec i s = done n t) : Executes i bytes n s t :=
  ⟨henc, hexec⟩

/-- An instruction that stores a byte and then goes on by `k`: where the store is not the fatal one, `k` starts from the
bus write (R62, R68). -/
theorem executesStore_of_store {i : Instr} {bytes : List Byte} {n : Nat} {s t : State} {addr : Word} {v : Byte}
    {k : State → Res} (henc : encode i = bytes) (hexec : exec i s = andThen (store addr v s) k)
    (hrest : k (s.write addr v) = done n { t with mem := memWrite s.mem addr v }) (hcan : CanStore s addr) :
    ExecutesStore i bytes n s addr v t := by
  have hrun : exec i s = done n { t with mem := memWrite s.mem addr v } := by
    rw [hexec, store_of_canStore hcan, andThen_next, hrest]
  exact ⟨memWrite s.mem addr v, wroteByte_memWrite s.mem addr v, executes_of_done henc hrun⟩

/-! ### The loads and the stores -/

/-- Settles O14: each store instruction is `store` and then its cycles, after the step of HL for the two that move it; on
the I/O page the store is never the fatal one. -/
theorem storeByte : Obligations.StoreByte := by
  intro s r nn n
  rw [← ioPage_eq, ← ioPage_eq]
  refine ⟨fun hhl => ⟨?indR, ?indN, ?hlDec, ?hlInc⟩, ?bc, ?de, ?nn, ?ioC, ?ioN⟩
  case indR | indN | hlDec | hlInc => exact executesStore_of_store rfl rfl rfl hhl
  case bc | de | nn => exact executesStore_of_store rfl rfl rfl
  case ioC => exact executesStore_of_store rfl rfl rfl (canStore_ioPage s s.c)
  case ioN => exact executesStore_of_store rfl rfl rfl (canStore_ioPage s n)

/-- Settles O13: each arm is its register update and then its cycles, so its rule is the arm read off. -/
theorem loadByte : Obligations.LoadByte := by
  intro s dst src nn n
  rw [← ioPage_eq, ← ioPage_eq]
  refine ⟨?rr, ?rn, ?rInd, ?bc, ?de, ?nn, ?ioC, ?ioN, ?hlDec, ?hlInc⟩
  all_goals exact executes_of_done rfl rfl

end Sys2Proof.Machine

/-! ## Family 41_load16_stack: the 16-bit loads and the stack -/

namespace Sys2Proof.Machine

/-! ### The 16-bit loads -/

/-- R167 and R233 in arithmetic of their own: the sum is `plusSigned`, the carries are those of the low bytes. -/
theorem addSpOffset_eq (sp : Word) (e : Byte) :
    addSpOffset sp e =
      (plusSigned sp e, decide (16 ≤ sp.toNat % 16 + e.toNat % 16), decide (256 ≤ sp.toNat % 256 + e.toNat)) := by
  rw [addSpOffset, add_sext16]
  rfl

theorem exec_ldHlSpE (e : Byte) (s : State) :
    exec (.ldHlSpE e) s = done 3 { s.setHl (plusSigned s.sp e) with f := spOffsetFlags s.sp e } := by
  change execLdHlSpE e s = _
  rw [execLdHlSpE, addSpOffset_eq]
  rfl

/-- Where neither store is the fatal one, `LD (nn),SP` is its two bus writes, the low byte's first (R163). -/
theorem exec_ldNnSp_of_canStore {s : State} {nn : Word} (hlo : CanStore s nn) (hhi : CanStore s (nn + 1)) :
    exec (.ldNnSp nn) s = done 5 ((s.write nn (loByte s.sp)).write (nn + 1) (hiByte s.sp)) := by
  have hhi' : CanStore (s.write nn (loByte s.sp)) (nn + 1) := hhi
  change execLdNnSp nn s = _
  rw [execLdNnSp, store_of_canStore hlo, andThen_next, store_of_canStore hhi', andThen_next]

/-- Settles O15: the register loads are their arms read off; the store of SP is two bus writes, one after the other. -/
theorem loadPair : Obligations.LoadPair := by
  intro s rr nn e
  refine ⟨executes_of_done rfl rfl, executes_of_done rfl rfl, executes_of_done rfl (exec_ldHlSpE e s), ?nnSp⟩
  case nnSp =>
    intro hlo hhi
    exact ⟨_, _, wroteByte_memWrite _ _ _, wroteByte_memWrite _ _ _,
      executes_of_done rfl (exec_ldNnSp_of_canStore hlo hhi)⟩

/-! ### The push -/

/-- An instruction that pushes a word and then goes on by `k`: where neither byte's store is the fatal one, `k` starts
from the plain push (R68, R160). -/
theorem executesPush_of_push16 {i : Instr} {bytes : List Byte} {n : Nat} {s t : State} {w : Word} {k : State → Res}
    (henc : encode i = bytes) (hexec : exec i s = andThen (push16 w s) k)
    (hrest : k (s.pushPlain w) = done n { t with mem := (s.pushPlain w).mem }) (hcan : CanPush s) :
    ExecutesPush i bytes n s w t := by
  have hrun : exec i s = done n { t with mem := (s.pushPlain w).mem } := by
    rw [hexec, push16_of_canPush hcan, andThen_next, hrest]
  exact ⟨_, wrotePush_pushPlain s w, executes_of_done henc hrun⟩

theorem executesPush_pushRr {s : State} (rr : StkReg) (hcan : CanPush s) :
    ExecutesPush (.pushRr rr) (encode (.pushRr rr)) 4 s (s.getStk rr) { s with sp := s.sp - 2 } := by
  refine executesPush_of_push16 rfl rfl ?_ hcan
  rw [pushPlain_eq]

/-- Settles O16: every pair is pushed alike, and the words are those of the table `r16stk`, whose AF has F masked. -/
theorem pushPair : Obligations.PushPair := by
  intro s hcan
  exact ⟨executesPush_pushRr .bc hcan, executesPush_pushRr .de hcan, executesPush_pushRr .hl hcan,
    executesPush_pushRr .af hcan⟩

/-! ### The pop -/

/-- The table `r16stk` written byte by byte: AF masks the low byte (R166). -/
theorem setStk_wordOf (s : State) (hi lo : Byte) :
    s.setStk .bc (wordOf hi lo) = { s with b := hi, c := lo } ∧
      s.setStk .de (wordOf hi lo) = { s with d := hi, e := lo } ∧
      s.setStk .hl (wordOf hi lo) = { s with h := hi, l := lo } ∧
      s.setStk .af (wordOf hi lo) = { s with a := hi, f := lo &&& 0xF0#8 } := by
  simp only [State.setStk, State.setBc, State.setDe, State.setHl, State.writeF, hiByte_wordOf, loByte_wordOf, and_self]

theorem executes_popRr {s t : State} (rr : StkReg)
    (hset : State.setStk { s with sp := s.sp + 2 } rr (poppedWord s) = t) :
    Executes (.popRr rr) (encode (.popRr rr)) 3 s t :=
  executes_of_done rfl (congrArg (done 3) hset)

/-- Settles O17: every pair is popped alike, and the table `r16stk` is written with the popped word's two bytes. -/
theorem popPair : Obligations.PopPair := by
  intro s lo hi
  obtain ⟨hbc, hde, hhl, haf⟩ := setStk_wordOf { s with sp := s.sp + 2 } hi lo
  exact ⟨executes_popRr .bc hbc, executes_popRr .de hde, executes_popRr .hl hhl, executes_popRr .af haf⟩

end Sys2Proof.Machine

/-! ## Family 42_alu8: 8-bit arithmetic and logic -/

namespace Sys2Proof.Machine

/-! ### The operations in arithmetic of their own -/

theorem carryNat_eq_toNat (b : Bool) : carryNat b = b.toNat := by
  cases b <;> rfl

theorem byteOf_add_add_toNat (a b : Byte) (n : Nat) :
    byteOf (a.toNat + b.toNat + n) = a + b + BitVec.ofNat 8 n := by
  rw [byteOf, BitVec.ofNat_add, BitVec.ofNat_add, BitVec.ofNat_toNat, BitVec.ofNat_toNat, BitVec.setWidth_eq,
    BitVec.setWidth_eq]

theorem diffByte_eq_ofInt (a b : Byte) (cin : Bool) :
    diffByte a b cin = BitVec.ofInt 8 ((a.toNat : Int) - b.toNat - cin.toNat) := by
  rw [diffByte, carryNat_eq_toNat]
  apply BitVec.eq_of_toNat_eq
  have ha := a.isLt
  have hb := b.isLt
  have hc := cin.toNat_lt
  simp only [BitVec.toNat_sub, BitVec.toNat_ofNat, BitVec.toNat_ofInt]
  omega

theorem setAlu_add8 (s : State) (v : Byte) (cin : Bool) : s.setAlu (add8 s.a v cin) = afterAdd s v cin := by
  rw [add8, byteOf_add_add_toNat, afterAdd, carryNat_eq_toNat]
  rfl

/-- R181 in the two comparisons of `diffFlags`: a borrow is a negative difference. -/
theorem sub8_eq (a b : Byte) (cin : Bool) :
    sub8 a b cin =
      { val := diffByte a b cin, z := diffByte a b cin = 0, n := true,
        h := decide (a.toNat % 16 < b.toNat % 16 + carryNat cin), c := decide (a.toNat < b.toNat + carryNat cin) } := by
  have borrow (x y : Nat) : ((x : Int) - y - cin.toNat < 0) ↔ x < y + carryNat cin := by
    rw [carryNat_eq_toNat]
    omega
  rw [sub8, ← diffByte_eq_ofInt]
  simp only [borrow]

theorem setAlu_sub8 (s : State) (v : Byte) (cin : Bool) : s.setAlu (sub8 s.a v cin) = afterSub s v cin := by
  rw [sub8_eq]
  rfl

theorem setAluFlags_sub8 (s : State) (v : Byte) : s.setAluFlags (sub8 s.a v false) = afterCompare s v := by
  rw [sub8_eq]
  rfl

/-- The two corrections of DAA share no bit, so R210's OR of them is their sum. -/
theorem daa_adjustment (low high : Bool) :
    ((if low then 0x06 else 0) ||| (if high then 0x60 else 0) : Byte) =
      BitVec.ofNat 8 ((if low then 0x06 else 0) + (if high then 0x60 else 0)) := by
  revert low high
  decide

/-- DAA by its N flag: after a subtraction the corrections are those that H and C ask for; after an addition A may ask
for them too. -/
theorem setAlu_daa8 (s : State) : s.setAlu (daa8 s.a s.flagN s.flagH s.flagC) = afterDaa s := by
  unfold daa8 afterDaa State.flagN State.flagH State.flagC
  rcases Bool.eq_false_or_eq_true (s.f.getLsbD 6) with hn | hn
  · simp only [hn, if_true, Bool.not_true, Bool.false_and, Bool.or_false, daa_adjustment]
    rfl
  · simp only [hn, Bool.not_false, Bool.true_and, daa_adjustment]
    rfl

/-! ### The flags of a comparison -/

theorem afterCompare_flagZ (s : State) (v : Byte) : (afterCompare s v).flagZ = true ↔ s.a = v := by
  have hdiff : diffByte s.a v false = s.a - v := BitVec.sub_zero _
  have hzero : s.a - v = 0#8 ↔ s.a = v := sub_eq_zero
  simp [State.flagZ, afterCompare, diffFlags, hdiff, hzero]

theorem afterCompare_flagC (s : State) (v : Byte) : (afterCompare s v).flagC = true ↔ s.a.toNat < v.toNat := by
  simp [State.flagC, afterCompare, diffFlags, carryNat]

/-! ### The statements -/

/-- Settles O19: each arm is `add8` on its own operand and carry, and `add8` is `afterAdd`. -/
theorem addByte : Obligations.AddByte := by
  intro s r n
  refine ⟨?addR, ?addInd, ?addN, ?adcR, ?adcInd, ?adcN⟩
  all_goals exact executes_of_done rfl (congrArg (done _) (setAlu_add8 s _ _))

/-- Settles O20: each arm is `sub8` on its own operand and borrow, written to A and the flags or, by CP, to the flags. -/
theorem subtractByte : Obligations.SubtractByte := by
  intro s r n
  refine ⟨?subR, ?subInd, ?subN, ?sbcR, ?sbcInd, ?sbcN, ?cpR, ?cpInd, ?cpN, afterCompare_flagZ s n,
    afterCompare_flagC s n⟩
  case subR | subInd | subN | sbcR | sbcInd | sbcN =>
    exact executes_of_done rfl (congrArg (done _) (setAlu_sub8 s _ _))
  case cpR | cpInd | cpN => exact executes_of_done rfl (congrArg (done _) (setAluFlags_sub8 s _))

/-- Settles O21: each arm is its bitwise operation with the flags of `afterLogic`. -/
theorem logicByte : Obligations.LogicByte := by
  intro s r n
  refine ⟨?andR, ?andInd, ?andN, ?xorR, ?xorInd, ?xorN, ?orR, ?orInd, ?orN⟩
  all_goals exact executes_of_done rfl rfl

/-- Settles O22: on a register the arm is the register update and then the flags; at HL it is a store, and the flags
written after it do not look at what the store left. -/
theorem stepByte : Obligations.StepByte := by
  intro s r
  refine ⟨?incR, ?decR, fun hcan => ⟨?incInd, ?decInd⟩⟩
  case incR | decR => exact executes_of_done rfl rfl
  case incInd | decInd => exact executesStore_of_store rfl rfl rfl hcan

/-- Settles O23: DAA is `afterDaa`; the exclusive or of CPL is the complement; SCF and CCF write the flags alone. -/
theorem adjustAccumulator : Obligations.AdjustAccumulator := by
  intro s
  have hcpl : s.a ^^^ 0xFF#8 = ~~~s.a := BitVec.xor_allOnes
  refine ⟨?daa, ?cpl, ?scf, ?ccf⟩
  case daa => exact executes_of_done rfl (congrArg (done 1) (setAlu_daa8 s))
  case cpl =>
    rw [← hcpl]
    exact executes_of_done rfl rfl
  case scf | ccf => exact executes_of_done rfl rfl

end Sys2Proof.Machine

/-! ## Family 43_alu16: 16-bit arithmetic -/

namespace Sys2Proof.Machine

/-- R230 in arithmetic of its own: the sum modulo 65536 is that of the words; the carries are out of bits 11 and 15. -/
theorem add16_eq (a b : Word) :
    add16 a b =
      (a + b, decide (0x1000 ≤ a.toNat % 0x1000 + b.toNat % 0x1000), decide (0x10000 ≤ a.toNat + b.toNat)) := by
  have hsum : BitVec.ofNat 16 (a.toNat + b.toNat) = a + b := (BitVec.add_def a b).symm
  rw [add16, hsum]
  rfl

theorem exec_addHlRr (rr : Reg16) (s : State) :
    exec (.addHlRr rr) s = done 2 ((s.setHl (s.hl + s.getR16 rr)).setFlags s.flagZ false
      (decide (0x1000 ≤ s.hl.toNat % 0x1000 + (s.getR16 rr).toNat % 0x1000))
      (decide (0x10000 ≤ s.hl.toNat + (s.getR16 rr).toNat))) := by
  change execAddHlRr rr s = _
  rw [execAddHlRr, add16_eq]

theorem exec_addSpE (e : Byte) (s : State) :
    exec (.addSpE e) s = done 4 { s with sp := plusSigned s.sp e, f := spOffsetFlags s.sp e } := by
  change execAddSpE e s = _
  rw [execAddSpE, addSpOffset_eq]
  rfl

/-- Settles O25: the two additions are `add16` and `addSpOffset` in arithmetic of their own; `INC rr` and `DEC rr` are
their arms read off. -/
theorem wordArithmetic : Obligations.WordArithmetic := by
  intro s rr e
  refine ⟨?addHl, ?inc, ?dec, ?addSp⟩
  case addHl => exact executes_of_done rfl (exec_addHlRr rr s)
  case inc | dec => exact executes_of_done rfl rfl
  case addSp => exact executes_of_done rfl (exec_addSpE e s)

end Sys2Proof.Machine

/-! ## Family 44_rotate_shift_bit: rotates, shifts and bits -/

namespace Sys2Proof.Machine

/-! ### The bit shifted out -/

theorem getLsbD_seven_eq_decide (v : Byte) : v.getLsbD 7 = decide (128 ≤ v.toNat) :=
  BitVec.msb_eq_decide v

theorem getLsbD_zero_eq_decide (v : Byte) : v.getLsbD 0 = decide (v.toNat % 2 = 1) :=
  Nat.testBit_zero v.toNat

/-! ### The rotates as rotations -/

/-- RLC and RLCA: the bit that leaves at the top is the one that enters at the bottom. -/
theorem rlc8_eq (v : Byte) : rlc8 v = (v.rotateLeft 1, v.getLsbD 7) := by
  have htop : (if v.getLsbD 7 then 0x01 else 0 : Byte) = v >>> 7 := by
    revert v
    decide
  rw [rlc8, htop]
  rfl

/-- RRC and RRCA: the bit that leaves at the bottom is the one that enters at the top. -/
theorem rrc8_eq (v : Byte) : rrc8 v = (v.rotateRight 1, v.getLsbD 0) := by
  have hbottom : (if v.getLsbD 0 then 0x80 else 0 : Byte) = v <<< 7 := by
    revert v
    decide
  rw [rrc8, hbottom]
  rfl

/-- RL and RLA: a rotation of the carry and the byte; the new carry is the register's top bit (R242). -/
theorem rl8_eq (v : Byte) (c : Bool) :
    rl8 v c = (((withCarry c v).rotateLeft 1).setWidth 8, ((withCarry c v).rotateLeft 1).getLsbD 8) := by
  revert v c
  decide

/-- RR and RRA: a rotation of the carry and the byte; the new carry is the register's top bit (R243). -/
theorem rr8_eq (v : Byte) (c : Bool) :
    rr8 v c = (((withCarry c v).rotateRight 1).setWidth 8, ((withCarry c v).rotateRight 1).getLsbD 8) := by
  revert v c
  decide

/-! ### The shifts and the swap as arithmetic -/

theorem sla8_eq (v : Byte) : sla8 v = (BitVec.ofNat 8 (2 * v.toNat), decide (128 ≤ v.toNat)) := by
  have hdouble : v <<< 1 = BitVec.ofNat 8 (2 * v.toNat) := by
    apply BitVec.eq_of_toNat_eq
    rw [BitVec.toNat_shiftLeft, BitVec.toNat_ofNat, Nat.shiftLeft_eq, Nat.mul_comm]
  rw [sla8, hdouble, getLsbD_seven_eq_decide]

/-- R255: keeping bit 7 is the arithmetic shift, and that halves towards minus infinity. -/
theorem sra8_eq (v : Byte) : sra8 v = (BitVec.ofInt 8 (v.toInt / 2), decide (v.toNat % 2 = 1)) := by
  have harith : v >>> 1 ||| (v &&& 0x80) = v.sshiftRight 1 := by
    revert v
    decide
  rw [sra8, harith, getLsbD_zero_eq_decide, BitVec.sshiftRight, Int.shiftRight_eq_div_pow]
  rfl

/-- R257: the two shifted nibbles share no bit, so their OR is their sum. -/
theorem swap8_eq (v : Byte) : swap8 v = (BitVec.ofNat 8 (16 * (v.toNat % 16) + v.toNat / 16), false) := by
  have hdisjoint : v <<< 4 &&& v >>> 4 = 0#8 := by
    revert v
    decide
  have hswap : v <<< 4 ||| v >>> 4 = BitVec.ofNat 8 (16 * (v.toNat % 16) + v.toNat / 16) := by
    rw [← BitVec.add_eq_or_of_and_eq_zero _ _ hdisjoint]
    apply BitVec.eq_of_toNat_eq
    rw [BitVec.toNat_add, BitVec.toNat_shiftLeft, BitVec.toNat_ushiftRight, BitVec.toNat_ofNat, Nat.shiftLeft_eq,
      Nat.shiftRight_eq_div_pow]
    omega
  rw [swap8, hswap]

theorem srl8_eq (v : Byte) : srl8 v = (BitVec.ofNat 8 (v.toNat / 2), decide (v.toNat % 2 = 1)) := by
  have hhalf : v >>> 1 = BitVec.ofNat 8 (v.toNat / 2) := by
    apply BitVec.eq_of_toNat_eq
    have := v.isLt
    rw [BitVec.toNat_ushiftRight, BitVec.toNat_ofNat, Nat.shiftRight_eq_div_pow]
    omega
  rw [srl8, hhalf, getLsbD_zero_eq_decide]

/-! ### One bit cleared or set -/

theorem getLsbD_one_shiftLeft {b j : Nat} (hj : j < 8) : (1#8 <<< b).getLsbD j = decide (j = b) := by
  rw [← BitVec.twoPow_eq, BitVec.getLsbD_twoPow]
  simp only [eq_comm (a := b), Bool.and_eq_right_iff_imp, decide_eq_true_eq]
  rintro rfl
  exact hj

theorem getLsbD_clearBit (b : Nat) (v : Byte) {j : Nat} (hj : j < 8) :
    (clearBit b v).getLsbD j = (v.getLsbD j && decide (j ≠ b)) := by
  have hones : (0xFF#8).getLsbD j = true := by
    revert j
    decide
  rw [clearBit, BitVec.getLsbD_and, BitVec.getLsbD_xor, getLsbD_one_shiftLeft hj, hones, Bool.true_xor, decide_not]

theorem getLsbD_setBit (b : Nat) (v : Byte) {j : Nat} (hj : j < 8) :
    (setBit b v).getLsbD j = (v.getLsbD j || decide (j = b)) := by
  rw [setBit, BitVec.getLsbD_or, getLsbD_one_shiftLeft hj]

/-! ### The shapes of the rules of file 44 -/

theorem executes_rotateA {i : Instr} {bytes : List Byte} {s : State} {res : Byte × Bool} {w : Byte} {c : Bool}
    (henc : encode i = bytes) (hexec : exec i s = rotateA res s) (hres : res = (w, c)) :
    Executes i bytes 1 s { s with a := w, f := flagsByte false false false c } := by
  subst hres
  exact executes_of_done henc hexec

theorem executes_shiftReg {i : Instr} {bytes : List Byte} {s : State} {r : Reg8} {res : Byte × Bool} {w : Byte}
    {c : Bool} (henc : encode i = bytes) (hexec : exec i s = shiftReg r res s) (hres : res = (w, c)) :
    Executes i bytes 2 s (afterShift s r w c) := by
  subst hres
  exact executes_of_done henc hexec

/-- At HL the flags are written after the store and do not look at what it left. -/
theorem executesStore_shiftInd {i : Instr} {bytes : List Byte} {s : State} {res : Byte × Bool} {w : Byte} {c : Bool}
    (henc : encode i = bytes) (hexec : exec i s = shiftInd res s) (hres : res = (w, c)) (hcan : CanStore s s.hl) :
    ExecutesStore i bytes 4 s s.hl w { s with f := shiftFlags w c } := by
  subst hres
  exact executesStore_of_store henc hexec rfl hcan

/-! ### The statements -/

/-- Settles O26: each arm is `rotateA` of its rotate, and each rotate is its rotation. -/
theorem rotateAccumulator : Obligations.RotateAccumulator := by
  intro s
  exact ⟨executes_rotateA rfl rfl (rlc8_eq _), executes_rotateA rfl rfl (rrc8_eq _),
    executes_rotateA rfl rfl (rl8_eq _ _), executes_rotateA rfl rfl (rr8_eq _ _)⟩

/-- Settles O27: each arm is `shiftReg` of its operation, and each operation is its arithmetic. -/
theorem shiftRegister : Obligations.ShiftRegister := by
  intro s r
  refine ⟨?rlc, ?rrc, ?rl, ?rr, ?sla, ?sra, ?swap, ?srl⟩
  case rlc => exact executes_shiftReg rfl rfl (rlc8_eq _)
  case rrc => exact executes_shiftReg rfl rfl (rrc8_eq _)
  case rl => exact executes_shiftReg rfl rfl (rl8_eq _ _)
  case rr => exact executes_shiftReg rfl rfl (rr8_eq _ _)
  case sla => exact executes_shiftReg rfl rfl (sla8_eq _)
  case sra => exact executes_shiftReg rfl rfl (sra8_eq _)
  case swap => exact executes_shiftReg rfl rfl (swap8_eq _)
  case srl => exact executes_shiftReg rfl rfl (srl8_eq _)

/-- Settles O28: each arm is `shiftInd` of the operation that its register form has. -/
theorem shiftMemory : Obligations.ShiftMemory := by
  intro s hcan
  refine ⟨?rlc, ?rrc, ?rl, ?rr, ?sla, ?sra, ?swap, ?srl⟩
  case rlc => exact executesStore_shiftInd rfl rfl (rlc8_eq _) hcan
  case rrc => exact executesStore_shiftInd rfl rfl (rrc8_eq _) hcan
  case rl => exact executesStore_shiftInd rfl rfl (rl8_eq _ _) hcan
  case rr => exact executesStore_shiftInd rfl rfl (rr8_eq _ _) hcan
  case sla => exact executesStore_shiftInd rfl rfl (sla8_eq _) hcan
  case sra => exact executesStore_shiftInd rfl rfl (sra8_eq _) hcan
  case swap => exact executesStore_shiftInd rfl rfl (swap8_eq _) hcan
  case srl => exact executesStore_shiftInd rfl rfl (srl8_eq _) hcan

/-- Settles O29: BIT writes the flags alone; RES and SET are `clearBit` and `setBit` of the operand, written back to its
register or by a store at HL. -/
theorem bitOperations : Obligations.BitOperations := by
  intro s b r _
  refine ⟨?bitR, ?bitInd, clearBit b, setBit b, fun x _ hj => getLsbD_clearBit b x hj,
    fun x _ hj => getLsbD_setBit b x hj, ?resR, ?setR, fun hcan => ⟨?resInd, ?setInd⟩⟩
  case bitR | bitInd | resR | setR => exact executes_of_done rfl rfl
  case resInd | setInd => exact executesStore_of_store rfl rfl rfl hcan

end Sys2Proof.Machine

/-! ## Family 45_control_flow: jumps, calls and returns -/

namespace Sys2Proof.Machine

/-! ### Conditional transfers -/

/-- An instruction that ends in one of two states by a condition, each with its own cycles (R280). -/
theorem executes_of_done_ite {i : Instr} {bytes : List Byte} {n n' : Nat} {s t t' u : State} {c : Bool}
    (henc : encode i = bytes) (hexec : exec i s = if c then done n t else done n' t')
    (hend : (if c then t else t') = u) : Executes i bytes (if c then n else n') s u := by
  subst hend
  refine executes_of_done henc (hexec.trans ?_)
  cases c
  case true => rfl
  case false => rfl

/-- A jump that is not taken leaves PC, and so the state, as it is. -/
theorem jumpTo_ite (c : Bool) (target : Word) (s : State) :
    (if c then jumpTo target s else s) = { s with pc := if c then target else s.pc } := by
  cases c
  case true => rfl
  case false => rfl

/-- R284 in arithmetic of its own: the offset is a signed byte. -/
theorem relTarget_eq (s : State) (e : Byte) : relTarget s e = plusSigned s.pc e := add_sext16 s.pc e

/-! ### Calls -/

/-- A subroutine call goes on from the push, with PC at the target. -/
theorem andThen_callTo (target : Word) (s : State) (k : State → Res) :
    andThen (callTo target s) k = andThen (push16 s.pc s) fun t => k (jumpTo target t) := by
  rw [callTo]
  cases push16 s.pc s
  case next => rfl
  case fault => rfl
  case refused => rfl

/-- An instruction that is a call pushes PC, which is past its own bytes (R26), and ends at the target. -/
theorem executesPush_of_callTo {i : Instr} {bytes : List Byte} {n : Nat} {s : State} {target : Word}
    (henc : encode i = bytes) (hexec : exec i s = andThen (callTo target s) (done n)) (hcan : CanPush s) :
    ExecutesPush i bytes n s s.pc { s with sp := s.sp - 2, pc := target } := by
  refine executesPush_of_push16 henc (hexec.trans (andThen_callTo target s _)) ?_ hcan
  rw [pushPlain_eq]
  rfl

theorem exec_callCcNn_of_cond {cc : Cond} {s : State} (h : s.cond cc = true) (nn : Word) :
    exec (.callCcNn cc nn) s = andThen (callTo nn s) (done 6) :=
  if_pos h

theorem exec_callCcNn_of_not_cond {cc : Cond} {s : State} (h : s.cond cc = false) (nn : Word) :
    exec (.callCcNn cc nn) s = done 3 s :=
  if_neg (Bool.eq_false_iff.1 h)

/-- R291: the target of RST is a multiple of 8. -/
theorem exec_rstT (t : Nat) (s : State) :
    exec (.rstT t) s = andThen (callTo (BitVec.ofNat 16 (t * 8)) s) (done 4) := by
  rw [Nat.mul_comm]
  rfl

/-! ### The statements -/

/-- Settles O32: each taken form is `callTo` and then its cycles; a CALL whose condition fails only reports its cycles. -/
theorem calls : Obligations.Calls := by
  intro s cc nn t _
  refine ⟨fun hcan => ⟨?callNn, fun htaken => ?callCc, ?rst⟩, fun hnot => ?notTaken⟩
  case callNn => exact executesPush_of_callTo rfl rfl hcan
  case callCc => exact executesPush_of_callTo rfl (exec_callCcNn_of_cond htaken nn) hcan
  case rst => exact executesPush_of_callTo rfl (exec_rstT t s) hcan
  case notTaken => exact executes_of_done rfl (exec_callCcNn_of_not_cond hnot nn)

/-- Settles O31: each arm is `jumpTo` its target, where the condition holds; the relative target is `plusSigned`. -/
theorem jumps : Obligations.Jumps := by
  intro s cc nn e
  rw [← relTarget_eq]
  refine ⟨?jpNn, ?jpCc, ?jpHl, ?jrE, ?jrCc⟩
  case jpNn | jpHl | jrE => exact executes_of_done rfl rfl
  case jpCc | jrCc => exact executes_of_done_ite rfl rfl (jumpTo_ite _ _ s)

/-- Settles O33: RET and RET cc are `returnTo`, RETI is `returnFromInterrupt`; both go to the popped word. -/
theorem returns : Obligations.Returns := by
  intro s cc
  refine ⟨?ret, ?retCc, ?reti⟩
  case ret | reti => exact executes_of_done rfl rfl
  case retCc => exact executes_of_done_ite rfl rfl rfl

end Sys2Proof.Machine

/-! ## Family 46_system: STOP and the unassigned bytes -/

namespace Sys2Proof.Machine

/-- An instruction is fetched in as many bytes as its encoding has (R107). -/
theorem encode_length (i : Instr) : (encode i).length = i.length := by cases i <;> rfl

/-! ### An instruction that aborts as an unknown opcode -/

/-- A step whose instruction is one byte and aborts as an unknown opcode aborts with that byte at PC, in Running and in
HaltBug. -/
theorem step_of_unknownOpcode {s : State} {op : Byte} (hawake : s.haltState ≠ .halted)
    (henc : encode (fetchInstr s) = [op]) (hexec : exec (fetchInstr s) s.fetched = unknownOpcode op s.fetched) :
    step s = .fault (.unknownOpcode op s.pc) := by
  have hlen : (fetchInstr s).length = 1 := by rw [← encode_length, henc]; rfl
  have haddr : s.fetched.opcodeAddr = s.pc := by rw [State.fetched, hlen, opcodeAddr_fetched hawake]
  refine step_eq_fault.2 ⟨hawake, ?_⟩
  rw [hexec, unknownOpcode, haddr]

/-! ### STOP -/

theorem exec_stop_of_nop2 {s : State} (h : s.params.stopPolicy = .nop2) :
    exec .stop s = done 1 { s with pc := s.pc + 1 } := by
  simp only [exec, execStop, h, fetch8]

theorem exec_stop_of_fault {s : State} (h : s.params.stopPolicy = .fault) :
    exec .stop s = unknownOpcode 0x10 s := by
  simp only [exec, execStop, h]

theorem fetchInstr_of_stop {s : State} (h : s.read s.pc = 0x10) : fetchInstr s = .stop := by
  rw [fetchInstr_eq, h]
  rfl

/-- Settles O35: `nop2` is the skip of one byte and its cycle; under `fault` the step aborts as at an unknown opcode. -/
theorem stopPolicies : Obligations.StopPolicies := by
  intro s
  refine ⟨fun hnop => ?nop2, fun hfault hawake hread => ?fault⟩
  case nop2 => exact executes_of_done rfl (exec_stop_of_nop2 hnop)
  case fault =>
    have hstop := fetchInstr_of_stop hread
    refine step_of_unknownOpcode hawake (hstop ▸ rfl) ?_
    rw [hstop]
    exact exec_stop_of_fault hfault

/-! ### The eleven unassigned bytes -/

theorem exec_of_isIllegal {i : Instr} (h : isIllegal i = true) :
    ∃ op, encode i = [op] ∧ ∀ s, exec i s = unknownOpcode op s := by
  cases i
  case illegalD3 | illegalDB | illegalDD | illegalE3 | illegalE4 | illegalEB | illegalEC | illegalED | illegalF4
      | illegalFC | illegalFD => exact ⟨_, rfl, fun _ => rfl⟩
  all_goals cases h

/-- Each unassigned byte decodes to its own illegal instruction, whatever bytes stand after it. -/
theorem decodeBytes_of_unassigned {op : Byte}
    (h : op ∈ ([0xD3, 0xDB, 0xDD, 0xE3, 0xE4, 0xEB, 0xEC, 0xED, 0xF4, 0xFC, 0xFD] : List Byte)) (b1 b2 : Byte) :
    isIllegal (decodeBytes op b1 b2) = true ∧ encode (decodeBytes op b1 b2) = [op] := by
  fin_cases h <;> exact ⟨rfl, rfl⟩

/-- Settles O36: an illegal instruction is its one byte and aborts with it, and an unassigned byte is fetched as one. -/
theorem unassignedAbort : Obligations.UnassignedAbort := by
  refine ⟨fun i s hillegal => ?instruction, fun s hawake hread => ?step⟩
  case instruction =>
    obtain ⟨op, henc, hexec⟩ := exec_of_isIllegal hillegal
    exact ⟨op, henc, hexec s⟩
  case step =>
    obtain ⟨hillegal, henc⟩ := decodeBytes_of_unassigned hread (s.read s.afterOpcode) (s.read (s.afterOpcode + 1))
    rw [← fetchInstr_eq] at hillegal henc
    obtain ⟨op, hop, hexec⟩ := exec_of_isIllegal hillegal
    obtain rfl : op = s.read s.pc := List.singleton_inj.1 (hop.symm.trans henc)
    exact step_of_unknownOpcode hawake henc (hexec s.fetched)

end Sys2Proof.Machine

/-! ## Family 50_video_unit: the LCD switch, the colour of a pixel, the reconciliation -/

namespace Sys2Proof.Machine

/-! ### The LCD switch -/

/-- Settles O55: the two rules of `tickOneDot` that do not look at the counts of a mode. -/
theorem lcdDisableAndRestart : Obligations.LcdDisableAndRestart := by
  rintro p m ⟨mode, wlc⟩
  refine ⟨fun hoff => tickOneDot_off hoff p _, fun hon hstopped => ?_⟩
  obtain rfl : mode = .stopped := hstopped
  exact tickOneDot_stopped hon p wlc

/-! ### A tile's row of pixels (R339 to R342) -/

/-- The colour id at column `x` of the tile row whose bit planes stand at `addr` and `addr + 1`, in arithmetic of its own. -/
def rowPixel (m : Memory) (addr : Int) (x : Nat) : Nat :=
  2 * ((memRead m (BitVec.ofInt 16 (addr + 1))).toNat / 2 ^ (7 - x) % 2) +
    (memRead m (BitVec.ofInt 16 addr)).toNat / 2 ^ (7 - x) % 2

theorem planePixel_toNat (lo hi : Byte) (x : Nat) :
    (planePixel lo hi x).toNat = 2 * (hi.toNat / 2 ^ (7 - x) % 2) + lo.toNat / 2 ^ (7 - x) % 2 := by
  have hlow : (lo.getLsbD (7 - x)).toNat < 2 ^ 1 := Bool.toNat_lt _
  rw [planePixel, BitVec.toNat_append, BitVec.toNat_ofBool, BitVec.toNat_ofBool, ← Nat.shiftLeft_add_eq_or_of_lt hlow,
    Nat.shiftLeft_eq, ← BitVec.testBit_toNat, ← BitVec.testBit_toNat, Nat.toNat_testBit, Nat.toNat_testBit, Nat.mul_comm,
    Nat.pow_one]

theorem planePixel_memRead (m : Memory) (addr : Int) (x : Nat) :
    (planePixel (memRead m (BitVec.ofInt 16 addr)) (memRead m (BitVec.ofInt 16 addr + 1)) x).toNat =
      rowPixel m addr x := by
  have hnext : BitVec.ofInt 16 addr + 1 = BitVec.ofInt 16 (addr + 1) := (BitVec.ofInt_add addr 1).symm
  rw [hnext, planePixel_toNat, rowPixel]

/-- Row `n` of a tile is two bytes for each row above it past the tile's address. -/
theorem ofInt_add_ofNat_double (addr : Int) (n : Nat) :
    BitVec.ofInt 16 addr + BitVec.ofNat 16 (2 * n) = BitVec.ofInt 16 (addr + 2 * (n : Int)) := by
  rw [BitVec.ofInt_add, ← BitVec.ofInt_natCast, Nat.cast_mul, Nat.cast_ofNat]

/-- The address of a tile by its number without a sign, as R340 has it for `LCDC[4] = 1` and for sprites. -/
theorem tileAddr_unsigned (t : Byte) : 0x8000 + zext16 t * 16 = BitVec.ofInt 16 (0x8000 + 16 * (t.toNat : Int)) := by
  rw [BitVec.ofInt_add, Int.mul_comm, BitVec.ofInt_mul, BitVec.ofInt_natCast, BitVec.ofNat_toNat]
  rfl

/-- The address of a tile by its signed number, as R340 has it for `LCDC[4] = 0`. -/
theorem tileAddr_signed (t : Byte) : 0x9000 + sext16 t * 16 = BitVec.ofInt 16 (0x9000 + 16 * t.toInt) := by
  rw [BitVec.ofInt_add, Int.mul_comm, BitVec.ofInt_mul]
  rfl

/-- R340 in arithmetic of its own. -/
def tileBase (lcdc t : Byte) : Int :=
  if lcdc.getLsbD 4 then 0x8000 + 16 * (t.toNat : Int) else 0x9000 + 16 * t.toInt

theorem tileAddr_eq (lcdc t : Byte) : tileAddr lcdc t = BitVec.ofInt 16 (tileBase lcdc t) := by
  rw [tileAddr, tileAddr_unsigned, tileAddr_signed, tileBase, apply_ite (BitVec.ofInt 16)]

/-- R341 in arithmetic of its own. -/
theorem tilePixel_toNat (m : Memory) (lcdc t : Byte) (cx cy : Nat) :
    (tilePixel m lcdc t cx cy).toNat = rowPixel m (tileBase lcdc t + 2 * (cy : Int)) cx := by
  rw [tilePixel, tileAddr_eq, ofInt_add_ofNat_double]
  exact planePixel_memRead m _ cx

/-- R338 and R339: the pixel of a plane, from the tile that its map has there. -/
theorem planeId_toNat (m : Memory) (lcdc : Byte) (base px py : Nat) :
    (planeId m lcdc base px py).toNat =
      rowPixel m
        (tileBase lcdc (memRead m (BitVec.ofNat 16 (base + 32 * (py / 8) + px / 8))) + 2 * ((py % 8 : Nat) : Int))
        (px % 8) := by
  rw [planeId, tilePixel_toNat, tileNumber, Nat.mul_comm (py / 8)]

/-! ### The background and the window (R337, R338) -/

theorem backgroundId_of_off {lcdc : Byte} (h : lcdc.getLsbD 0 = false) (m : Memory) (wlc col ly : Nat) :
    backgroundId m lcdc wlc col ly = 0 :=
  if_neg (Bool.eq_false_iff.1 h)

theorem backgroundId_of_on {lcdc : Byte} (h : lcdc.getLsbD 0 = true) (m : Memory) (wlc col ly : Nat) :
    backgroundId m lcdc wlc col ly =
      if windowCovers m lcdc col ly then
        planeId m lcdc (mapBase (lcdc.getLsbD 6)) (col + 7 - (memRead m wxAddr).toNat) wlc
      else
        planeId m lcdc (mapBase (lcdc.getLsbD 3)) ((col + (memRead m scxAddr).toNat) % 256)
          ((ly + (memRead m scyAddr).toNat) % 256) :=
  if_pos h

/-! ### A sprite's pixel (R342) -/

/-- A sprite of two tiles starts at the even one of the pair. -/
theorem toNat_and_0xFE (t : Byte) : (t &&& 0xFE#8).toNat = t.toNat / 2 * 2 := by
  revert t
  decide

/-- R342 in arithmetic of its own: the row and the column under the flips, in the tile or the pair of tiles. -/
theorem spriteId_toNat (m : Memory) (lcdc : Byte) (s : Sprite) (col ly : Nat) :
    (spriteId m lcdc s col ly).toNat =
      rowPixel m
        (0x8000 + 16 * ((if lcdc.getLsbD 2 then s.tile.toNat / 2 * 2 else s.tile.toNat : Nat) : Int) +
          2 * ((if s.flags.getLsbD 6 then spriteHeight lcdc - 1 - spriteRow (spriteHeight lcdc) ly s
            else spriteRow (spriteHeight lcdc) ly s : Nat) : Int))
        (if s.flags.getLsbD 5 then 7 - (col + 8 - s.x.toNat) else col + 8 - s.x.toNat) := by
  have htile : (if lcdc.getLsbD 2 then s.tile &&& 0xFE#8 else s.tile).toNat =
      if lcdc.getLsbD 2 then s.tile.toNat / 2 * 2 else s.tile.toNat := by
    rw [apply_ite BitVec.toNat, toNat_and_0xFE]
  rw [spriteId, tileAddr_unsigned, htile, ofInt_add_ofNat_double]
  exact planePixel_memRead m _ _

/-- Settles O58: the window's rectangle is `windowCovers`; a background or window pixel is one of a plane, a sprite's is one
of its own tiles. -/
theorem tileFetch : Obligations.TileFetch := by
  intro m lcdc wlc col ly s
  refine ⟨rfl, fun hoff => backgroundId_of_off hoff m wlc col ly, fun hon => ?_, spriteId_toNat m lcdc s col ly⟩
  rw [backgroundId_of_on hon, apply_ite BitVec.toNat, planeId_toNat, planeId_toNat]
  rfl

/-! ### Composition (R336, R343, R344) -/

/-- The sprite covers the column (R336). -/
def CoversColumn (col : Nat) (s : Sprite) : Prop := s.x.toNat ≤ col + 8 ∧ col + 8 < s.x.toNat + 8

theorem coversColumn_iff {col : Nat} {s : Sprite} :
    (decide (s.x.toNat ≤ col + 8) && decide (col < s.x.toNat)) = true ↔ CoversColumn col s := by
  rw [Bool.and_eq_true, decide_eq_true_eq, decide_eq_true_eq, CoversColumn]
  omega

theorem spriteAt_eq_none {lcdc : Byte} {sprites : List Sprite} {col : Nat}
    (h : lcdc.getLsbD 1 = false ∨ ∀ s ∈ sprites, ¬CoversColumn col s) : spriteAt lcdc sprites col = none := by
  rcases h with hoff | hnone
  · exact if_neg (Bool.eq_false_iff.1 hoff)
  · have hfind := List.find?_eq_none.2 fun s hs => coversColumn_iff.not.2 (hnone s hs)
    rw [spriteAt, hfind, ite_self]

/-- The first sprite of the list that covers the column is the one. -/
theorem spriteAt_eq_some {lcdc : Byte} {pre post : List Sprite} {s : Sprite} {col : Nat} (hon : lcdc.getLsbD 1 = true)
    (hs : CoversColumn col s) (hpre : ∀ s' ∈ pre, ¬CoversColumn col s') :
    spriteAt lcdc (pre ++ s :: post) col = some s := by
  rw [spriteAt, if_pos hon, List.find?_eq_some_iff_append]
  refine ⟨coversColumn_iff.2 hs, pre, post, rfl, fun s' hs' => ?_⟩
  rw [Bool.not_eq_true', Bool.eq_false_iff]
  exact coversColumn_iff.not.2 (hpre s' hs')

theorem pixelColor_of_none {lcdc : Byte} {sprites : List Sprite} {col : Nat} (h : spriteAt lcdc sprites col = none)
    (m : Memory) (wlc ly : Nat) : pixelColor m lcdc wlc sprites col ly = layerColor m lcdc wlc col ly := by
  rw [pixelColor, h]

theorem pixelColor_of_some {lcdc : Byte} {sprites : List Sprite} {col : Nat} {s : Sprite}
    (h : spriteAt lcdc sprites col = some s) (m : Memory) (wlc ly : Nat) :
    pixelColor m lcdc wlc sprites col ly =
      if spriteId m lcdc s col ly ≠ 0 ∧ (s.flags.getLsbD 7 = false ∨ backgroundId m lcdc wlc col ly = 0) then
        paletteShade (objPalette m s) (spriteId m lcdc s col ly)
      else layerColor m lcdc wlc col ly := by
  rw [pixelColor, h]

/-- The two bits of a palette that an id selects (R344). -/
theorem paletteBits_toNat (pal : Byte) (id : BitVec 2) :
    ((pal >>> (2 * id.toNat)).extractLsb' 0 2).toNat = pal.toNat / 4 ^ id.toNat % 4 := by
  rw [BitVec.extractLsb'_toNat, BitVec.toNat_ushiftRight, Nat.shiftRight_zero, Nat.shiftRight_eq_div_pow, Nat.pow_mul]

/-- Settles O57: by what `spriteAt` finds, and then the condition under which the sprite shows. -/
theorem pixelComposition : Obligations.PixelComposition := by
  refine ⟨fun m lcdc wlc sprites col ly => ?composition, fun pal id => ?palette⟩
  case composition =>
    refine ⟨fun hoff => backgroundId_of_off hoff m wlc col ly,
      fun hnone => pixelColor_of_none (spriteAt_eq_none hnone) m wlc ly, ?_⟩
    rintro s pre post hon rfl hs hpre
    have hcolor := pixelColor_of_some (spriteAt_eq_some (post := post) hon hs hpre) m wlc ly
    refine ⟨fun hhidden => hcolor.trans (if_neg ?hidden), fun hsid hfront => hcolor.trans (if_pos ⟨hsid, hfront⟩)⟩
    case hidden =>
      rintro ⟨hsid, hfront⟩
      rcases hhidden with hclear | ⟨hbehind, hbid⟩
      · exact hsid hclear
      · exact hfront.elim (fun h => Bool.noConfusion (hbehind.symm.trans h)) hbid
  case palette =>
    rewrite [paletteShade, shadeOf, paletteBits_toNat]
    rfl

/-! ### The reconciliation (R346 to R348) -/

theorem irqBit_getLsbD {i : Nat} (hi : i < 8) (j : Nat) : (irqBit i).getLsbD j = decide (i = j) := by
  rw [irqBit, ← BitVec.twoPow_eq, BitVec.getLsbD_twoPow, decide_eq_true hi, Bool.true_and]

/-- The bits of an IF in which request `i` is made under a condition. -/
theorem getLsbD_or_ite_irqBit (v : Byte) (c : Bool) {i : Nat} (hi : i < 8) (j : Nat) :
    (v ||| if c then irqBit i else 0).getLsbD j = (v.getLsbD j || c && decide (i = j)) := by
  rw [BitVec.getLsbD_or]
  cases c
  case false => rw [Bool.false_and]; exact congrArg _ BitVec.getLsbD_zero
  case true => rw [if_pos rfl, irqBit_getLsbD hi, Bool.true_and]

/-- A request made under a condition changes IF only. -/
theorem memRead_ite_raiseIrq (c : Bool) (i : Nat) (m : Memory) (x : Word) :
    memRead (if c then raiseIrq i m else m) x =
      if x = 0xFF0F then memRead m 0xFF0F ||| (if c then irqBit i else 0) else memRead m x := by
  cases c
  case true => exact memRead_write_if m _ x
  case false =>
    have hnone : memRead m 0xFF0F ||| 0 = memRead m 0xFF0F := BitVec.or_zero
    rw [if_neg Bool.false_ne_true, if_neg Bool.false_ne_true, hnone]
    split
    case isTrue h => rw [h]
    case isFalse => rfl

/-- The scanline is the one that LYC names (R346). -/
def lycHit (after : PpuMode) (m : Memory) : Bool := byteOf (scanlineOf after) = memRead m 0xFF45

/-- STAT after the reconciliation (R346). -/
def reconciledStat (after : PpuMode) (m : Memory) : Byte := newStat (memRead m 0xFF41) (lycHit after m) (ppuTag after)

/-- The reconciliation raises STAT (R347). -/
def raisesStat (before : PpuTag) (after : PpuMode) (m : Memory) : Bool :=
  statRequested before (ppuTag after) (memRead m 0xFF41) (reconciledStat after m) (lycHit after m)

/-- IF after the reconciliation (R347, R348). -/
def reconciledIf (before : PpuTag) (after : PpuMode) (m : Memory) : Byte :=
  (memRead m 0xFF0F ||| if raisesStat before after m then irqBit 1 else 0) |||
    if vBlankRequested before (ppuTag after) then irqBit 0 else 0

/-- Every address after the reconciliation: IF, STAT and LY have their new values, all others what they had. -/
theorem memRead_reconcile (before : PpuTag) (after : PpuMode) (m : Memory) (x : Word) :
    memRead (reconcile before after m) x =
      if x = 0xFF0F then reconciledIf before after m
      else if x = 0xFF41 then reconciledStat after m
      else if x = 0xFF44 then byteOf (scanlineOf after)
      else memRead m x := by
  have hlyc : memRead (memWrite m lyAddr (byteOf (scanlineOf after))) lycAddr = memRead m 0xFF45 :=
    memRead_write_ly m _ 0xFF45
  unfold reconcile
  dsimp only
  rw [hlyc, memRead_ite_raiseIrq, memRead_ite_raiseIrq, memRead_ite_raiseIrq, if_pos rfl, memRead_write_stat,
    memRead_write_stat, memRead_write_ly, memRead_write_ly]
  split
  case isTrue => rfl
  case isFalse => rfl

/-- STAT keeps its upper five bits: the mask keeps them, and the match bit and the mode number stand below. -/
theorem newStat_getLsbD_upper (old : Byte) (hit : Bool) (tag : PpuTag) {j : Nat} (hj : 3 ≤ j) :
    (newStat old hit tag).getLsbD j = old.getLsbD j := by
  rcases Nat.lt_or_ge j 8 with hlt | hge
  · have hmask : ∀ i, 3 ≤ i → i < 8 → (0xF8#8).getLsbD i = true := by decide
    have hmatch : ∀ i, 3 ≤ i → i < 8 → (if hit then 0x04 else 0 : Byte).getLsbD i = false := by cases hit <;> decide
    have hmode : ∀ i, 3 ≤ i → i < 8 → (modeNumber tag).getLsbD i = false := by cases tag <;> decide
    rw [newStat, BitVec.getLsbD_or, BitVec.getLsbD_or, BitVec.getLsbD_and, hmask j hj hlt, hmatch j hj hlt,
      hmode j hj hlt, Bool.and_true, Bool.or_false, Bool.or_false]
  · rw [BitVec.getLsbD_of_ge _ _ hge, BitVec.getLsbD_of_ge _ _ hge]

theorem newStat_getLsbD_two (old : Byte) (hit : Bool) (tag : PpuTag) : (newStat old hit tag).getLsbD 2 = hit := by
  have hmask : (0xF8#8).getLsbD 2 = false := rfl
  rw [newStat, BitVec.getLsbD_or, BitVec.getLsbD_or, BitVec.getLsbD_and, hmask, Bool.and_false, Bool.false_or]
  revert hit
  cases tag <;> decide

theorem newStat_mode (old : Byte) (hit : Bool) (tag : PpuTag) :
    (newStat old hit tag).toNat % 4 = (modeNumber tag).toNat := by
  revert old hit
  cases tag <;> decide

/-- The enable bits are among those that the reconciliation keeps. -/
theorem modeIrqEnabled_newStat (old : Byte) (hit : Bool) (tag tag' : PpuTag) :
    modeIrqEnabled (newStat old hit tag) tag' = modeIrqEnabled old tag' := by
  cases tag'
  case stopped | draw => rfl
  case oamScan | hBlank | vBlank => exact newStat_getLsbD_upper old hit tag (by decide)

/-- R347 by the STAT before the reconciliation. -/
theorem raisesStat_iff {before : PpuTag} {after : PpuMode} {m : Memory} :
    raisesStat before after m = true ↔
      ppuTag after ≠ .stopped ∧
        ((before ≠ ppuTag after ∧ modeIrqEnabled (memRead m 0xFF41) (ppuTag after) = true) ∨
          (lycHit after m = true ∧ (memRead m 0xFF41).getLsbD 2 = false ∧ (memRead m 0xFF41).getLsbD 6 = true)) := by
  have hsix : (reconciledStat after m).getLsbD 6 = (memRead m 0xFF41).getLsbD 6 :=
    newStat_getLsbD_upper _ _ _ (by decide)
  rw [raisesStat, statRequested, hsix, reconciledStat, modeIrqEnabled_newStat]
  simp only [Bool.and_eq_true, Bool.or_eq_true, decide_eq_true_eq, Bool.not_eq_true', and_assoc]

theorem vBlankRequested_iff {before after : PpuTag} :
    vBlankRequested before after = true ↔ before ≠ after ∧ after = .vBlank := by
  rw [vBlankRequested, Bool.and_eq_true, decide_eq_true_eq, decide_eq_true_eq]

theorem reconciledIf_getLsbD (before : PpuTag) (after : PpuMode) (m : Memory) (j : Nat) :
    (reconciledIf before after m).getLsbD j =
      ((memRead m 0xFF0F).getLsbD j || raisesStat before after m && decide (1 = j) ||
        vBlankRequested before (ppuTag after) && decide (0 = j)) := by
  rw [reconciledIf, getLsbD_or_ite_irqBit _ _ (by decide), getLsbD_or_ite_irqBit _ _ (by decide)]

theorem reconciledIf_vBlankBit (before : PpuTag) (after : PpuMode) (m : Memory) :
    (reconciledIf before after m).getLsbD 0 = true ↔
      (memRead m 0xFF0F).getLsbD 0 = true ∨ vBlankRequested before (ppuTag after) = true := by
  rw [reconciledIf_getLsbD]
  simp

theorem reconciledIf_statBit (before : PpuTag) (after : PpuMode) (m : Memory) :
    (reconciledIf before after m).getLsbD 1 = true ↔
      (memRead m 0xFF0F).getLsbD 1 = true ∨ raisesStat before after m = true := by
  rw [reconciledIf_getLsbD]
  simp

theorem reconciledIf_getLsbD_upper (before : PpuTag) (after : PpuMode) (m : Memory) {j : Nat} (hj : 2 ≤ j) :
    (reconciledIf before after m).getLsbD j = (memRead m 0xFF0F).getLsbD j := by
  have hone : 1 ≠ j := by omega
  have hzero : 0 ≠ j := by omega
  rw [reconciledIf_getLsbD, decide_eq_false hone, decide_eq_false hzero, Bool.and_false, Bool.and_false, Bool.or_false,
    Bool.or_false]

/-- Settles O56: LY, STAT and IF are those of `memRead_reconcile`, read bit by bit. -/
theorem reconciliation : Obligations.Reconciliation := by
  intro m before after t old new ly hit changed enabled stat vblank
  have hread := memRead_reconcile before after m
  have hstat : new = newStat old hit (ppuTag after) := hread 0xFF41
  have hif : memRead t 0xFF0F = reconciledIf before after m := hread 0xFF0F
  rw [hstat, hif]
  refine ⟨hread 0xFF44, fun j hj => newStat_getLsbD_upper old hit _ hj, newStat_getLsbD_two old hit _, ?mode,
    ?vBlankBit, ?statBit, fun j hj => reconciledIf_getLsbD_upper before after m hj, fun x hly hst hreq => ?frame⟩
  case mode =>
    rw [newStat_mode]
    cases ppuTag after <;> rfl
  case vBlankBit => exact (reconciledIf_vBlankBit before after m).trans (or_congr_right vBlankRequested_iff)
  case statBit => exact (reconciledIf_statBit before after m).trans (or_congr_right raisesStat_iff)
  case frame => rw [hread x, if_neg hreq, if_neg hst, if_neg hly]

end Sys2Proof.Machine

/-! ## Family 30_encoding: decoding and encoding are inverse, and what is fetched is what is encoded -/

namespace Sys2Proof.Machine

/-! ### Decoding an encoding -/

/-- The instruction at the head of a list of bytes, where a byte that is not there reads as 0. -/
def headInstr (bs : List Byte) : Instr := decodeBytes (bs.getD 0 0) (bs.getD 1 0) (bs.getD 2 0)

theorem instr_length_pos (i : Instr) : 0 < i.length := by
  cases i <;> exact Nat.succ_pos _

/-- Where the head instruction is all there, it is what `decode` gives, with the bytes after it. -/
theorem decode_of_length_le {bs : List Byte} (hne : bs ≠ []) (hlen : (headInstr bs).length ≤ bs.length) :
    decode bs = .ok (headInstr bs, bs.drop (headInstr bs).length) := by
  match bs with
  | [] => exact absurd rfl hne
  | [b0] =>
    have hop : b0 ≠ 0xCB#8 := by
      rintro rfl
      exact absurd hlen (by decide)
    have hhead : headInstr [b0] = decodeFirst b0 0 0 := if_neg hop
    have hone : (decodeFirst b0 0 0).length = 1 := le_antisymm (hhead ▸ hlen) (instr_length_pos _)
    rw [hhead, hone]
    exact if_pos hone
  | [b0, b1] => exact if_pos hlen
  | b0 :: b1 :: b2 :: rest => rfl

theorem headInstr_encode {i : Instr} (hwf : i.WellFormed) (hp : i ≠ .prefixCb) (rest : List Byte) :
    headInstr (encode i ++ rest) = i := by
  rw [headInstr]
  cases i <;> simp only [encode, List.cons_append, List.getD_cons_zero, List.getD_cons_succ]
  case prefixCb => exact absurd rfl hp
  case ldANn nn | ldNnA nn | ldNnSp nn | jpNn nn | callNn nn => exact congrArg _ (wordOf_hiByte_loByte nn)
  case ldRrNn rr nn => cases rr <;> exact congrArg _ (wordOf_hiByte_loByte nn)
  case jpCcNn cc nn | callCcNn cc nn => cases cc <;> exact congrArg _ (wordOf_hiByte_loByte nn)
  case jrCcE cc _ | retCc cc => cases cc <;> rfl
  case pushRr rr | popRr rr | addHlRr rr | incRr rr | decRr rr => cases rr <;> rfl
  case ldRR dst src => cases dst <;> cases src <;> rfl
  case ldRN r _ | ldRInd r | ldIndR r | incR r | decR r | addR r | adcR r | subR r | sbcR r | andR r | xorR r | orR r
      | cpR r | rlcR r | rrcR r | rlR r | rrR r | slaR r | sraR r | swapR r | srlR r => cases r <;> rfl
  case rstT b | bitBInd b | resBInd b | setBInd b =>
    obtain hb : b < 8 := of_decide_eq_true hwf
    interval_cases b <;> rfl
  case bitBR b r | resBR b r | setBR b r =>
    obtain hb : b < 8 := of_decide_eq_true hwf
    interval_cases b <;> cases r <;> rfl
  all_goals rfl

/-- Settles O1: the head instruction of an encoding is the instruction, and the encoding has as many bytes as it is fetched
in. -/
theorem decodeOfEncode : Obligations.DecodeOfEncode := by
  have hdecode (i : Instr) (hwf : i.WellFormed) (hp : i ≠ .prefixCb) (rest : List Byte) :
      decode (encode i ++ rest) = .ok (i, rest) := by
    have hhead := headInstr_encode hwf hp rest
    have hlen := encode_length i
    have hne : encode i ++ rest ≠ [] := by
      intro h
      have hpos := instr_length_pos i
      rw [← hlen, (List.append_eq_nil_iff.1 h).1] at hpos
      exact absurd hpos (by decide)
    rw [decode_of_length_le hne (by rw [hhead, ← hlen, List.length_append]; omega), hhead, ← hlen, List.drop_left]
  intro i hwf
  refine ⟨?alone, fun hp => hdecode i hwf hp⟩
  case alone =>
    by_cases hp : i = .prefixCb
    · subst hp
      rfl
    · simpa using hdecode i hwf hp []

/-! ### Encoding what is decoded -/

/-- The instruction has an encoding, which is the bytes it was read from, and is not the lone prefix. -/
def ReadsBack (i : Instr) (b0 b1 b2 : Byte) : Prop :=
  i.WellFormed ∧ i ≠ .prefixCb ∧ encode i = [b0, b1, b2].take i.length

theorem readsBack_decodeCb (b1 b2 : Byte) : ReadsBack (decodeCb b1) 0xCB b1 b2 := by
  have henc : (decodeCb b1).WellFormed ∧ decodeCb b1 ≠ .prefixCb ∧ encode (decodeCb b1) = [0xCB, b1] := by
    revert b1
    decide
  obtain ⟨hwf, hp, henc⟩ := henc
  exact ⟨hwf, hp, by rw [henc, decodeCb_length]; rfl⟩

/-! The four quarters of the first-byte map, row by row: the first byte is rebuilt from its octal fields, the operand bytes
from the operand. -/

theorem readsBack_decodeQuarter0 {y z : Nat} (hy : y < 8) (hz : z < 8) (n1 n2 : Byte) :
    ReadsBack (decodeQuarter0 y z n1 (wordOf n2 n1)) (byteOf (8 * y + z)) n1 n2 := by
  interval_cases z <;> interval_cases y <;> refine ⟨rfl, nofun, ?_⟩
  all_goals simp [decodeQuarter0, encode, Instr.length, reg16OfCode, condOfCode, reg8OfCode, Reg8.code, Reg16.code,
    Cond.code, byteOf]

theorem readsBack_decodeQuarter1 {y z : Nat} (hy : y < 8) (hz : z < 8) (n1 n2 : Byte) :
    ReadsBack (decodeQuarter1 y z) (byteOf (64 + 8 * y + z)) n1 n2 := by
  interval_cases z <;> interval_cases y <;> exact ⟨rfl, nofun, rfl⟩

theorem readsBack_decodeAlu {y z : Nat} (hy : y < 8) (hz : z < 8) (n1 n2 : Byte) :
    ReadsBack (decodeAlu y (reg8OfCode z)) (byteOf (128 + 8 * y + z)) n1 n2 := by
  interval_cases z <;> interval_cases y <;> exact ⟨rfl, nofun, rfl⟩

theorem readsBack_decodeQuarter3 {y z : Nat} (hy : y < 8) (hz : z < 8) (hp : 8 * y + z ≠ 0o13) (n1 n2 : Byte) :
    ReadsBack (decodeQuarter3 y z n1 (wordOf n2 n1)) (byteOf (192 + 8 * y + z)) n1 n2 := by
  -- The byte `0o313` is the prefix, which `hp` excludes.
  interval_cases z <;> interval_cases y <;> try exact absurd rfl hp
  all_goals refine ⟨rfl, nofun, ?_⟩
  all_goals simp [decodeQuarter3, decodeAluImm, encode, Instr.length, stkRegOfCode, condOfCode, StkReg.code, Cond.code,
    byteOf]

theorem fields_lt (op : Byte) : fieldX op < 4 ∧ fieldY op < 8 ∧ fieldZ op < 8 := by
  revert op
  decide

/-- A byte is its octal fields (R102). -/
theorem byteOf_fields (op : Byte) : byteOf (64 * fieldX op + 8 * fieldY op + fieldZ op) = op := by
  revert op
  decide

theorem readsBack_decodeFirst {b0 : Byte} (hop : b0 ≠ 0xCB#8) (b1 b2 : Byte) :
    ReadsBack (decodeFirst b0 b1 b2) b0 b1 b2 := by
  have hb0 := byteOf_fields b0
  obtain ⟨hx, hy, hz⟩ := fields_lt b0
  unfold decodeFirst
  generalize fieldX b0 = x, fieldY b0 = y, fieldZ b0 = z at *
  subst hb0
  interval_cases x
  · simpa using readsBack_decodeQuarter0 hy hz b1 b2
  · exact readsBack_decodeQuarter1 hy hz b1 b2
  · exact readsBack_decodeAlu hy hz b1 b2
  · exact readsBack_decodeQuarter3 hy hz (fun h => hop (by rw [Nat.add_assoc, h]; rfl)) b1 b2

theorem readsBack_decodeBytes (b0 b1 b2 : Byte) : ReadsBack (decodeBytes b0 b1 b2) b0 b1 b2 := by
  unfold decodeBytes
  split
  case isTrue h => exact h ▸ readsBack_decodeCb b1 b2
  case isFalse h => exact readsBack_decodeFirst h b1 b2

/-- Settles O2: by the prefix, whose 256 second bytes are a table, and by the quarters of the first-byte map. -/
theorem encodeOfDecode : Obligations.EncodeOfDecode := readsBack_decodeBytes

/-- Settles O4: each word is evaluated. -/
theorem sampleWords : Obligations.SampleWords := by
  unfold Obligations.SampleWords
  decide

/-! ### Fetching -/

/-- In Running, what is fetched is the head instruction of the bytes at PC. -/
theorem fetchInstr_of_running {s : State} (h : s.haltState = .running) :
    fetchInstr s = headInstr [s.read s.pc, s.read (s.pc + 1), s.read (s.pc + 2)] := by
  have htwo : s.pc + 1 + 1 = s.pc + 2 := by rw [BitVec.add_assoc]; rfl
  rw [fetchInstr_eq, afterOpcode_running h, htwo]
  rfl

theorem instr_length_le (i : Instr) : i.length ≤ 3 := by
  unfold Instr.length
  split <;> decide

/-- Settles O6: the encoding is the first of the three bytes fetched, and its head instruction is the one encoded. -/
theorem fetchesEncoded : Obligations.FetchesEncoded := by
  intro s i hrun hwf hp hmem
  have hlen := encode_length i
  have hpos := instr_length_pos i
  refine ⟨?fetched, ?past⟩
  case fetched =>
    have hprefix : encode i <+: [s.read s.pc, s.read (s.pc + 1), s.read (s.pc + 2)] := by
      refine List.prefix_iff_getElem?.2 fun k hk => ?_
      have hread := hmem k _ (List.getElem?_eq_getElem hk)
      have hthree : k < 3 := by have := instr_length_le i; omega
      rw [← hread]
      interval_cases k
      · simp
      · rfl
      · rfl
    obtain ⟨rest, hrest⟩ := hprefix
    rw [fetchInstr_of_running hrun, ← hrest, headInstr_encode hwf hp]
  case past =>
    have hone : BitVec.ofNat 16 i.length = 1 + BitVec.ofNat 16 (i.length - 1) := by
      rw [← Nat.add_sub_of_le hpos, BitVec.ofNat_add, Nat.add_sub_cancel_left]
      rfl
    rw [State.afterFetch_pc, afterOpcode_running hrun, hlen, hone, BitVec.add_assoc]

/-- Settles O5: what the three bytes decode to is what the step fetches. -/
theorem stepRunsDecoded : Obligations.StepRunsDecoded := by
  intro s i rest hawake _ _ second hdecode
  have hfetch : fetchInstr s = i := congrArg Prod.fst (Except.ok.inj hdecode)
  rw [step_awake hawake, State.fetched, hfetch]
  rfl

end Sys2Proof.Machine

/-! ## Rules over all instructions -/

namespace Sys2Proof.Machine

/-! ### The prefix (R108, R244) -/

theorem execCbShift_eq (y : Nat) (opd : Option Reg8) (s : State) : execCbShift y opd s = exec (decodeShift y opd) s :=
  match y, opd with
  | 0, some _ | 0, none | 1, some _ | 1, none | 2, some _ | 2, none | 3, some _ | 3, none | 4, some _ | 4, none
  | 5, some _ | 5, none | 6, some _ | 6, none | _ + 7, some _ | _ + 7, none => rfl

theorem execCbOp_eq (op2 : Byte) (s : State) : execCbOp op2 s = exec (decodeCb op2) s := by
  unfold execCbOp decodeCb
  match fieldX op2, reg8OfCode (fieldZ op2) with
  | 0, opd => exact execCbShift_eq _ opd s
  | 1, some _ | 1, none | 2, some _ | 2, none | _ + 3, some _ | _ + 3, none => rfl

/-- A lone prefix is the instruction of its second byte, run with PC past that byte. -/
theorem exec_prefixCb (s : State) : exec .prefixCb s = exec (decodeCb (s.read s.pc)) { s with pc := s.pc + 1 } :=
  execCbOp_eq _ _

/-- What the second byte selects is an instruction of the CB block: not a prefix, not HALT, and it writes neither SP nor
IME. -/
theorem decodeCb_kind (op2 : Byte) :
    decodeCb op2 ≠ .prefixCb ∧ decodeCb op2 ≠ .halt ∧ writesSp (decodeCb op2) = false ∧
      writesIme (decodeCb op2) = false := by
  revert op2
  decide

theorem exec_decodeCb_of_reg {op2 : Byte} {r : Reg8} (h : reg8OfCode (fieldZ op2) = some r) (s : State) :
    ∃ u, exec (decodeCb op2) s = done 2 u := by
  obtain ⟨hx, hy, -⟩ := fields_lt op2
  rw [decodeCb, h]
  generalize fieldX op2 = x, fieldY op2 = y at *
  interval_cases x
  · interval_cases y <;> exact ⟨_, rfl⟩
  all_goals exact ⟨_, rfl⟩

/-- A store at HL and then a next state, where the store is not the fatal one. -/
theorem done_of_store {r : Res} {s : State} {v : Byte} {n : Nat} {g : State → State} (hcan : CanStore s s.hl)
    (hr : r = andThen (store s.hl v s) fun t => done n (g t)) : ∃ u, r = done n u :=
  ⟨g (s.write s.hl v), by rw [hr, store_of_canStore hcan, andThen_next]⟩

theorem exec_decodeCb_of_ind {op2 : Byte} (h : reg8OfCode (fieldZ op2) = none) {s : State} (hcan : CanStore s s.hl) :
    ∃ u, exec (decodeCb op2) s = done (if fieldX op2 = 1 then 3 else 4) u := by
  obtain ⟨hx, hy, -⟩ := fields_lt op2
  rw [decodeCb, h]
  generalize fieldX op2 = x, fieldY op2 = y at *
  interval_cases x
  · interval_cases y <;> exact done_of_store hcan rfl
  · exact ⟨_, rfl⟩
  · exact done_of_store hcan rfl
  · exact done_of_store hcan rfl

theorem fieldX_eq (op : Byte) : fieldX op = op.toNat / 64 := Nat.shiftRight_eq_div_pow _ _

/-- Code 6 is the operand at HL (R103). -/
theorem reg8OfCode_fieldZ_eq_none {op : Byte} : reg8OfCode (fieldZ op) = none ↔ op.toNat % 8 = 6 := by
  revert op
  decide

/-- Settles O30: the prefix is the instruction of its second byte, whose cycles go by its operand. -/
theorem prefixRunsSelected : Obligations.PrefixRunsSelected := by
  intro s op2
  refine ⟨exec_prefixCb s, fun hcan => ?_⟩
  rw [exec_prefixCb]
  by_cases hind : op2.toNat % 8 = 6
  · obtain ⟨u, hu⟩ := exec_decodeCb_of_ind (s := { s with pc := s.pc + 1 }) (reg8OfCode_fieldZ_eq_none.2 hind) hcan
    refine ⟨_, hu, ?_⟩
    simp [hind, fieldX_eq, op2]
  · obtain ⟨r, hr⟩ := Option.ne_none_iff_exists'.1 (reg8OfCode_fieldZ_eq_none.not.2 hind)
    obtain ⟨u, hu⟩ := exec_decodeCb_of_reg hr { s with pc := s.pc + 1 }
    exact ⟨_, hu, (if_pos hind).symm⟩

/-! ### An instruction that completes -/

theorem eq_of_done {n : Nat} {s t : State} (h : done n s = .next t) : t = s.reportCycles n := done_eq_next.1 h

theorem eq_of_done_ite {c : Bool} {n n' : Nat} {s s' t : State} (h : (if c then done n s else done n' s') = .next t) :
    t = s.reportCycles n ∨ t = s'.reportCycles n' := by
  cases c
  case true => exact .inl (eq_of_done h)
  case false => exact .inr (eq_of_done h)

theorem next_of_store {addr : Word} {v : Byte} {s t : State} {k : State → Res} (h : andThen (store addr v s) k = .next t) :
    k (s.write addr v) = .next t := by
  obtain ⟨u, hu, hk⟩ := andThen_eq_next.1 h
  obtain ⟨-, rfl⟩ := store_eq_next.1 hu
  exact hk

theorem next_of_push {w : Word} {s t : State} {k : State → Res} (h : andThen (push16 w s) k = .next t) :
    k (s.pushPlain w) = .next t := by
  obtain ⟨u, hu, hk⟩ := andThen_eq_next.1 h
  obtain ⟨-, rfl⟩ := push16_eq_next.1 hu
  exact hk

theorem eq_of_call {target : Word} {n : Nat} {s t : State} (h : andThen (callTo target s) (done n) = .next t) :
    t = (jumpTo target (s.pushPlain s.pc)).reportCycles n := by
  rw [andThen_callTo] at h
  have hk := next_of_push h
  exact eq_of_done hk

/-! ### What an instruction touches -/

/-- Which instructions touch the flags, SP and IME, and the low nibble of F. -/
structure KeepsRegisters (i : Instr) (s t : State) : Prop where
  flags : writesFlags i = false → t.f = s.f
  sp : writesSp i = false → t.sp = s.sp
  ime : writesIme i = false → t.ime = s.ime ∧ t.imePending = s.imePending
  low : t.f = s.f ∨ t.f &&& 0x0F#8 = 0

theorem keepsRegisters_of_exec {i : Instr} {s t : State} (hp : i ≠ .prefixCb) (h : exec i s = .next t) :
    KeepsRegisters i s t := by
  cases s
  cases i
  case prefixCb => exact absurd rfl hp
  case illegalD3 | illegalDB | illegalDD | illegalE3 | illegalE4 | illegalEB | illegalEC | illegalED | illegalF4
      | illegalFC | illegalFD => cases h
  case halt =>
    obtain rfl := Host.Outcome.next.inj h
    exact ⟨fun _ => rfl, fun _ => rfl, fun _ => ⟨rfl, rfl⟩, .inl rfl⟩
  case ldIndR | ldIndN | ldBcA | ldDeA | ldNnA | ldhCA | ldhNA | ldHlDecA | ldHlIncA | resBInd | setBInd =>
    have hk := next_of_store h
    obtain rfl := eq_of_done hk
    exact ⟨fun _ => rfl, fun _ => rfl, fun _ => ⟨rfl, rfl⟩, .inl rfl⟩
  case incInd | decInd | rlcInd | rrcInd | rlInd | rrInd | slaInd | sraInd | swapInd | srlInd =>
    have hk := next_of_store h
    obtain rfl := eq_of_done hk
    exact ⟨nofun, fun _ => rfl, fun _ => ⟨rfl, rfl⟩, .inr (flagsByte_low _ _ _ _)⟩
  case ldNnSp =>
    have hk := next_of_store (next_of_store h)
    obtain rfl := eq_of_done hk
    exact ⟨fun _ => rfl, fun _ => rfl, fun _ => ⟨rfl, rfl⟩, .inl rfl⟩
  case pushRr =>
    have hk := next_of_push h
    obtain rfl := eq_of_done hk
    exact ⟨fun _ => rfl, nofun, fun _ => ⟨rfl, rfl⟩, .inl rfl⟩
  case callNn | rstT =>
    obtain rfl := eq_of_call h
    exact ⟨fun _ => rfl, nofun, fun _ => ⟨rfl, rfl⟩, .inl rfl⟩
  case callCcNn cc nn =>
    cases hc : State.cond _ cc
    case true =>
      obtain rfl := eq_of_call ((exec_callCcNn_of_cond hc nn).symm.trans h)
      exact ⟨fun _ => rfl, nofun, fun _ => ⟨rfl, rfl⟩, .inl rfl⟩
    case false =>
      obtain rfl := eq_of_done ((exec_callCcNn_of_not_cond hc nn).symm.trans h)
      exact ⟨fun _ => rfl, nofun, fun _ => ⟨rfl, rfl⟩, .inl rfl⟩
  case jpCcNn | jrCcE =>
    obtain rfl | rfl := eq_of_done_ite h <;> exact ⟨fun _ => rfl, fun _ => rfl, fun _ => ⟨rfl, rfl⟩, .inl rfl⟩
  case retCc =>
    obtain rfl | rfl := eq_of_done_ite h <;> exact ⟨fun _ => rfl, nofun, fun _ => ⟨rfl, rfl⟩, .inl rfl⟩
  case stop =>
    cases hq : (State.params _).stopPolicy
    case fault => cases (exec_stop_of_fault hq).symm.trans h
    case nop2 =>
      obtain rfl := eq_of_done ((exec_stop_of_nop2 hq).symm.trans h)
      exact ⟨fun _ => rfl, fun _ => rfl, fun _ => ⟨rfl, rfl⟩, .inl rfl⟩
  case ei =>
    obtain rfl | rfl := eq_of_done_ite h <;> exact ⟨fun _ => rfl, fun _ => rfl, nofun, .inl rfl⟩
  case di =>
    obtain rfl := eq_of_done h
    exact ⟨fun _ => rfl, fun _ => rfl, nofun, .inl rfl⟩
  case reti =>
    obtain rfl := eq_of_done h
    exact ⟨fun _ => rfl, nofun, nofun, .inl rfl⟩
  case ret =>
    obtain rfl := eq_of_done h
    exact ⟨fun _ => rfl, nofun, fun _ => ⟨rfl, rfl⟩, .inl rfl⟩
  case ldSpHl =>
    obtain rfl := eq_of_done h
    exact ⟨fun _ => rfl, nofun, fun _ => ⟨rfl, rfl⟩, .inl rfl⟩
  case addSpE =>
    obtain rfl := eq_of_done h
    exact ⟨nofun, nofun, fun _ => ⟨rfl, rfl⟩, .inr (flagsByte_low _ _ _ _)⟩
  case ldRrNn rr _ | incRr rr | decRr rr =>
    obtain rfl := eq_of_done h
    cases rr
    case sp => exact ⟨fun _ => rfl, nofun, fun _ => ⟨rfl, rfl⟩, .inl rfl⟩
    all_goals exact ⟨fun _ => rfl, fun _ => rfl, fun _ => ⟨rfl, rfl⟩, .inl rfl⟩
  case popRr rr =>
    obtain rfl := eq_of_done h
    cases rr
    case af => exact ⟨nofun, nofun, fun _ => ⟨rfl, rfl⟩, .inr (mask_low _)⟩
    all_goals exact ⟨fun _ => rfl, nofun, fun _ => ⟨rfl, rfl⟩, .inl rfl⟩
  case ldRR r _ | ldRN r _ | ldRInd r | resBR _ r | setBR _ r =>
    obtain rfl := eq_of_done h
    cases r <;> exact ⟨fun _ => rfl, fun _ => rfl, fun _ => ⟨rfl, rfl⟩, .inl rfl⟩
  case incR r | decR r | rlcR r | rrcR r | rlR r | rrR r | slaR r | sraR r | swapR r | srlR r =>
    obtain rfl := eq_of_done h
    cases r <;> exact ⟨nofun, fun _ => rfl, fun _ => ⟨rfl, rfl⟩, .inr (flagsByte_low _ _ _ _)⟩
  case ldABc | ldADe | ldANn | ldhAC | ldhAN | ldAHlDec | ldAHlInc | jpNn | jpHl | jrE | nop =>
    obtain rfl := eq_of_done h
    exact ⟨fun _ => rfl, fun _ => rfl, fun _ => ⟨rfl, rfl⟩, .inl rfl⟩
  all_goals
    obtain rfl := eq_of_done h
    exact ⟨nofun, fun _ => rfl, fun _ => ⟨rfl, rfl⟩, .inr (flagsByte_low _ _ _ _)⟩
/-- Every instruction but HALT reports its M-cycles, 1 to 6 of them, and no HALT. -/
def ReportsCycles (t : State) : Prop := ∃ n, 1 ≤ n ∧ n ≤ 6 ∧ t.report = { cycles := n, enteredHalt := false }

theorem reportsCycles_of_done {r : Res} {n : Nat} {u t : State} (hr : r = done n u) (h : r = .next t)
    (hn : 1 ≤ n ∧ n ≤ 6) : ReportsCycles t := by
  obtain rfl := eq_of_done (hr.symm.trans h)
  exact ⟨n, hn.1, hn.2, rfl⟩

theorem reportsCycles_of_exec {i : Instr} {s t : State} (hp : i ≠ .prefixCb) (hhalt : i ≠ .halt)
    (h : exec i s = .next t) : ReportsCycles t := by
  cases i
  case prefixCb => exact absurd rfl hp
  case halt => exact absurd rfl hhalt
  case illegalD3 | illegalDB | illegalDD | illegalE3 | illegalE4 | illegalEB | illegalEC | illegalED | illegalF4
      | illegalFC | illegalFD => cases h
  case ldIndR | ldIndN | ldBcA | ldDeA | ldNnA | ldhCA | ldhNA | ldHlDecA | ldHlIncA | resBInd | setBInd | incInd | decInd
      | rlcInd | rrcInd | rlInd | rrInd | slaInd | sraInd | swapInd | srlInd =>
    have hk := next_of_store h
    exact reportsCycles_of_done rfl hk (by decide)
  case ldNnSp =>
    have hk := next_of_store (next_of_store h)
    exact reportsCycles_of_done rfl hk (by decide)
  case pushRr =>
    have hk := next_of_push h
    exact reportsCycles_of_done rfl hk (by decide)
  case callNn | rstT =>
    obtain rfl := eq_of_call h
    exact ⟨_, by decide, by decide, rfl⟩
  case callCcNn cc nn =>
    cases hc : s.cond cc
    case true =>
      obtain rfl := eq_of_call ((exec_callCcNn_of_cond hc nn).symm.trans h)
      exact ⟨6, by decide, by decide, rfl⟩
    case false => exact reportsCycles_of_done (exec_callCcNn_of_not_cond hc nn) h (by decide)
  case jpCcNn | jrCcE | retCc | ei =>
    obtain rfl | rfl := eq_of_done_ite h <;> exact ⟨_, by decide, by decide, rfl⟩
  case stop =>
    cases hq : s.params.stopPolicy
    case fault => cases (exec_stop_of_fault hq).symm.trans h
    case nop2 => exact reportsCycles_of_done (exec_stop_of_nop2 hq) h (by decide)
  all_goals exact reportsCycles_of_done rfl h (by decide)

/-! ### Instructions do not see the devices

An instruction run beside other devices, another HALT state, other ports and other parameters, but for the three parameters
it looks at, does the same and leaves those as they are. That it leaves its own as they are follows, since they may be taken
as the others. -/

/-- The registers and memory of `s` beside the devices, the HALT state, the parameters and the ports of `d`. -/
def State.onDevices (s d : State) : State :=
  { s with
    haltState := d.haltState, cyc := d.cyc, video := d.video, params := d.params, serialOut := d.serialOut
    pixelsOut := d.pixelsOut }

/-- `d` agrees with `s` in what an instruction looks at: the HALT state, for the address of an unknown opcode (R101, R305),
and three parameters (R68, R302, R304). -/
structure SameSettings (s d : State) : Prop where
  haltState : d.haltState = s.haltState
  eiDelay : d.params.eiDelay = s.params.eiDelay
  echoWrite : d.params.echoWrite = s.params.echoWrite
  stopPolicy : d.params.stopPolicy = s.params.stopPolicy

/-- A change of the next state, if there is one. -/
def mapNext (f : State → State) (r : Res) : Res := andThen r fun s => .next (f s)

theorem store_onDevices {s d : State} (h : SameSettings s d) (addr : Word) (v : Byte) :
    store addr v (s.onDevices d) = mapNext (·.onDevices d) (store addr v s) := by
  have hfaults : echoFaults (s.onDevices d) addr = echoFaults s addr := by
    simp only [echoFaults, State.onDevices, h.echoWrite]
  rw [store, store, hfaults]
  cases echoFaults s addr <;> rfl

theorem unknownOpcode_onDevices {s d : State} (h : SameSettings s d) (op : Byte) :
    unknownOpcode op (s.onDevices d) = mapNext (·.onDevices d) (unknownOpcode op s) := by
  have haddr : (s.onDevices d).opcodeAddr = s.opcodeAddr := by
    simp only [State.opcodeAddr, State.onDevices, h.haltState]
  rw [unknownOpcode, haddr]
  rfl

theorem andThen_onDevices {d : State} {r r' : Res} {k k' : State → Res} (hr : r' = mapNext (·.onDevices d) r)
    (hk : ∀ u, r = .next u → k' (u.onDevices d) = mapNext (·.onDevices d) (k u)) :
    andThen r' k' = mapNext (·.onDevices d) (andThen r k) := by
  subst hr
  cases r
  case next u => exact hk u rfl
  case fault | refused => rfl

/-- A store leaves the settings. -/
theorem SameSettings.of_store {s d u : State} {addr : Word} {v : Byte} (h : SameSettings s d)
    (hu : store addr v s = .next u) : SameSettings u d := by
  obtain ⟨-, rfl⟩ := store_eq_next.1 hu
  exact ⟨h.haltState, h.eiDelay, h.echoWrite, h.stopPolicy⟩

theorem push16_onDevices {s d : State} (h : SameSettings s d) (w : Word) :
    push16 w (s.onDevices d) = mapNext (·.onDevices d) (push16 w s) := by
  have hfirst : SameSettings { s with sp := s.sp - 1 } d := ⟨h.haltState, h.eiDelay, h.echoWrite, h.stopPolicy⟩
  refine andThen_onDevices (store_onDevices hfirst _ _) fun u hu => ?_
  obtain ⟨hhalt, hei, hecho, hstop⟩ := hfirst.of_store hu
  exact store_onDevices (s := { u with sp := u.sp - 1 }) ⟨hhalt, hei, hecho, hstop⟩ _ _

theorem callTo_onDevices {s d : State} (h : SameSettings s d) (target : Word) :
    callTo target (s.onDevices d) = mapNext (·.onDevices d) (callTo target s) :=
  andThen_onDevices (push16_onDevices h _) fun _ _ => rfl

theorem cond_onDevices (s d : State) (cc : Cond) : (s.onDevices d).cond cc = s.cond cc := by
  cases cc <;> rfl

/-- An instruction that ends in one of two next states by a condition. -/
theorem ite_onDevices {d : State} {c c' : Bool} {r q r' q' : Res} (hc : c' = c) (hr : r' = mapNext (·.onDevices d) r)
    (hq : q' = mapNext (·.onDevices d) q) :
    (if c' then r' else q') = mapNext (·.onDevices d) (if c then r else q) := by
  subst hc hr hq
  cases c' <;> rfl

theorem exec_onDevices_of_ne {i : Instr} {s d : State} (hp : i ≠ .prefixCb) (h : SameSettings s d) :
    exec i (s.onDevices d) = mapNext (·.onDevices d) (exec i s) := by
  cases i
  case prefixCb => exact absurd rfl hp
  case illegalD3 | illegalDB | illegalDD | illegalE3 | illegalE4 | illegalEB | illegalEC | illegalED | illegalF4
      | illegalFC | illegalFD => exact unknownOpcode_onDevices h _
  case ldIndN | ldBcA | ldDeA | ldNnA | ldhCA | ldhNA | ldHlDecA | ldHlIncA | incInd | decInd | rlcInd | rrcInd | rlInd
      | rrInd | slaInd | sraInd | swapInd | srlInd | resBInd | setBInd =>
    exact andThen_onDevices (store_onDevices h _ _) fun _ _ => rfl
  case ldIndR r => cases r <;> exact andThen_onDevices (store_onDevices h _ _) fun _ _ => rfl
  case ldNnSp nn =>
    exact andThen_onDevices (store_onDevices h _ _) fun _ hu =>
      andThen_onDevices (store_onDevices (h.of_store hu) _ _) fun _ _ => rfl
  case pushRr rr => cases rr <;> exact andThen_onDevices (push16_onDevices h _) fun _ _ => rfl
  case callNn | rstT => exact andThen_onDevices (callTo_onDevices h _) fun _ _ => rfl
  case callCcNn cc nn =>
    exact ite_onDevices (cond_onDevices s d cc) (andThen_onDevices (callTo_onDevices h nn) fun _ _ => rfl) rfl
  case jpCcNn cc _ | jrCcE cc _ | retCc cc => exact ite_onDevices (cond_onDevices s d cc) rfl rfl
  case ei => exact ite_onDevices h.eiDelay rfl rfl
  case stop =>
    have hpolicy : (s.onDevices d).params.stopPolicy = s.params.stopPolicy := h.stopPolicy
    cases hq : s.params.stopPolicy
    case fault =>
      rw [exec_stop_of_fault hq, exec_stop_of_fault (hpolicy.trans hq)]
      exact unknownOpcode_onDevices h _
    case nop2 =>
      rw [exec_stop_of_nop2 hq, exec_stop_of_nop2 (hpolicy.trans hq)]
      rfl
  case ldRrNn rr _ | incRr rr | decRr rr | addHlRr rr | popRr rr => cases rr <;> rfl
  case ldRR dst src => cases dst <;> cases src <;> rfl
  case ldRN r _ | ldRInd r | incR r | decR r | addR r | adcR r | subR r | sbcR r | andR r | xorR r | orR r | cpR r | rlcR r
      | rrcR r | rlR r | rrR r | slaR r | sraR r | swapR r | srlR r | setBR _ r | resBR _ r | bitBR _ r => cases r <;> rfl
  all_goals rfl

theorem exec_onDevices (i : Instr) {s d : State} (h : SameSettings s d) :
    exec i (s.onDevices d) = mapNext (·.onDevices d) (exec i s) := by
  by_cases hp : i = .prefixCb
  · subst hp
    rw [exec_prefixCb, exec_prefixCb]
    exact exec_onDevices_of_ne (s := { s with pc := s.pc + 1 }) (decodeCb_kind _).1
      ⟨h.haltState, h.eiDelay, h.echoWrite, h.stopPolicy⟩
  · exact exec_onDevices_of_ne hp h

/-- An instruction leaves the devices, the HALT state, the parameters and the ports as they are. -/
theorem onDevices_of_exec {i : Instr} {s t : State} (h : exec i s = .next t) : t = t.onDevices s := by
  have hself : exec i s = mapNext (·.onDevices s) (exec i s) := exec_onDevices i (d := s) ⟨rfl, rfl, rfl, rfl⟩
  rw [h] at hself
  exact Host.Outcome.next.inj hself

theorem devices_of_exec {i : Instr} {s t : State} (h : exec i s = .next t) :
    t.haltState = s.haltState ∧ t.cyc = s.cyc ∧ t.video = s.video ∧ t.params = s.params ∧ t.serialOut = s.serialOut ∧
      t.pixelsOut = s.pixelsOut := by
  have hdev := onDevices_of_exec h
  exact ⟨(congrArg State.haltState hdev :), (congrArg State.cyc hdev :), (congrArg State.video hdev :),
    (congrArg State.params hdev :), (congrArg State.serialOut hdev :), (congrArg State.pixelsOut hdev :)⟩

/-! ### The statements -/

/-- Settles O40: by the instruction; a lone prefix is one of the CB block. -/
theorem registerDiscipline : Obligations.RegisterDiscipline := by
  intro i s t h
  by_cases hp : i = .prefixCb
  · subst hp
    rw [exec_prefixCb] at h
    obtain ⟨hne, -, hsp, hime⟩ := decodeCb_kind (s.read s.pc)
    have hkeeps := keepsRegisters_of_exec hne h
    exact ⟨nofun, fun _ => hkeeps.sp hsp, fun _ => hkeeps.ime hime, hkeeps.low⟩
  · have hkeeps := keepsRegisters_of_exec hp h
    exact ⟨hkeeps.flags, hkeeps.sp, hkeeps.ime, hkeeps.low⟩

/-- Settles O41: the devices are those of before, and the report is HALT's or an instruction's M-cycles. -/
theorem executeContract : Obligations.ExecuteContract := by
  intro i s t h
  obtain ⟨hhalt, hcyc, hvideo, hparams, hserial, hpixels⟩ := devices_of_exec h
  have hreport : 1 ≤ t.report.cycles ∧ t.report.cycles ≤ 6 ∧ (t.report.enteredHalt = true ↔ i = .halt) := by
    have hcycles (hr : ReportsCycles t) (hi : i ≠ .halt) :
        1 ≤ t.report.cycles ∧ t.report.cycles ≤ 6 ∧ (t.report.enteredHalt = true ↔ i = .halt) := by
      obtain ⟨n, hpos, hle, hn⟩ := hr
      rw [hn]
      exact ⟨hpos, hle, nofun, fun hh => absurd hh hi⟩
    by_cases hhalt : i = .halt
    · subst hhalt
      obtain rfl := Host.Outcome.next.inj h
      exact ⟨Nat.le_refl 1, Nat.le_add_left 1 5, fun _ => rfl, fun _ => rfl⟩
    · by_cases hp : i = .prefixCb
      · subst hp
        obtain ⟨hne, hnh, -, -⟩ := decodeCb_kind (s.read s.pc)
        exact hcycles (reportsCycles_of_exec hne hnh ((exec_prefixCb s).symm.trans h)) hhalt
      · exact hcycles (reportsCycles_of_exec hp hhalt h) hhalt
  exact ⟨hhalt, hcyc, hvideo, hparams, hserial, hpixels, hreport⟩

/-! ### Stores, fatal and not (R62, R68) -/

theorem storeAddresses_ldNnSp (nn : Word) (s : State) : storeAddresses (.ldNnSp nn) s = [nn, nn + 1] := rfl

/-- Settles O37: by the shapes of an instruction; its stores are not the fatal ones. -/
theorem instructionsComplete : Obligations.InstructionsComplete := by
  intro i s hlegal hp hstop hcan
  obtain ⟨t, ht, -, -⟩ | ⟨a, v, k, he, ha, hk⟩ | ⟨w, k, he, ha, hk⟩ | ⟨nn, rfl⟩ | ⟨op, -, -, habort⟩ :=
    exec_shape i hp s
  case inl => exact ⟨t, ht⟩
  case inr.inl =>
    rw [he, store_of_canStore (hcan a (by simp [ha])), andThen_next]
    exact (hk _).imp fun _ => And.left
  case inr.inr.inl =>
    rw [he, push16_of_canPush ⟨hcan _ (by simp [ha]), hcan _ (by simp [ha])⟩, andThen_next]
    exact (hk _).imp fun _ => And.left
  case inr.inr.inr.inl =>
    rw [storeAddresses_ldNnSp] at hcan
    exact ⟨_, exec_ldNnSp_of_canStore (hcan nn (by simp)) (hcan (nn + 1) (by simp))⟩
  case inr.inr.inr.inr =>
    rcases habort with hillegal | ⟨hi, hfault⟩
    · exact absurd (hlegal.symm.trans hillegal) nofun
    · exact absurd ((hstop hi).symm.trans hfault) nofun

/-- The address is in the mirror (R68). -/
def inMirror (x : Word) : Bool := decide (0xE000 ≤ x.toNat) && decide (x.toNat ≤ 0xFDFF)

theorem inMirror_iff {x : Word} : inMirror x = true ↔ regionOf x.toNat = .echo := by
  rw [inMirror, Bool.and_eq_true, decide_eq_true_eq, decide_eq_true_eq, regionOf_echo]

theorem find_inMirror_singleton {x a : Word} (h : [x].find? inMirror = some a) : regionOf x.toNat = .echo ∧ a = x := by
  obtain ⟨ha, hx⟩ := Option.guard_eq_some_iff.1 (List.find?_singleton.symm.trans h)
  exact ⟨inMirror_iff.1 hx, ha.symm⟩

/-- The first of two addresses in the mirror. -/
theorem find_inMirror_pair {x y a : Word} (h : [x, y].find? inMirror = some a) :
    (regionOf x.toNat = .echo ∧ a = x) ∨ (regionOf x.toNat ≠ .echo ∧ regionOf y.toNat = .echo ∧ a = y) := by
  by_cases hx : inMirror x = true
  · rw [List.find?_cons_of_pos hx] at h
    exact .inl ⟨inMirror_iff.1 hx, (Option.some.inj h).symm⟩
  · rw [List.find?_cons_of_neg hx] at h
    exact .inr ⟨inMirror_iff.not.1 hx, find_inMirror_singleton h⟩

/-- Settles O38: by the shapes of an instruction; a fatal store ends it, and a store before that one completes. -/
theorem echoWriteAborts : Obligations.EchoWriteAborts := by
  intro i s a hfault hfirst
  change (storeAddresses i s).find? inMirror = some a at hfirst
  have hp : i ≠ .prefixCb := by
    rintro rfl
    cases hfirst
  obtain ⟨-, -, hno, -⟩ | ⟨x, v, k, he, hx, -⟩ | ⟨w, k, he, hx, -⟩ | ⟨nn, rfl⟩ | ⟨-, -, hno, -⟩ := exec_shape i hp s
  case inl | inr.inr.inr.inr =>
    rw [hno] at hfirst
    cases hfirst
  case inr.inl =>
    rw [hx] at hfirst
    obtain ⟨hecho, rfl⟩ := find_inMirror_singleton hfirst
    rw [he, store_eq_fault.2 ⟨⟨hfault, hecho⟩, rfl⟩, andThen_fault]
  case inr.inr.inl =>
    rw [hx] at hfirst
    have hpush : push16 w s = .fault (.echoWrite a) := by
      refine push16_eq_fault.2 ⟨hfault, ?_⟩
      exact (find_inMirror_pair hfirst).imp (And.imp_right (congrArg _)) (And.imp_right (And.imp_right (congrArg _)))
    rw [he, hpush, andThen_fault]
  case inr.inr.inr.inl =>
    change execLdNnSp nn s = _
    rw [execLdNnSp]
    obtain ⟨hecho, rfl⟩ | ⟨hlow, hecho, rfl⟩ := find_inMirror_pair hfirst
    · rw [store_eq_fault.2 ⟨⟨hfault, hecho⟩, rfl⟩, andThen_fault]
    · have hhigh : store (nn + 1) (hiByte s.sp) (s.write nn (loByte s.sp)) = .fault (.echoWrite (nn + 1)) :=
        store_eq_fault.2 ⟨⟨hfault, hecho⟩, rfl⟩
      rw [store_of_canStore (.inr hlow), andThen_next, hhigh, andThen_fault]

/-! ### What stores leave alone -/

/-- A bus write leaves an address that does not show the byte written, and is not in OAM when the write is the DMA
trigger's. -/
theorem memRead_memWrite_frame {addr x : Word} (hself : x ≠ addr) (hmirror : x ≠ addr + 0x2000)
    (hdma : addr = dmaAddr → regionOf x.toNat ≠ .oam) (m : Memory) (v : Byte) :
    memRead (memWrite m addr v) x = memRead m x := by
  rw [memRead_memWrite, writtenByte, if_neg fun ⟨ha, hoam⟩ => hdma ha hoam, if_neg]
  rintro ⟨hw, hshown⟩
  rcases (storageAddr_eq_self_or_mirror (hasStorage_of_writable hw)).1 hshown with h | ⟨-, -, h⟩
  · exact hself h
  · exact hmirror h

/-- Settles O39: by the shapes of an instruction, one or two bus writes after each other or none. -/
theorem memoryFrame : Obligations.MemoryFrame := by
  intro i s t x hp h haddr hoam
  have hwrite (a : Word) (ha : a ∈ storeAddresses i s) (m : Memory) (v : Byte) :
      memRead (memWrite m a v) x = memRead m x :=
    memRead_memWrite_frame (haddr a ha).1 (haddr a ha).2
      (fun hd => regionOf_oam.not.2 (hoam (by rw [hd] at ha; exact ha))) m v
  obtain ⟨u, hu, -, hmem⟩ | ⟨a, v, k, he, ha, hk⟩ | ⟨w, k, he, ha, hk⟩ | ⟨nn, rfl⟩ | ⟨op, he, -, -⟩ := exec_shape i hp s
  case inl =>
    obtain rfl := Host.Outcome.next.inj (hu.symm.trans h)
    rw [hmem]
  case inr.inl =>
    obtain ⟨u, hu, hmem⟩ := hk (s.write a v)
    obtain rfl := Host.Outcome.next.inj (hu.symm.trans (next_of_store (he.symm.trans h)))
    rw [hmem, State.write_mem, hwrite a (by simp [ha])]
  case inr.inr.inl =>
    obtain ⟨u, hu, hmem⟩ := hk (s.pushPlain w)
    obtain rfl := Host.Outcome.next.inj (hu.symm.trans (next_of_push (he.symm.trans h)))
    rw [hmem, pushPlain_mem, hwrite _ (by simp [ha]), hwrite _ (by simp [ha])]
  case inr.inr.inr.inl =>
    have hk := next_of_store (next_of_store h)
    obtain rfl := eq_of_done hk
    have ha := storeAddresses_ldNnSp nn s
    rw [State.reportCycles_mem, State.write_mem, State.write_mem, hwrite _ (by simp [ha]), hwrite _ (by simp [ha])]
  case inr.inr.inr.inr => cases he.symm.trans h

end Sys2Proof.Machine

/-! ## Family 52_step_loop: what a step keeps, how it ends and what it plays -/

namespace Sys2Proof.Machine

/-! ### Memory across a step -/

/-- A property of memory that every bus write keeps, an instruction keeps. -/
theorem exec_mem {P : Memory → Prop} (hwrite : ∀ m a v, P m → P (memWrite m a v)) {i : Instr} {s t : State}
    (h : exec i s = .next t) (hs : P s.mem) : P t.mem := by
  have key (i : Instr) (hp : i ≠ .prefixCb) (s : State) (h : exec i s = .next t) (hs : P s.mem) : P t.mem := by
    obtain ⟨u, hu, -, hmem⟩ | ⟨a, v, k, he, -, hk⟩ | ⟨w, k, he, -, hk⟩ | ⟨nn, rfl⟩ | ⟨op, he, -, -⟩ := exec_shape i hp s
    case inl =>
      obtain rfl := Host.Outcome.next.inj (hu.symm.trans h)
      exact hmem ▸ hs
    case inr.inl =>
      obtain ⟨u, hu, hmem⟩ := hk (s.write a v)
      obtain rfl := Host.Outcome.next.inj (hu.symm.trans (next_of_store (he.symm.trans h)))
      exact hmem ▸ hwrite _ _ _ hs
    case inr.inr.inl =>
      obtain ⟨u, hu, hmem⟩ := hk (s.pushPlain w)
      obtain rfl := Host.Outcome.next.inj (hu.symm.trans (next_of_push (he.symm.trans h)))
      rw [hmem, pushPlain_mem]
      exact hwrite _ _ _ (hwrite _ _ _ hs)
    case inr.inr.inr.inl =>
      have hk := next_of_store (next_of_store h)
      obtain rfl := eq_of_done hk
      exact hwrite _ _ _ (hwrite _ _ _ hs)
    case inr.inr.inr.inr => cases he.symm.trans h
  by_cases hp : i = .prefixCb
  · subst hp
    exact key _ (decodeCb_kind _).1 { s with pc := s.pc + 1 } ((exec_prefixCb s).symm.trans h) hs
  · exact key i hp s h hs

/-- … and a step keeps. -/
theorem step_mem {P : Memory → Prop} (hwrite : ∀ m a v, P m → P (memWrite m a v)) {s t : State}
    (h : step s = .next t) (hs : P s.mem) : P t.mem := by
  obtain ⟨-, rfl⟩ | ⟨-, u, hu, rfl⟩ := step_eq_next.1 h
  · exact finishStep_mem hwrite hs
  · have hmem : P u.mem := exec_mem hwrite hu (by simpa using hs)
    exact finishStep_mem hwrite (by simpa using hmem)

/-- No bus write changes what ROM reads (R64): what shows a writable byte is not in ROM. -/
theorem memRead_memWrite_rom (m : Memory) (addr : Word) (v : Byte) {x : Word} (hx : x.toNat ≤ 0x7FFF) :
    memRead (memWrite m addr v) x = memRead m x := by
  have hoam : regionOf x.toNat ≠ .oam := fun h => by
    have := regionOf_oam.1 h
    omega
  rw [memRead_memWrite, writtenByte, if_neg fun h => hoam h.2, if_neg]
  rintro ⟨hw, hshown⟩
  have hwritable := writable_iff.1 hw
  rcases storageAddr_eq_some.1 hshown with ⟨hlow, -, -⟩ | ⟨-, heq⟩
  · omega
  · omega

/-- Settles O48: a step changes memory by bus writes only. -/
theorem romNeverChanges : Obligations.RomNeverChanges := by
  intro s t h
  refine step_mem (P := SameRom s.mem) (fun m a v hm x hx => ?_) h fun _ _ => rfl
  rw [memRead_memWrite_rom m a v hx, hm x hx]

/-! ### How a step can end -/

theorem fetchInstr_ne_prefixCb (s : State) : fetchInstr s ≠ .prefixCb := (readsBack_decodeBytes _ _ _).2.1

theorem not_canStore {s : State} {a : Word} : ¬CanStore s a ↔ s.params.echoWrite = .fault ∧ regionOf a.toNat = .echo := by
  rw [← echoFaults_eq_false, Bool.not_eq_false, echoFaults_eq_true]

/-- An instruction ends in a next state, or aborts as an unknown opcode (R302, R305), or at a fatal store (R68). -/
theorem exec_ends {i : Instr} (hp : i ≠ .prefixCb) (s : State) :
    (∃ t, exec i s = .next t) ∨
      (∃ op, encode i = [op] ∧ exec i s = unknownOpcode op s ∧
        (isIllegal i = true ∨ i = .stop ∧ s.params.stopPolicy = .fault)) ∨
      ∃ a, exec i s = .fault (.echoWrite a) ∧ s.params.echoWrite = .fault ∧ regionOf a.toNat = .echo := by
  by_cases hillegal : isIllegal i = true
  · obtain ⟨op, henc, hexec⟩ := exec_of_isIllegal hillegal
    exact .inr (.inl ⟨op, henc, hexec s, .inl hillegal⟩)
  by_cases hstop : i = .stop ∧ s.params.stopPolicy = .fault
  · obtain ⟨rfl, hfault⟩ := hstop
    exact .inr (.inl ⟨0x10, rfl, exec_stop_of_fault hfault, .inr ⟨rfl, hfault⟩⟩)
  by_cases hcan : ∀ a ∈ storeAddresses i s, CanStore s a
  · have hnop (hi : i = .stop) : s.params.stopPolicy = .nop2 := by
      cases hq : s.params.stopPolicy
      · exact absurd ⟨hi, hq⟩ hstop
      · rfl
    exact .inl (instructionsComplete i s (Bool.eq_false_iff.2 hillegal) hp hnop hcan)
  · obtain ⟨a, ha, hno⟩ : ∃ a ∈ storeAddresses i s, ¬CanStore s a := by simpa using hcan
    obtain ⟨hfault, hecho⟩ := not_canStore.1 hno
    have hsome : ((storeAddresses i s).find? inMirror).isSome := List.find?_isSome.2 ⟨a, ha, inMirror_iff.2 hecho⟩
    obtain ⟨x, hx⟩ := Option.isSome_iff_exists.1 hsome
    exact .inr (.inr ⟨x, echoWriteAborts i s x hfault hx, hfault, inMirror_iff.1 (List.find?_some hx)⟩)

/-- The byte at PC is the first of the encoding of what is fetched. -/
theorem read_pc_of_encode {s : State} {op : Byte} (h : encode (fetchInstr s) = [op]) : s.read s.pc = op := by
  have hone : (fetchInstr s).length = 1 := by rw [← encode_length, h]; rfl
  have hback := (readsBack_decodeBytes (s.read s.pc) (s.read s.afterOpcode) (s.read (s.afterOpcode + 1))).2.2
  rw [← fetchInstr_eq, hone, h] at hback
  exact (List.singleton_inj.1 hback).symm

/-- Settles O42: a step ends as its instruction does, and a Halted one has none. -/
theorem stepOutcomes : Obligations.StepOutcomes := by
  intro s
  refine ⟨fun hhalted => ⟨_, step_halted hhalted⟩, fun q hq => ?refused, fun r hr => ?fault⟩
  case refused =>
    have hexec := (step_eq_refused.1 hq).2
    obtain ⟨t, ht⟩ | ⟨op, -, hop, -⟩ | ⟨a, ha, -, -⟩ := exec_ends (fetchInstr_ne_prefixCb s) s.fetched
    · cases ht.symm.trans hexec
    · cases hop.symm.trans hexec
    · cases ha.symm.trans hexec
  case fault =>
    obtain ⟨hawake, hexec⟩ := step_eq_fault.1 hr
    obtain ⟨t, ht⟩ | ⟨op, henc, hop, hwhy⟩ | ⟨a, ha, hfault, hecho⟩ := exec_ends (fetchInstr_ne_prefixCb s) s.fetched
    · cases ht.symm.trans hexec
    · have hstep := step_of_unknownOpcode hawake henc hop
      exact .inl ⟨op, Host.Outcome.fault.inj (hr.symm.trans hstep), read_pc_of_encode henc, hwhy⟩
    · have hmirror := regionOf_echo.1 hecho
      exact .inr ⟨a, Host.Outcome.fault.inj (hexec.symm.trans ha), hfault, hmirror.1, hmirror.2⟩

/-! ### IME and the pending EI across an instruction (R27, R29, R303, R304) -/

theorem writesIme_iff {i : Instr} : writesIme i = true ↔ i = .di ∨ i = .ei ∨ i = .reti := by
  unfold writesIme
  split <;> simp_all

theorem ime_of_exec {i : Instr} {s t : State} (h : exec i s = .next t) :
    (i = .di ∧ t.ime = false ∧ t.imePending = false) ∨ (i = .reti ∧ t.ime = true ∧ t.imePending = false) ∨
      (i = .ei ∧ s.params.eiDelay = true ∧ t.ime = s.ime ∧ t.imePending = true) ∨
      (i = .ei ∧ s.params.eiDelay = false ∧ t.imePending = s.imePending) ∨
      (i ≠ .di ∧ i ≠ .ei ∧ t.ime = s.ime ∧ t.imePending = s.imePending) := by
  cases hw : writesIme i
  case false =>
    obtain ⟨hime, hpending⟩ := (registerDiscipline i s t h).2.2.1 hw
    have hne := writesIme_iff.not.1 (Bool.eq_false_iff.1 hw)
    exact .inr (.inr (.inr (.inr ⟨fun hi => hne (.inl hi), fun hi => hne (.inr (.inl hi)), hime, hpending⟩)))
  case true =>
    obtain rfl | rfl | rfl := writesIme_iff.1 hw
    · obtain rfl := eq_of_done h
      exact .inl ⟨rfl, rfl, rfl⟩
    · cases hd : s.params.eiDelay
      · obtain rfl : t = State.reportCycles { s with ime := true } 1 := by simpa [exec, execEi, hd, done, eq_comm] using h
        exact .inr (.inr (.inr (.inl ⟨rfl, rfl, rfl⟩)))
      · obtain rfl : t = State.reportCycles { s with imePending := true } 1 := by simpa [exec, execEi, hd, done, eq_comm] using h
        exact .inr (.inr (.inl ⟨rfl, rfl, rfl, rfl⟩))
    · obtain rfl := eq_of_done h
      exact .inr (.inl ⟨rfl, rfl, rfl⟩)

theorem settleIme_of_not_pending {u : State} (h : u.imePending = false) (arm : Bool) : settleIme arm u = u := by
  simp [settleIme, h]

/-- The effect of an armed EI: IME is set, whether EI is still pending or an instruction has set IME by itself. -/
theorem settleIme_armed {u : State} (h : u.imePending = true ∨ u.ime = true ∧ u.imePending = false) :
    settleIme true u = { u with ime := true, imePending := false } := by
  rcases h with hpending | ⟨hime, hpending⟩
  · simp [settleIme, hpending]
  · obtain ⟨⟩ := u
    cases hime
    cases hpending
    rfl

@[simp] theorem settleIme_false (u : State) : settleIme false u = u := rfl

/-! ### How parts (b) to (e) leave IME, SP and PC -/

/-- A check that does not dispatch leaves IME, SP and PC. -/
theorem finishStep_of_not_dispatches {v : State} (h : dispatches (advance v.report.cycles v) = false) :
    (finishStep v).ime = v.ime ∧ (finishStep v).sp = v.sp ∧ (finishStep v).pc = v.pc := by
  rw [finishStep_ime, finishStep_sp, finishStep_pc, serviceInterrupts_of_not h]
  simp

/-- One that dispatches clears IME and goes to the vector of the least pending source. -/
theorem finishStep_of_dispatches {v : State} (h : dispatches (advance v.report.cycles v) = true) :
    (finishStep v).ime = false ∧ (finishStep v).sp = v.sp - 2 ∧
      ∃ i, i < 5 ∧ (pendingSources (advance v.report.cycles v).mem).getLsbD i = true ∧
        (∀ j, j < i → (pendingSources (advance v.report.cycles v).mem).getLsbD j = false) ∧
        (finishStep v).pc = BitVec.ofNat 16 (0x0040 + 8 * i) := by
  obtain ⟨hime, hsp, hpc⟩ := serviceInterrupts_vector h
  rw [finishStep_ime, finishStep_sp, finishStep_pc]
  exact ⟨hime, by simpa using hsp, hpc⟩

theorem dispatches_eq_false_of_ime {c : State} (h : c.ime = false) : dispatches c = false := by
  simp [dispatches, h]

theorem dispatches_eq_false_of_none {c : State} (h : pendingSources c.mem = 0) : dispatches c = false := by
  simp [dispatches, h]

/-- Settles O44: the check is `takeInterrupt` of the least pending source, written out. -/
theorem interruptCheck : Obligations.InterruptCheck := by
  intro s q
  refine ⟨fun hnone => ?none, fun hime hq => ?taken⟩
  case none => exact serviceInterrupts_of_not (hnone.elim dispatches_eq_false_of_ime dispatches_eq_false_of_none)
  case taken =>
    obtain ⟨hi, hbit, hleast⟩ := lowestSource_spec _ hq
    refine ⟨lowestSource q, _, _, hi, hbit, hleast, wrotePush_pushPlain s s.pc, wroteByte_memWrite _ _ _, ?_⟩
    rw [serviceInterrupts_of_dispatches (dispatches_eq_true.2 ⟨hime, hq⟩), takeInterrupt_eq]
    rfl

/-! ### The HALT state (R405) -/

theorem finishStep_haltState_of_none {v : State} (hq : pendingSources (advance v.report.cycles v).mem = 0) :
    (finishStep v).haltState = if v.report.enteredHalt then .halted else v.haltState := by
  rw [finishStep_haltState, decide_eq_false (not_not.2 hq)]
  cases v.report.enteredHalt
  case false => exact foldHalt_keep _ _
  case true => exact foldHalt_sleep _ _

theorem finishStep_haltState_of_pending {v : State} (hq : pendingSources (advance v.report.cycles v).mem ≠ 0) :
    (finishStep v).haltState = if v.report.enteredHalt && !v.ime then .haltBug else .running := by
  rw [finishStep_haltState, decide_eq_true hq]
  cases v.report.enteredHalt
  case false => exact foldHalt_wake _ _
  case true =>
    cases v.ime
    case false => exact foldHalt_bug _
    case true => exact foldHalt_wake_ime _ _

/-- How a step ends by what is pending and by IME at the interrupt check: the three outcomes of R405 and R424 together. -/
structure StepEnds (v t : State) (q : Byte) : Prop where
  none : q = 0 → t.haltState = (if v.report.enteredHalt then .halted else v.haltState) ∧ t.ime = v.ime ∧ t.sp = v.sp ∧
    t.pc = v.pc
  masked : q ≠ 0 → v.ime = false → t.haltState = (if v.report.enteredHalt then .haltBug else .running) ∧ t.ime = false ∧
    t.sp = v.sp ∧ t.pc = v.pc
  taken : q ≠ 0 → v.ime = true → t.haltState = .running ∧ t.ime = false ∧ t.sp = v.sp - 2 ∧
    ∃ i, i < 5 ∧ q.getLsbD i = true ∧ (∀ j, j < i → q.getLsbD j = false) ∧ t.pc = BitVec.ofNat 16 (0x0040 + 8 * i)

theorem stepEnds_finishStep (v : State) :
    StepEnds v (finishStep v) (pendingSources (advance v.report.cycles v).mem) := by
  have hadv : (advance v.report.cycles v).ime = v.ime := by simp
  constructor
  case none =>
    intro hq
    exact ⟨finishStep_haltState_of_none hq, finishStep_of_not_dispatches (dispatches_eq_false_of_none hq)⟩
  case masked =>
    intro hq hime
    have hend := finishStep_of_not_dispatches (dispatches_eq_false_of_ime (hadv.trans hime))
    rw [finishStep_haltState_of_pending hq, hime, Bool.not_false, Bool.and_true]
    exact ⟨rfl, hend.1.trans hime, hend.2⟩
  case taken =>
    intro hq hime
    rw [finishStep_haltState_of_pending hq, hime, Bool.not_true, Bool.and_false]
    exact ⟨rfl, finishStep_of_dispatches (dispatches_eq_true.2 ⟨hadv.trans hime, hq⟩)⟩

/-- Settles O46: an idle cycle reports one M-cycle and no HALT, and then the step ends as any does. -/
theorem haltedStep : Obligations.HaltedStep := by
  intro s hhalted c q
  have hq : q = pendingSources (advance 1 (idleCycle (openStep s))).mem := by
    rw [advance_succ, advance, mCycle_eq]
    simp only [c, q, mCycle_eq]
    rfl
  have hends : StepEnds (idleCycle (openStep s)) (finishStep (idleCycle (openStep s))) q :=
    hq ▸ stepEnds_finishStep (idleCycle (openStep s))
  refine ⟨_, step_halted hhalted, fun r => ?_, ?_, ?_, fun h => ?_, fun h hime => ?_, fun h hime => ?_⟩
  · cases r <;> simp [State.getR8, idleCycle]
  · simp [idleCycle]
  · simp [idleCycle]
  · obtain ⟨hstate, hime, hsp, hpc⟩ := hends.none h
    exact ⟨hstate.trans hhalted, hime, hpc, hsp⟩
  · obtain ⟨hstate, hclear, hsp, hpc⟩ := hends.masked h hime
    exact ⟨hstate, hclear, hpc, hsp⟩
  · exact hends.taken h hime

/-- Settles O45: both parts from how a step ends; HALT alone reports a HALT, and leaves PC behind its one byte. -/
theorem haltOutcomes : Obligations.HaltOutcomes := by
  refine ⟨fun s hawake hread => ?halt, fun s u hawake hexec => ?any⟩
  case halt =>
    intro after c q
    have hfetch : fetchInstr s = .halt := by
      rw [fetchInstr_eq, hread]
      rfl
    have hafter : s.fetched.pc = after := by
      rw [State.fetched, hfetch, State.afterFetch_pc]
      exact BitVec.add_zero _
    let v := settleIme (armed s) { openStep s with pc := after, report := { cycles := 1, enteredHalt := true } }
    have hstep : step s = .next (finishStep v) := by
      rw [step_awake hawake]
      simp only [v, ← hafter, hfetch]
      rfl
    have hreport : v.report = { cycles := 1, enteredHalt := true } := by simp [v]
    have hends := stepEnds_finishStep v
    rw [show pendingSources (advance v.report.cycles v).mem = q by rw [hreport]; rfl] at hends
    have hime : c.ime = v.ime := by simp [c, v]
    have hpc : v.pc = after := by simp [v]
    have hsp : v.sp = s.sp := by simp [v]
    refine ⟨_, hstep, fun h => ?none, fun h hset => ?taken, fun h hclear => ?masked⟩
    case none =>
      obtain ⟨hstate, -, -, hto⟩ := hends.none h
      rw [hreport] at hstate
      exact ⟨hstate, hto.trans hpc⟩
    case taken =>
      obtain ⟨hstate, hoff, hpush, hvector⟩ := hends.taken h (hime.symm.trans hset)
      exact ⟨hstate, hoff, by rw [hpush, hsp], hvector⟩
    case masked =>
      obtain ⟨hstate, hoff, -, hto⟩ := hends.masked h (hime.symm.trans hclear)
      rw [hreport] at hstate
      exact ⟨hstate, hoff, hto.trans hpc⟩
  case any =>
    intro c q
    have hstep : step s = .next (finishStep (settleIme (armed s) u)) :=
      step_eq_next.2 (.inr ⟨hawake, u, hexec, rfl⟩)
    have hreport : (settleIme (armed s) u).report = u.report := by simp
    have hends := stepEnds_finishStep (settleIme (armed s) u)
    rw [show pendingSources (advance (settleIme (armed s) u).report.cycles (settleIme (armed s) u)).mem = q by
      rw [hreport]; rfl] at hends
    have hime : c.ime = (settleIme (armed s) u).ime := by simp [c]
    have hstate : (settleIme (armed s) u).haltState = s.haltState := by
      simpa using (devices_of_exec hexec).1
    obtain ⟨-, -, -, -, -, -, -, -, hhalt⟩ := executeContract _ _ _ hexec
    refine ⟨_, hstep, fun hi => ⟨fun h hclear => ?bug, fun h hset => (hends.taken h (hime.symm.trans hset)).1, fun h => ?sleep⟩,
      fun hi => ⟨fun h => ?wake, fun h => ?keep⟩⟩
    case bug =>
      rw [(hends.masked h (hime.symm.trans hclear)).1, hreport, hhalt.2 hi]
      rfl
    case sleep =>
      rw [(hends.none h).1, hreport, hhalt.2 hi]
      rfl
    case wake =>
      cases hset : (settleIme (armed s) u).ime
      case true => exact (hends.taken h hset).1
      case false =>
        rw [(hends.masked h hset).1, hreport, Bool.eq_false_iff.2 (hhalt.not.2 hi)]
        rfl
    case keep =>
      rw [(hends.none h).1, hreport, Bool.eq_false_iff.2 (hhalt.not.2 hi), hstate]
      rfl

theorem settleIme_true_imePending (u : State) : (settleIme true u).imePending = false := by
  cases hp : u.imePending <;> simp [settleIme, hp]

/-- Settles O47: by what the instruction does to IME and the pending EI, and then how the step ends. -/
theorem eiDelay : Obligations.EiDelay := by
  intro s t hdelay hawake hstep
  obtain ⟨hhalted, -⟩ | ⟨-, u, hexec, rfl⟩ := step_eq_next.1 hstep
  · exact absurd hhalted hawake
  have harmed : armed s = s.imePending := by simp [armed, hdelay]
  have hcases := ime_of_exec hexec
  simp only [State.afterFetch_params, State.afterFetch_ime, State.afterFetch_imePending, openStep_frame, hdelay] at hcases
  rw [harmed]
  refine ⟨fun hp => ?cleared, fun hp => ?pending, fun hp hclear hei => ?still,
    fun hp => ⟨u, hexec, fun hdi => ?effect, fun hdi => ?di⟩⟩
  case cleared => simp [hp, settleIme_true_imePending]
  case pending =>
    have hend : (finishStep (settleIme s.imePending u)).imePending = u.imePending := by simp [hp]
    rw [hend]
    rcases hcases with ⟨hi, -, hu⟩ | ⟨hi, -, hu⟩ | ⟨hi, -, -, hu⟩ | ⟨-, hno, -⟩ | ⟨-, hi, -, hu⟩
    · simp [hi, hu]
    · simp [hi, hu]
    · simp [hi, hu]
    · cases hno
    · simp [hi, hu, hp]
  case still =>
    have hime : u.ime = false := by
      rcases hcases with ⟨-, hu, -⟩ | ⟨hi, -, -⟩ | ⟨-, -, hu, -⟩ | ⟨-, hno, -⟩ | ⟨-, hi, -, -⟩
      · exact hu
      · cases hei.symm.trans hi
      · exact hu.trans hclear
      · cases hno
      · exact absurd hei hi
    have hend := finishStep_of_not_dispatches (v := u) (dispatches_eq_false_of_ime (by simpa using hime))
    rw [hp, settleIme_false, hend.1, hime]
  case effect =>
    have hset : u.imePending = true ∨ u.ime = true ∧ u.imePending = false := by
      rcases hcases with ⟨hi, -, -⟩ | ⟨-, hu⟩ | ⟨-, -, -, hu⟩ | ⟨-, hno, -⟩ | ⟨-, -, -, hu⟩
      · exact absurd hi hdi
      · exact .inr hu
      · exact .inl hu
      · cases hno
      · exact .inl (hu.trans hp)
    rw [hp, settleIme_armed hset]
    have hends := stepEnds_finishStep { u with ime := true, imePending := false }
    exact ⟨by simp, rfl, fun h => (hends.none h).2.1, fun h => (hends.taken h rfl).2⟩
  case di =>
    obtain ⟨hime, hpending⟩ : u.ime = false ∧ u.imePending = false := by
      rcases hcases with ⟨-, hu⟩ | ⟨hi, -⟩ | ⟨hi, -⟩ | ⟨hi, -⟩ | ⟨hi, -⟩
      · exact hu
      · cases hdi.symm.trans hi
      · cases hdi.symm.trans hi
      · cases hdi.symm.trans hi
      · exact absurd hdi hi
    have hend := finishStep_of_not_dispatches (v := u) (dispatches_eq_false_of_ime (by simpa using hime))
    rw [settleIme_of_not_pending hpending]
    exact ⟨by simpa using hime, by simpa using hpending, rfl, hend.1.trans hime⟩

/-! ### The time of a step (R345, R400 to R404, R407) -/

/-- The interrupt check plays five M-cycles when it dispatches. -/
theorem serviceInterrupts_time (c : State) (hc : c.cyc < 2 ^ c.params.clkWidth) :
    (serviceInterrupts c).cyc = (c.cyc + if dispatches c then 5 else 0) % 2 ^ c.params.clkWidth ∧
      (serviceInterrupts c).pixelsOut.length ≤ c.pixelsOut.length + 4 * if dispatches c then 5 else 0 := by
  cases hd : dispatches c
  case false =>
    rw [serviceInterrupts_of_not hd]
    exact ⟨(Nat.mod_eq_of_lt hc).symm, Nat.le_refl _⟩
  case true =>
    rw [serviceInterrupts_of_dispatches hd]
    generalize lowestSource _ = i
    have hcyc := advance_cyc 5 (takeInterrupt i c) (by simpa using hc)
    have hpixels := advance_pixels 5 (takeInterrupt i c)
    simp only [takeInterrupt_frame] at hcyc hpixels
    exact ⟨hcyc, hpixels⟩

/-- Parts (b) to (e) from a state with an empty pixel port: the M-cycles reported and those of the check, and at most four
pixels for each. -/
theorem finishStep_time {u : State} {cyc w : Nat} (hcyc : u.cyc = cyc) (hw : u.params.clkWidth = w) (hlt : cyc < 2 ^ w)
    (hpixels : u.pixelsOut = []) :
    let c := advance u.report.cycles u
    let k := if c.ime = true ∧ pendingSources c.mem ≠ 0 then 5 else 0
    (finishStep u).cyc = (cyc + u.report.cycles + k) % 2 ^ w ∧
      (finishStep u).pixelsOut.length ≤ 4 * (u.report.cycles + k) := by
  intro c k
  subst hcyc hw
  have hk : (if dispatches c then 5 else 0) = k := if_congr dispatches_eq_true rfl rfl
  have hparams : c.params = u.params := by simp [c]
  have hplayed : c.cyc = _ := advance_cyc u.report.cycles u hlt
  have hemitted : c.pixelsOut.length ≤ _ := advance_pixels u.report.cycles u
  obtain ⟨htime, hmore⟩ := serviceInterrupts_time c (by rw [hparams, hplayed]; exact Nat.mod_lt _ (Nat.two_pow_pos _))
  rw [hk, hparams, hplayed, Nat.mod_add_mod] at htime
  rw [hk] at hmore
  rw [hpixels, List.length_nil] at hemitted
  rw [finishStep_cyc, finishStep_pixelsOut]
  exact ⟨htime, hmore.trans (by omega)⟩

/-- Settles O43: the instruction's state or the idle one plays its M-cycles, and the check plays its own. -/
theorem stepTime : Obligations.StepTime := by
  refine ⟨fun _ => rfl, advance_succ, mCycle_eq, fun s t hs hstep => ?step⟩
  obtain ⟨hhalted, rfl⟩ | ⟨hawake, v, hexec, rfl⟩ := step_eq_next.1 hstep
  · exact ⟨idleCycle (openStep s), fun _ => ⟨rfl, rfl⟩, fun h => absurd hhalted h, Nat.le_refl 1, Nat.le_add_left 1 5,
      rfl, finishStep_time (u := idleCycle (openStep s)) rfl rfl hs rfl⟩
  · obtain ⟨-, hcyc, -, hparams, -, hpixels, hpos, hle, -⟩ := executeContract _ _ _ hexec
    have hreport : (settleIme (armed s) v).report = v.report := by simp
    have hempty : (settleIme (armed s) v).pixelsOut = [] := by simp [hpixels, openStep]
    exact ⟨settleIme (armed s) v, fun h => absurd h hawake, fun _ => ⟨v, hexec, rfl, congrArg _ hreport⟩,
      by rwa [hreport], by rwa [hreport], rfl,
      finishStep_time (by simpa using hcyc) (by simp [hparams]) hs hempty⟩

end Sys2Proof.Machine

/-! ## Family 51_clock_timer: the Clock, the serial probe and the width of the counter -/

namespace Sys2Proof.Machine

/-! ### One tick (R382 to R384) -/

theorem memRead_dividerStep (cyc : Nat) (m : Memory) (x : Word) :
    memRead (dividerStep cyc m) x = if x = 0xFF04 ∧ cyc % 64 = 0 then memRead m 0xFF04 + 1 else memRead m x := by
  unfold dividerStep
  by_cases hdue : cyc % 64 = 0
  · rw [if_pos hdue, memRead_write_div]
    simp only [hdue, and_true]
    rfl
  · simp [hdue]

theorem toNat_extractLsb_two (v : Byte) : (v.extractLsb' 0 2).toNat = v.toNat % 4 := by
  rw [BitVec.extractLsb'_toNat, Nat.shiftRight_zero]

theorem timerDue_iff {p : Params} {cyc : Nat} {m : Memory} :
    timerDue p cyc m = true ↔
      (memRead m 0xFF07).getLsbD 2 = true ∧ cyc % periodCycles (tacPeriod p ((memRead m 0xFF07).toNat % 4)) = 0 := by
  rw [← toNat_extractLsb_two]
  exact (Bool.and_eq_true _ _).to_iff.trans (and_congr_right' decide_eq_true_iff)

theorem timerStep_of_not_due {p : Params} {cyc : Nat} {m : Memory} (h : ¬timerDue p cyc m = true) :
    timerStep p cyc m = m := if_neg h

/-- The timer counts, and no other address changes. -/
theorem memRead_timerStep_count {p : Params} {cyc : Nat} {m : Memory} (h : timerDue p cyc m = true)
    (hno : memRead m 0xFF05 ≠ 0xFF) (x : Word) :
    memRead (timerStep p cyc m) x = if x = 0xFF05 then memRead m 0xFF05 + 1 else memRead m x := by
  rw [timerStep, if_pos h]
  exact (congrArg (memRead · x) (if_neg hno)).trans (memRead_write_tima _ _ _)

/-- The timer reloads and raises its request, and no other address changes. -/
theorem memRead_timerStep_overflow {p : Params} {cyc : Nat} {m : Memory} (h : timerDue p cyc m = true)
    (hff : memRead m 0xFF05 = 0xFF) (x : Word) :
    memRead (timerStep p cyc m) x =
      if x = 0xFF0F then memRead m 0xFF0F ||| 0x04#8
      else if x = 0xFF05 then memRead m 0xFF06 else memRead m x := by
  rw [timerStep, if_pos h]
  refine (congrArg (memRead · x) (if_pos hff)).trans ?_
  rw [raiseIrq_eq, memRead_write_if, memRead_write_tima, memRead_write_tima]
  rfl

theorem tacPeriod_default {sel : Nat} (h : sel < 4) :
    periodCycles (tacPeriod Params.default sel) =
      if sel = 0 then 256 else if sel = 1 then 4 else if sel = 2 then 16 else 64 := by
  interval_cases sel <;> rfl

/-- The timer touches TIMA and IF only. -/
theorem memRead_timerStep_frame {p : Params} {cyc : Nat} {m : Memory} {x : Word} (htima : x ≠ 0xFF05) (hif : x ≠ 0xFF0F) :
    memRead (timerStep p cyc m) x = memRead m x := by
  by_cases hdue : timerDue p cyc m = true
  · by_cases hff : memRead m 0xFF05 = 0xFF
    · rw [memRead_timerStep_overflow hdue hff, if_neg hif, if_neg htima]
    · rw [memRead_timerStep_count hdue hff, if_neg htima]
  · rw [timerStep_of_not_due hdue]

/-- Settles O52: the divider step changes DIV only, and the timer step sees TAC, TIMA and TMA as they were. -/
theorem clockTick_settled : Obligations.ClockTick := by
  intro s n t tac tima period due
  have hperiod : period = periodCycles (tacPeriod s.params (tac.toNat % 4)) := by
    simp only [period]
    cases tacPeriod s.params (tac.toNat % 4) <;> rfl
  have hdiv (x : Word) (hx : x ≠ 0xFF04) : memRead (dividerStep n s.mem) x = memRead s.mem x := by
    rw [memRead_dividerStep, if_neg fun h => hx h.1]
  have hdue : timerDue s.params n (dividerStep n s.mem) = true ↔ due := by
    rw [timerDue_iff, hdiv _ (by decide)]
    simp only [due, hperiod, tac]
  have htima : memRead (dividerStep n s.mem) 0xFF05 = tima := hdiv _ (by decide)
  have ht : t.mem = timerStep s.params n (dividerStep n s.mem) := rfl
  refine ⟨rfl, fun hp => ?_, ?_, fun h => ?_, fun h hno => ?_, fun h hff => ?_, fun x h4 h5 hf => ?_⟩
  · rw [hperiod, hp, tacPeriod_default (Nat.mod_lt _ (by decide))]
  · rw [ht, memRead_timerStep_frame (by decide) (by decide), memRead_dividerStep]
    simp
  · rw [ht, timerStep_of_not_due (hdue.not.mpr h)]
    exact ⟨htima, hdiv _ (by decide)⟩
  · have hread := memRead_timerStep_count (hdue.mpr h) (htima ▸ hno)
    rw [ht, hread, hread, if_pos rfl, if_neg (by decide), htima]
    exact ⟨rfl, hdiv _ (by decide)⟩
  · have hread := memRead_timerStep_overflow (hdue.mpr h) (htima.trans hff)
    rw [ht, hread, hread, if_neg (by decide), if_pos rfl, if_pos rfl, hdiv _ (by decide), hdiv _ (by decide)]
    exact ⟨rfl, rfl⟩
  · rw [ht, memRead_timerStep_frame h5 hf, hdiv x h4]

/-! ### The serial probe (R406) -/

theorem memRead_probeMemory (p : Params) (m : Memory) (x : Word) :
    memRead (probeMemory p m) x =
      if x = 0xFF0F ∧ p.serialRaisesIrq = true then memRead m 0xFF0F ||| 0x08#8
      else if x = 0xFF02 then memRead m 0xFF02 &&& 0x7F#8 else memRead m x := by
  unfold probeMemory
  by_cases hp : p.serialRaisesIrq = true
  · rw [if_pos hp, raiseIrq_eq, memRead_write_if, memRead_write_sc, memRead_write_sc]
    simp only [hp, and_true]
    rfl
  · rw [if_neg hp, if_neg fun h => hp h.2]
    exact memRead_write_sc _ _ _

/-- Settles O49, by SC's transfer flag. -/
theorem serialProbe_settled : Obligations.SerialProbe := by
  intro s sc t
  refine ⟨fun h => if_neg (ne_true_of_eq_false h), fun h => ?_⟩
  have ht : t = { s with serialOut := some (memRead s.mem 0xFF01), mem := probeMemory s.params s.mem } := if_pos h
  rw [ht]
  refine ⟨rfl, ?_, ?_, fun x hsc hif => ?_⟩
  · rw [memRead_probeMemory, if_neg fun h => absurd h.1 (by decide), if_pos rfl]
  · rw [memRead_probeMemory, if_neg (by decide : ¬(0xFF0F : Word) = 0xFF02)]
    simp only [true_and]
  · rw [memRead_probeMemory, if_neg fun h => hif h.1, if_neg hsc]

end Sys2Proof.Machine

/-! ## Family 51_clock_timer: the width of the Clock's counter (R50)

A part of the step that commutes with changing the counter and its width keeps two machines that differ in those alike. Every
part but the Clock tick commutes with any such change; the tick looks at the counter modulo the divisors 4, 16, 64, 256. -/

namespace Sys2Proof.Machine

/-- `s` with another counter of another width. -/
def State.reclock (s : State) (cyc width : Nat) : State :=
  { s with cyc := cyc, params := { s.params with clkWidth := width } }

theorem SameButClock.eq_reclock {s s' : State} (h : SameButClock s s') : s' = s.reclock s'.cyc s'.params.clkWidth := h.2.2.2

theorem sameButClock_reclock {s : State} {cyc width : Nat} (hs : 8 ≤ s.params.clkWidth) (hw : 8 ≤ width)
    (hcyc : s.cyc % 256 = cyc % 256) : SameButClock s (s.reclock cyc width) := ⟨hs, hw, hcyc, rfl⟩

/-- A part that commutes with any change of the clock keeps the two machines alike. -/
theorem SameButClock.map {f : State → State} (hf : ∀ s cyc width, f (s.reclock cyc width) = (f s).reclock cyc width)
    {s s' : State} (h : SameButClock s s') : SameButClock (f s) (f s') := by
  have hself : f s = (f s).reclock s.cyc s.params.clkWidth := hf s s.cyc s.params.clkWidth
  have hcyc : (f s).cyc = s.cyc := by rw [hself]; rfl
  have hwidth : (f s).params.clkWidth = s.params.clkWidth := by rw [hself]; rfl
  obtain ⟨hs, hw, hmod, heq⟩ := h
  have hs' : f s' = (f s).reclock s'.cyc s'.params.clkWidth := (congrArg f heq).trans (hf s _ _)
  rw [hs']
  exact sameButClock_reclock (hwidth.symm ▸ hs) hw (hcyc.symm ▸ hmod)

theorem dot_reclock (s : State) (cyc width : Nat) : dot (s.reclock cyc width) = (dot s).reclock cyc width := rfl

theorem batch_reclock (s : State) (cyc width : Nat) : batch (s.reclock cyc width) = (batch s).reclock cyc width := rfl

theorem takeInterrupt_reclock (i : Nat) (s : State) (cyc width : Nat) :
    takeInterrupt i (s.reclock cyc width) = (takeInterrupt i s).reclock cyc width := rfl

theorem serialProbe_reclock (s : State) (cyc width : Nat) :
    serialProbe (s.reclock cyc width) = (serialProbe s).reclock cyc width := by
  by_cases h : transferFlagged s.mem = true
  · exact (if_pos h).trans (congrArg (State.reclock · cyc width) (if_pos h : serialProbe s = _).symm)
  · exact (if_neg h).trans (congrArg (State.reclock · cyc width) (if_neg h : serialProbe s = _).symm)

theorem settleIme_reclock (arm : Bool) (s : State) (cyc width : Nat) :
    settleIme arm (s.reclock cyc width) = (settleIme arm s).reclock cyc width := by
  by_cases h : (arm && s.imePending) = true
  · exact (if_pos h).trans (congrArg (State.reclock · cyc width) (if_pos h : settleIme arm s = _).symm)
  · exact (if_neg h).trans (congrArg (State.reclock · cyc width) (if_neg h : settleIme arm s = _).symm)

/-! ### The Clock tick -/

theorem nextCyc_mod {p : Params} (h : 8 ≤ p.clkWidth) (cyc : Nat) : nextCyc p cyc % 256 = (cyc + 1) % 256 :=
  Nat.mod_mod_of_dvd _ (Nat.pow_dvd_pow 2 h)

theorem periodCycles_dvd (t : TimerPeriod) : periodCycles t ∣ 256 := by cases t <;> decide

theorem mod_eq_of_dvd {a b d : Nat} (h : a % 256 = b % 256) (hd : d ∣ 256) : a % d = b % d :=
  Nat.ModEq.of_dvd hd h

theorem dividerStep_congr {a b : Nat} (h : a % 256 = b % 256) : dividerStep a = dividerStep b := by
  unfold dividerStep
  rw [mod_eq_of_dvd h (by decide : 64 ∣ 256)]

theorem timerStep_congr {a b : Nat} (h : a % 256 = b % 256) (p : Params) (width : Nat) :
    timerStep { p with clkWidth := width } a = timerStep p b := by
  have hdue : timerDue { p with clkWidth := width } a = timerDue p b := by
    funext m
    simp only [timerDue, mod_eq_of_dvd h (periodCycles_dvd _)]
    rfl
  unfold timerStep
  rw [hdue]

theorem clockTick_reclock {s : State} {cyc width : Nat}
    (h : nextCyc { s.params with clkWidth := width } cyc % 256 = nextCyc s.params s.cyc % 256) :
    clockTick (s.reclock cyc width) = (clockTick s).reclock (nextCyc { s.params with clkWidth := width } cyc) width := by
  have hmem := congrFun (timerStep_congr h s.params width) (dividerStep (nextCyc s.params s.cyc) s.mem)
  rw [← dividerStep_congr h] at hmem
  exact congrArg (fun m => { (clockTick s).reclock (nextCyc { s.params with clkWidth := width } cyc) width with mem := m })
    (hmem.trans (congrArg _ (congrFun (dividerStep_congr h) s.mem)))

theorem SameButClock.clockTick {s s' : State} (h : SameButClock s s') :
    SameButClock (Machine.clockTick s) (Machine.clockTick s') := by
  obtain ⟨hs, hw, hmod, heq⟩ := h
  have hnext : nextCyc { s.params with clkWidth := s'.params.clkWidth } s'.cyc % 256 = nextCyc s.params s.cyc % 256 := by
    refine (nextCyc_mod hw s'.cyc).trans ?_
    rw [nextCyc_mod hs]
    omega
  have hs' : Machine.clockTick s' = _ := (congrArg Machine.clockTick heq).trans (clockTick_reclock hnext)
  rw [hs']
  exact sameButClock_reclock hs hw hnext.symm

/-! ### Advancing, the interrupt check and parts (b) to (e) -/

theorem SameButClock.advance (n : Nat) : ∀ {s s' : State}, SameButClock s s' →
    SameButClock (Machine.advance n s) (Machine.advance n s') := by
  induction n with
  | zero => exact fun h => h
  | succ n ih => exact fun h => ih (h.clockTick.map batch_reclock)

theorem SameButClock.serviceInterrupts {s s' : State} (h : SameButClock s s') :
    SameButClock (Machine.serviceInterrupts s) (Machine.serviceInterrupts s') := by
  have heq : dispatches s' = dispatches s := by rw [h.eq_reclock]; rfl
  have hmem : s'.mem = s.mem := by rw [h.eq_reclock]; rfl
  cases hd : dispatches s with
  | true =>
    rw [serviceInterrupts_of_dispatches hd, serviceInterrupts_of_dispatches (heq.trans hd), hmem]
    exact (h.map (takeInterrupt_reclock _)).advance 5
  | false => rwa [serviceInterrupts_of_not hd, serviceInterrupts_of_not (heq.trans hd)]

theorem SameButClock.finishStep {s s' : State} (h : SameButClock s s') :
    SameButClock (Machine.finishStep s) (Machine.finishStep s') := by
  have hreport : s'.report = s.report := by rw [h.eq_reclock]; rfl
  have hchecked := h.advance s.report.cycles
  have hfold : applyFold (Machine.advance s.report.cycles s') = applyFold (Machine.advance s.report.cycles s) := by
    rw [hchecked.eq_reclock]; rfl
  rw [finishStep_eq, finishStep_eq, hreport, hfold]
  have hfolded := hchecked.serviceInterrupts.map
    (f := applyFold (Machine.advance s.report.cycles s) s.report.enteredHalt) fun _ _ _ => rfl
  exact (hfolded.map serialProbe_reclock).map (f := clearReport) fun _ _ _ => rfl

/-- An instruction does not see the clock. -/
theorem exec_reclock (i : Instr) (s : State) (cyc width : Nat) :
    exec i (s.reclock cyc width) = mapNext (·.reclock cyc width) (exec i s) := by
  refine (exec_onDevices i (s := s) (d := s.reclock cyc width) ⟨rfl, rfl, rfl, rfl⟩).trans ?_
  cases h : exec i s with
  | next t => exact congrArg (fun u : State => Host.Outcome.next (u.reclock cyc width)) (onDevices_of_exec h).symm
  | fault | refused => rfl

/-- Settles O53: an instruction does not see the clock, and every part after it keeps the two machines alike. -/
theorem clockWidthUnobservable : Obligations.ClockWidthUnobservable := by
  intro s s' h
  have hhalt : s'.haltState = s.haltState := by rw [h.eq_reclock]; rfl
  have hexec : exec (fetchInstr s') s'.fetched =
      mapNext (·.reclock s'.cyc s'.params.clkWidth) (exec (fetchInstr s) s.fetched) := by
    rw [h.eq_reclock]
    exact exec_reclock (fetchInstr s) s.fetched _ _
  refine ⟨fun t ht => ?_, fun r hr => ?_⟩
  · obtain ⟨hhalted, rfl⟩ | ⟨hawake, u, hu, rfl⟩ := step_eq_next.mp ht
    · refine ⟨_, step_eq_next.mpr (.inl ⟨hhalt.trans hhalted, rfl⟩), ?_⟩
      exact (h.map (f := fun s => idleCycle (openStep s)) fun _ _ _ => rfl).finishStep
    · obtain ⟨-, hcyc, -, hparams, -, -⟩ := devices_of_exec hu
      have hlike : SameButClock u (u.reclock s'.cyc s'.params.clkWidth) :=
        sameButClock_reclock (hparams ▸ h.1) h.2.1 (hcyc ▸ h.2.2.1)
      have harmed : armed s' = armed s := by rw [h.eq_reclock]; rfl
      rw [hu] at hexec
      refine ⟨_, step_eq_next.mpr (.inr ⟨hhalt ▸ hawake, _, hexec, rfl⟩), ?_⟩
      rw [harmed]
      exact (hlike.map (settleIme_reclock _)).finishStep
  · obtain ⟨hawake, hu⟩ := step_eq_fault.mp hr
    exact step_eq_fault.mpr ⟨hhalt ▸ hawake, by rw [hexec, hu]; rfl⟩

end Sys2Proof.Machine

/-! ## The invariant of a run (R24, R29, R50, R55, R63) -/

namespace Sys2Proof.Machine

/-! ### The devices stay in their ranges -/

/-- The Clock's counter is within its width and the VideoUnit within its ranges. -/
def DevicesInRange (s : State) : Prop := s.cyc < 2 ^ s.params.clkWidth ∧ videoWf s.params s.video

theorem runDots_wf {p : Params} (m : Nat → Memory) {v : Video} (hv : videoWf p v) (n : Nat) :
    videoWf p (runDots p m n v).1 := by
  induction n with
  | zero => exact hv
  | succ n ih => exact tickOneDot_wf (m n) ih

theorem mCycle_inRange {s : State} (h : DevicesInRange s) : DevicesInRange (mCycle s) := by
  have hclock : (mCycle s).cyc < 2 ^ (mCycle s).params.clkWidth := by
    simpa [mCycle_cyc, nextCyc] using Nat.mod_lt _ (Nat.two_pow_pos _)
  have hvideo : (mCycle s).video = (runDots s.params (fun _ => (clockTick s).mem) 4 s.video).1 := by
    rw [mCycle_eq]
    rfl
  have hparams : (mCycle s).params = s.params := by simp
  refine ⟨hclock, ?_⟩
  rw [hvideo, hparams]
  exact runDots_wf _ h.2 4

theorem advance_inRange (n : Nat) {s : State} (h : DevicesInRange s) : DevicesInRange (advance n s) :=
  advance_induct (P := DevicesInRange) (fun _ => mCycle_inRange) n s h

theorem serviceInterrupts_inRange {s : State} (h : DevicesInRange s) : DevicesInRange (serviceInterrupts s) := by
  cases hd : dispatches s with
  | true =>
    rw [serviceInterrupts_of_dispatches hd]
    refine advance_inRange 5 ?_
    rw [takeInterrupt_eq]
    exact h
  | false => rwa [serviceInterrupts_of_not hd]

theorem finishStep_inRange {s : State} (h : DevicesInRange s) : DevicesInRange (finishStep s) := by
  have hend := serviceInterrupts_inRange (advance_inRange s.report.cycles h)
  unfold DevicesInRange at hend ⊢
  simpa using hend

/-! ### The statements -/

/-- Settles O50: the power-on states hold no cell but canonical ones, and their devices are at rest. -/
theorem invAtReset : Obligations.InvAtReset := by
  have hon (p : PowerOn) (hp : p.params.wf) : Inv (State.powerOn p) :=
    { params := hp
      memory := powerOnMemory_wf p
      flags := (by decide : (0xB0 : Byte) &&& 0x0F#8 = 0)
      clock := Nat.two_pow_pos _
      pending := fun _ => rfl
      video := Nat.zero_le _
      report := rfl }
  exact ⟨powerOn_default ▸ hon defaultPowerOn (by decide), hon⟩

/-- An instruction leaves an EI pending only with `EI_DELAY`. -/
theorem pending_of_exec {i : Instr} {s t : State} (h : exec i s = .next t)
    (hs : s.params.eiDelay = false → s.imePending = false) (hd : s.params.eiDelay = false) : t.imePending = false := by
  obtain ⟨-, -, hp⟩ | ⟨-, -, hp⟩ | ⟨-, hdelay, -⟩ | ⟨-, -, hp⟩ | ⟨-, -, -, hp⟩ := ime_of_exec h
  · exact hp
  · exact hp
  · exact absurd (hd.symm.trans hdelay) Bool.false_ne_true
  · exact hp.trans (hs hd)
  · exact hp.trans (hs hd)

/-- Parts (b) to (e) keep the invariant, but for the report, which they clear. -/
theorem inv_finishStep {s : State} (hparams : s.params.wf) (hmem : Memory.wf (finishStep s).mem)
    (hflags : s.f &&& 0x0F#8 = 0) (hdev : DevicesInRange s) (hpending : s.params.eiDelay = false → s.imePending = false) : Inv (finishStep s) := by
  obtain ⟨hclock, hvideo⟩ := finishStep_inRange hdev
  exact
    { params := by simpa using hparams
      memory := hmem
      flags := by simpa using hflags
      clock := hclock
      pending := by simpa using hpending
      video := hvideo
      report := finishStep_report s }

/-- Settles O51: memory by its writes, the flags and the pending EI by the instruction, the devices by the M-cycles. -/
theorem stepKeepsInv : Obligations.StepKeepsInv := by
  intro s t hs hstep
  have hmem : Memory.wf t.mem := step_mem (P := Memory.wf) (fun _ a v h => memWrite_wf h a v) hstep hs.memory
  obtain ⟨-, rfl⟩ | ⟨-, u, hu, rfl⟩ := step_eq_next.mp hstep
  · exact inv_finishStep hs.params hmem hs.flags ⟨hs.clock, hs.video⟩ hs.pending
  · obtain ⟨-, hcyc, hvideo, hparams, -, -⟩ := devices_of_exec hu
    have hflags : u.f &&& 0x0F#8 = 0 := by
      obtain ⟨-, -, -, hkept | hlow⟩ := registerDiscipline _ _ _ hu
      · exact hkept ▸ hs.flags
      · exact hlow
    have hdev : u.cyc < 2 ^ u.params.clkWidth ∧ videoWf u.params u.video := by
      rw [hcyc, hvideo, hparams]
      exact ⟨hs.clock, hs.video⟩
    have hpending : u.params.eiDelay = false → (settleIme (armed s) u).imePending = false := fun hd => by
      have hnone := pending_of_exec hu hs.pending (hparams ▸ hd)
      rw [settleIme_of_not_pending hnone, hnone]
    refine inv_finishStep ?_ hmem (by simpa using hflags) ?_ (by simpa using hpending)
    · have hkept : (settleIme (armed s) u).params = s.params := by simpa using hparams
      exact hkept ▸ hs.params
    · unfold DevicesInRange
      simpa using hdev

end Sys2Proof.Machine

/-! ## Family 10_state: the register file, the flags and the power-on state -/

namespace Sys2Proof.Machine

/-! ### The register file (R20, R21) -/

theorem getR16_setR16_same (s : State) (rr : Reg16) (w : Word) : (s.setR16 rr w).getR16 rr = w := by
  cases rr with
  | bc | de | hl => exact wordOf_hiByte_loByte w
  | sp => rfl

theorem getR16_setR16_ne (s : State) {rr rr' : Reg16} (w : Word) (h : rr' ≠ rr) :
    (s.setR16 rr w).getR16 rr' = s.getR16 rr' := by
  cases rr with
  | bc => cases rr' with
    | bc => exact absurd rfl h
    | de | hl | sp => rfl
  | de => cases rr' with
    | de => exact absurd rfl h
    | bc | hl | sp => rfl
  | hl => cases rr' with
    | hl => exact absurd rfl h
    | bc | de | sp => rfl
  | sp => cases rr' with
    | sp => exact absurd rfl h
    | bc | de | hl => rfl

theorem setR16_sp_getR8 (s : State) (w : Word) (r : Reg8) : (s.setR16 .sp w).getR8 r = s.getR8 r := by
  cases r <;> rfl

theorem wordOf_toNat_comm (h l : Byte) : (wordOf h l).toNat = 256 * h.toNat + l.toNat := by
  rw [wordOf_toNat, Nat.mul_comm]

/-- Settles O7: by the tables `r8` and `r16`. -/
theorem registerFile : Obligations.RegisterFile := by
  refine ⟨fun s v => ⟨rfl, rfl, rfl, rfl, rfl, rfl, rfl⟩, fun s w => ⟨rfl, rfl, rfl, rfl⟩, fun s r r' v => ?r8,
    fun s => ?pairs, fun s rr rr' w => ?r16, fun s rr w r => ?frame⟩
  case r8 =>
    split_ifs with h
    · exact h ▸ getR8_setR8_same s r v
    · exact getR8_setR8_ne s v h
  case pairs => exact ⟨wordOf_toNat_comm _ _, wordOf_toNat_comm _ _, wordOf_toNat_comm _ _⟩
  case r16 =>
    split_ifs with h
    · exact h ▸ getR16_setR16_same s rr w
    · exact getR16_setR16_ne s w h
  case frame =>
    refine ⟨?_, ?_, fun h => h ▸ setR16_sp_getR8 s w r⟩
    · cases rr <;> rfl
    · cases rr <;> rfl

/-- Settles O8: the sixteen flag bytes, and the conditions by definition. -/
theorem flagLayout : Obligations.FlagLayout :=
  ⟨by decide, fun _ => ⟨rfl, rfl, rfl, rfl⟩⟩

/-! ### The power-on state (R56 to R58) -/

theorem memRead_powerOn_of_storage (p : PowerOn) {x : Word} (h : (regionOf x.toNat).hasStorage = true) :
    memRead (powerOnMemory p) x = powerOnByte p x.toNat := by
  rw [memRead_powerOnMemory, storageAddr_eq_some.mpr (.inr ⟨h, rfl⟩)]

theorem powerOnByte_rom (p : PowerOn) (k : Fin 32768) : powerOnByte p k.val = p.rom k := by
  have hr : regionOf k.val = .rom := regionOf_rom.mpr (by omega)
  simp [powerOnByte, hr]

theorem powerOnByte_io (p : PowerOn) (k : Fin 128) : powerOnByte p (0xFF00 + k.val) = p.ioReset k := by
  have hr : regionOf (0xFF00 + k.val) = .io := regionOf_io.mpr (by omega)
  simp [powerOnByte, hr]

theorem memRead_powerOn_at (p : PowerOn) {a : Nat} {v : Byte} (ha : a < 0x10000) (hs : (regionOf a).hasStorage = true)
    (hv : powerOnByte p a = v) : memRead (powerOnMemory p) (BitVec.ofNat 16 a) = v := by
  have hx : (BitVec.ofNat 16 a).toNat = a := Nat.mod_eq_of_lt ha
  rw [memRead_powerOn_of_storage p (hx.symm ▸ hs), hx, hv]

theorem powerOnByte_ram (p : PowerOn) {a : Nat} (hrom : 0x8000 ≤ a) (hio : ¬(0xFF00 ≤ a ∧ a ≤ 0xFF7F))
    (hie : a < 0xFFFF) : powerOnByte p a = p.ramInit := by
  have h1 : regionOf a ≠ .rom := fun h => by have := regionOf_rom.mp h; omega
  have h2 : regionOf a ≠ .io := fun h => hio (regionOf_io.mp h)
  have h3 : regionOf a ≠ .ie := fun h => by have := regionOf_ie.mp h; omega
  unfold powerOnByte
  cases hr : regionOf a with
  | rom => exact absurd hr h1
  | io => exact absurd hr h2
  | ie => exact absurd hr h3
  | vram | eram | wram | echo | oam | gap | hram => rfl

/-- The mirror shows work RAM; the rest of RAM is its own storage. -/
theorem memRead_powerOn_ram (p : PowerOn) {x : Word}
    (h : (0x8000 ≤ x.toNat ∧ x.toNat ≤ 0xFE9F) ∨ (0xFF80 ≤ x.toNat ∧ x.toNat ≤ 0xFFFE)) :
    memRead (powerOnMemory p) x = p.ramInit := by
  by_cases hecho : 0xE000 ≤ x.toNat ∧ x.toNat ≤ 0xFDFF
  · rw [memRead_powerOnMemory, storageAddr_eq_some.mpr (.inl ⟨hecho.1, hecho.2, Nat.sub_add_cancel (by omega)⟩)]
    exact powerOnByte_ram p (by omega) (by omega) (by omega)
  · rw [memRead_powerOn_of_storage p (hasStorage_iff.mpr ⟨hecho, by omega⟩)]
    exact powerOnByte_ram p (by omega) (by omega) (by omega)

theorem mem_of_lookupCell {a : Nat} {v : Byte} : ∀ {l : List Host.Cell}, lookupCell l a = some v → (a, v) ∈ l
  | (k, w) :: rest, h => by
    by_cases hk : a = k
    · simp_all [lookupCell]
    · exact List.mem_cons_of_mem _ (mem_of_lookupCell (by simpa [lookupCell, hk] using h))

/-- An I/O byte that is not 0x00 at power-on is an entry of R57's table. -/
theorem mem_of_ioReset_ne {k : Fin 128} (h : ioReset k ≠ 0) :
    (0xFF00 + k.val, ioReset k) ∈ ioResetVideo ++ ioResetSystem ++ ioResetAudio := by
  unfold ioReset at h ⊢
  cases hl : lookupCell (ioResetVideo ++ ioResetSystem ++ ioResetAudio) (0xFF00 + k.val) with
  | none => exact absurd (by rw [hl]; rfl) h
  | some v => exact mem_of_lookupCell hl

/-- Settles O12: every region's power-on byte; of R57's table the entries other than 0x00 are the listed ones. -/
theorem powerOnState : Obligations.PowerOnState := by
  unfold Obligations.PowerOnState
  intro system audio video listed
  have hlisted : ∀ c ∈ ioResetVideo ++ ioResetSystem ++ ioResetAudio, c.2 ≠ 0 → c ∈ listed := by decide
  refine ⟨fun p => ?power, powerOn_default.symm, rfl, by decide, fun x hx hgap hno => ?rest⟩
  case power =>
    refine ⟨rfl, rfl, rfl, rfl, rfl, rfl, rfl, rfl, rfl, rfl, rfl, rfl, rfl, rfl, rfl, rfl, rfl, rfl,
      fun k => ?rom, fun k => ?io, ?ie, fun x => memRead_powerOn_ram p⟩
    case rom => exact memRead_powerOn_at p (by omega) (hasStorage_iff.mpr ⟨by omega, by omega⟩) (powerOnByte_rom p k)
    case io => exact memRead_powerOn_at p (by omega) (hasStorage_iff.mpr ⟨by omega, by omega⟩) (powerOnByte_io p k)
    case ie => exact memRead_powerOn_at p (a := 0xFFFF) (by decide) rfl rfl
  case rest =>
    have hreset : State.reset.mem = powerOnMemory defaultPowerOn := congrArg State.mem powerOn_default.symm
    have hlt := x.isLt
    rw [hreset]
    by_cases hio : 0xFF00 ≤ x.toNat ∧ x.toNat ≤ 0xFF7F
    · obtain ⟨k, hk⟩ : ∃ k : Fin 128, x.toNat = 0xFF00 + k.val := ⟨⟨x.toNat - 0xFF00, by omega⟩, by simp only; omega⟩
      rw [memRead_powerOn_of_storage _ (hasStorage_iff.mpr ⟨by omega, by omega⟩), hk, powerOnByte_io]
      by_contra hne
      exact hno _ (hlisted _ (mem_of_ioReset_ne hne) hne) hk.symm
    · by_cases hie : x.toNat = 0xFFFF
      · rw [memRead_powerOn_of_storage _ (hasStorage_iff.mpr ⟨by omega, by omega⟩), hie]
        rfl
      · exact memRead_powerOn_ram _ (by omega)

end Sys2Proof.Machine

/-! ## Family 46_system: NOP, HALT, DI and EI -/

namespace Sys2Proof.Machine

/-- Settles O34: each is what it says; EI by `EI_DELAY`. -/
theorem systemInstructions : Obligations.SystemInstructions := by
  intro s
  refine ⟨executes_of_done rfl rfl, ⟨rfl, rfl⟩, executes_of_done rfl rfl, executes_of_done rfl ?_⟩
  cases hd : s.params.eiDelay with
  | true => exact if_pos hd
  | false => exact if_neg (ne_true_of_eq_false hd)

end Sys2Proof.Machine

/-! ## Family 20_memory: reads -/

namespace Sys2Proof.Machine

theorem memRead_of_storage (m : Memory) {x : Word} (h : (regionOf x.toNat).hasStorage = true) :
    memRead m x = m.get x.toNat := by
  rw [memRead_eq, storageAddr_eq_some.mpr (.inr ⟨h, rfl⟩)]

/-- Settles O9: by the storage that an address shows. -/
theorem busRead : Obligations.BusRead := by
  intro m x
  refine ⟨fun hlo hhi => ?mirror, fun hlo hhi => ?gap, fun h => ?storage⟩
  case mirror =>
    have hsub : (x - 0x2000).toNat = x.toNat - 0x2000 := by bv_omega
    have hstore : (regionOf (x - 0x2000).toNat).hasStorage = true := by
      rw [hsub]
      exact hasStorage_iff.mpr ⟨by omega, by omega⟩
    rw [memRead_of_storage m hstore, hsub, memRead_eq,
      storageAddr_eq_some.mpr (.inl ⟨hlo, hhi, Nat.sub_add_cancel (by omega)⟩)]
  case gap =>
    have hr := regionOf_gap.mpr ⟨hlo, hhi⟩
    rw [memRead, hr]
  case storage => exact memRead_of_storage m (hasStorage_iff.mpr ⟨by omega, by omega⟩)

end Sys2Proof.Machine

/-! ## Family 41_load16_stack: a pop of what was pushed -/

namespace Sys2Proof.Machine

theorem canStore_of_writable {s : State} {addr : Word} (h : (regionOf addr.toNat).writable = true) : CanStore s addr :=
  .inr fun hecho => by simp [hecho, Region.writable] at h

theorem poppedWord_reportCycles (s : State) (n : Nat) : poppedWord (s.reportCycles n) = poppedWord s := by
  simp only [poppedWord, State.read, State.reportCycles_mem, State.reportCycles_sp]

/-- Both bytes of a push onto plain storage are read back. -/
theorem poppedWord_pushPlain {s : State} (w : Word) (hhi : (regionOf (s.sp - 1).toNat).writable = true)
    (hlo : (regionOf (s.sp - 2).toNat).writable = true) (hhi' : s.sp - 1 ≠ 0xFF46) (hlo' : s.sp - 2 ≠ 0xFF46) :
    poppedWord (s.pushPlain w) = w := by
  have hne : (s.sp - 1).toNat ≠ (s.sp - 2).toNat := by bv_omega
  have hsp : s.sp - 2 + 1 = s.sp - 1 := by bv_omega
  have hhigh : memRead (s.pushPlain w).mem (s.sp - 1) = hiByte w := by
    rw [pushPlain_mem, memRead_memWrite_of_ne hlo', storageAddr_self_of_writable hhi,
      if_neg fun h => hne (Option.some.inj h.2), memRead_memWrite_same hhi' hhi]
  have hlow : memRead (s.pushPlain w).mem (s.sp - 2) = loByte w := by
    rw [pushPlain_mem, memRead_memWrite_same hlo' hlo]
  rw [poppedWord, pushPlain_sp, hsp, State.read, State.read, hhigh, hlow, wordOf_hiByte_loByte]

theorem wordOf_maskLow (w : Word) : wordOf (hiByte w) (loByte w &&& 0xF0#8 &&& 0xF0#8) = w &&& 0xFFF0#16 := by
  have hmask : 0xFFF0#16 = 0xFF#8 ++ 0xF0#8 := rfl
  have hhi : hiByte w &&& 0xFF#8 = hiByte w := BitVec.and_allOnes
  conv_rhs => rw [← wordOf_hiByte_loByte w, hmask]
  rw [wordOf, wordOf, BitVec.and_append, hhi, BitVec.and_assoc, BitVec.and_self]

theorem getStk_setStk (s : State) (rr : StkReg) (w : Word) :
    (s.setStk rr w).getStk rr = if rr = .af then w &&& 0xFFF0#16 else w := by
  cases rr with
  | bc | de | hl => exact wordOf_hiByte_loByte w
  | af => exact wordOf_maskLow w

theorem setStk_sp (s : State) (rr : StkReg) (w : Word) : (s.setStk rr w).sp = s.sp := by cases rr <;> rfl

theorem exec_popRr (rr : StkReg) (s : State) :
    exec (.popRr rr) s = done 3 (State.setStk { s with sp := s.sp + 2 } rr (poppedWord s)) := rfl

/-- Settles O18: the push completes, and the pop reads both its bytes. -/
theorem popOfPush : Obligations.PopOfPush := by
  intro s rr rr' hhi hlo hhi' hlo'
  have hpush : exec (.pushRr rr) s = done 4 (s.pushPlain (s.getStk rr)) :=
    congrArg (andThen · (done 4)) (push16_of_canPush ⟨canStore_of_writable hhi, canStore_of_writable hlo⟩ _)
  have hword : poppedWord ((s.pushPlain (s.getStk rr)).reportCycles 4) = s.getStk rr := by
    rw [poppedWord_reportCycles, poppedWord_pushPlain _ hhi hlo hhi' hlo']
  have hsp : s.sp - 2 + 2 = s.sp := by bv_omega
  refine ⟨_, _, hpush, exec_popRr rr' _, ?sp, ?word, ?low⟩
  case sp => rw [State.reportCycles_sp, setStk_sp, State.reportCycles_sp, pushPlain_sp, hsp]
  case word => exact (getStk_setStk _ rr' _).trans (by rw [hword])
  case low =>
    rintro rfl
    exact mask_low _

end Sys2Proof.Machine

/-! ## Family 42_alu8: DAA after ADC and SBC -/

namespace Sys2Proof.Machine

theorem bcd_toNat {n : Nat} (h : n < 100) : (bcd n).toNat = 16 * (n / 10) + n % 10 :=
  Nat.mod_eq_of_lt (by omega)

/-- A sum of two digits and a carry is not a digit exactly when it leaves its nibble or leaves more than 9 in it. -/
theorem low_digit_iff {tens ones : Nat} (h : ones ≤ 19) : 16 ≤ ones ∨ 9 < (16 * tens + ones) % 256 % 16 ↔ 10 ≤ ones := by
  omega

/-- … and the whole sum is 100 or more exactly when it leaves its byte or leaves more than 0x99 in it. -/
theorem high_digit_iff {tens ones : Nat} (ht : tens ≤ 18) (ho : ones ≤ 19) :
    256 ≤ 16 * tens + ones ∨ 0x99 < (16 * tens + ones) % 256 ↔ 100 ≤ 10 * tens + ones := by
  omega

/-- The correction of R210 makes the binary sum of two BCD bytes and a carry their BCD sum. -/
theorem bcd_add_correction {x y c : Nat} (hx : x < 100) (hy : y < 100) (hc : c ≤ 1) :
    (16 * (x / 10) + x % 10 + (16 * (y / 10) + y % 10) + c + ((if 10 ≤ x % 10 + y % 10 + c then 0x06 else 0) +
      (if 100 ≤ x + y + c then 0x60 else 0))) % 256 = 16 * ((x + y + c) % 100 / 10) + (x + y + c) % 100 % 10 := by
  split_ifs <;> omega

/-- … and the binary difference their BCD difference. -/
theorem bcd_sub_correction {x y c : Nat} (hx : x < 100) (hy : y < 100) (hc : c ≤ 1) :
    (16 * (x / 10) + x % 10 + 512 - (16 * (y / 10) + y % 10) - c - ((if x % 10 < y % 10 + c then 0x06 else 0) +
      (if x < y + c then 0x60 else 0))) % 256 = 16 * ((x + 200 - y - c) % 100 / 10) + (x + 200 - y - c) % 100 % 10 := by
  split_ifs <;> omega

theorem carryNat_le (b : Bool) : carryNat b ≤ 1 := by cases b <;> decide

theorem exec_adcN (n : Byte) (s : State) :
    exec (.adcN n) s = .next ((afterAdd s n (s.f.getLsbD 4)).reportCycles 2) := congrArg (done 2) (setAlu_add8 s _ _)

theorem exec_sbcN (n : Byte) (s : State) :
    exec (.sbcN n) s = .next ((afterSub s n (s.f.getLsbD 4)).reportCycles 2) := congrArg (done 2) (setAlu_sub8 s _ _)

theorem exec_daa (s : State) : exec .daa s = .next ((afterDaa s).reportCycles 1) := congrArg (done 1) (setAlu_daa8 s)

theorem flagsByte_carry (z n h c : Bool) : (flagsByte z n h c).getLsbD 4 = c := by
  obtain ⟨-, -, -, hcarry, -⟩ := flagLayout.1 z n h c
  exact hcarry

/-- DAA, its two corrections named: H and C ask for them, and after an addition A may ask for them too. -/
theorem afterDaa_of {t : State} {low high : Prop} [Decidable low] [Decidable high]
    (hlow : t.f.getLsbD 5 = true ∨ t.f.getLsbD 6 = false ∧ 9 < t.a.toNat % 16 ↔ low)
    (hhigh : t.f.getLsbD 4 = true ∨ t.f.getLsbD 6 = false ∧ 0x99 < t.a.toNat ↔ high) :
    (afterDaa t).a =
        (if t.f.getLsbD 6 then t.a - BitVec.ofNat 8 ((if low then 0x06 else 0) + (if high then 0x60 else 0))
          else t.a + BitVec.ofNat 8 ((if low then 0x06 else 0) + (if high then 0x60 else 0))) ∧
      ((afterDaa t).f.getLsbD 4 = true ↔ high) := by
  have hl : (t.f.getLsbD 5 || (!t.f.getLsbD 6 && decide (9 < t.a.toNat % 16))) = decide low := by
    rw [Bool.eq_iff_iff, decide_eq_true_iff, ← hlow]
    simp
  have hh : (t.f.getLsbD 4 || (!t.f.getLsbD 6 && decide (0x99 < t.a.toNat))) = decide high := by
    rw [Bool.eq_iff_iff, decide_eq_true_iff, ← hhigh]
    simp
  simp only [afterDaa, hl, hh, flagsByte_carry, decide_eq_true_eq, and_self]

/-- What DAA looks at after an addition. -/
theorem afterAdd_spec (s : State) (v : Byte) (cin : Bool) :
    (afterAdd s v cin).f.getLsbD 6 = false ∧
      ((afterAdd s v cin).f.getLsbD 5 = true ↔ 16 ≤ s.a.toNat % 16 + v.toNat % 16 + carryNat cin) ∧
      ((afterAdd s v cin).f.getLsbD 4 = true ↔ 256 ≤ s.a.toNat + v.toNat + carryNat cin) ∧
      (afterAdd s v cin).a.toNat = (s.a.toNat + v.toNat + carryNat cin) % 256 := by
  obtain ⟨-, hn, hh, hc, -⟩ := flagLayout.1 (s.a + v + BitVec.ofNat 8 (carryNat cin) = 0) false
    (decide (16 ≤ s.a.toNat % 16 + v.toNat % 16 + carryNat cin)) (decide (256 ≤ s.a.toNat + v.toNat + carryNat cin))
  refine ⟨hn, (Bool.eq_iff_iff.mp hh).trans decide_eq_true_iff, (Bool.eq_iff_iff.mp hc).trans decide_eq_true_iff, ?_⟩
  have := carryNat_le cin
  show (s.a + v + BitVec.ofNat 8 (carryNat cin)).toNat = _
  bv_omega

/-- What DAA looks at after a subtraction. -/
theorem afterSub_spec (s : State) (v : Byte) (cin : Bool) :
    (afterSub s v cin).f.getLsbD 6 = true ∧
      ((afterSub s v cin).f.getLsbD 5 = true ↔ s.a.toNat % 16 < v.toNat % 16 + carryNat cin) ∧
      ((afterSub s v cin).f.getLsbD 4 = true ↔ s.a.toNat < v.toNat + carryNat cin) ∧
      (afterSub s v cin).a.toNat = (s.a.toNat + 512 - v.toNat - carryNat cin) % 256 := by
  obtain ⟨-, hn, hh, hc, -⟩ := flagLayout.1 (diffByte s.a v cin = 0) true
    (decide (s.a.toNat % 16 < v.toNat % 16 + carryNat cin)) (decide (s.a.toNat < v.toNat + carryNat cin))
  refine ⟨hn, (Bool.eq_iff_iff.mp hh).trans decide_eq_true_iff, (Bool.eq_iff_iff.mp hc).trans decide_eq_true_iff, ?_⟩
  have := carryNat_le cin
  show (s.a - v - BitVec.ofNat 8 (carryNat cin)).toNat = _
  bv_omega

theorem bcd_low {n : Nat} (h : n < 100) : (bcd n).toNat % 16 = n % 10 := by
  rw [bcd_toNat h]
  omega

/-- ADC of BCD bytes, then DAA. -/
theorem daa_of_adcN {s : State} {x y c : Nat} (hx : x < 100) (hy : y < 100) (ha : s.a = bcd x)
    (hcarry : carryNat (s.f.getLsbD 4) = c) :
    ∃ t u, exec (.adcN (bcd y)) s = .next t ∧ exec .daa t = .next u ∧ u.a = bcd ((x + y + c) % 100) ∧
      (u.f.getLsbD 4 = true ↔ 100 ≤ x + y + c) := by
  have hc : c ≤ 1 := hcarry ▸ carryNat_le _
  have hdigits : 16 * (x / 10) + x % 10 + (16 * (y / 10) + y % 10) + c =
      16 * (x / 10 + y / 10) + (x % 10 + y % 10 + c) := by
    omega
  have htotal : 100 ≤ 10 * (x / 10 + y / 10) + (x % 10 + y % 10 + c) ↔ 100 ≤ x + y + c := by omega
  refine ⟨_, _, exec_adcN _ _, exec_daa _, ?_⟩
  obtain ⟨hn, hh, hcy, hval⟩ := afterAdd_spec s (bcd y) (s.f.getLsbD 4)
  rw [hcarry, ha, bcd_low hx, bcd_low hy] at hh
  rw [hcarry, ha, bcd_toNat hx, bcd_toNat hy, hdigits] at hcy hval
  generalize afterAdd s (bcd y) (s.f.getLsbD 4) = t at hn hh hcy hval ⊢
  have hlow : t.f.getLsbD 5 = true ∨ t.f.getLsbD 6 = false ∧ 9 < t.a.toNat % 16 ↔ 10 ≤ x % 10 + y % 10 + c := by
    simp only [hh, hn, hval, true_and]
    exact low_digit_iff (by omega)
  have hhigh : t.f.getLsbD 4 = true ∨ t.f.getLsbD 6 = false ∧ 0x99 < t.a.toNat ↔ 100 ≤ x + y + c := by
    simp only [hcy, hn, hval, true_and, ← htotal]
    exact high_digit_iff (by omega) (by omega)
  obtain ⟨hresult, hflag⟩ := afterDaa_of (t := t.reportCycles 2) hlow hhigh
  refine ⟨BitVec.eq_of_toNat_eq ?_, hflag⟩
  rw [State.reportCycles_a, hresult, State.reportCycles_f, hn, if_neg Bool.false_ne_true, State.reportCycles_a,
    BitVec.toNat_add, BitVec.toNat_ofNat, hval, bcd_toNat (Nat.mod_lt _ (by decide)), ← bcd_add_correction hx hy hc,
    hdigits]
  simp only [Nat.add_mod_mod, Nat.mod_add_mod]

/-- SBC of BCD bytes, then DAA. -/
theorem daa_of_sbcN {s : State} {x y c : Nat} (hx : x < 100) (hy : y < 100) (ha : s.a = bcd x)
    (hcarry : carryNat (s.f.getLsbD 4) = c) :
    ∃ t u, exec (.sbcN (bcd y)) s = .next t ∧ exec .daa t = .next u ∧ u.a = bcd ((x + 200 - y - c) % 100) ∧
      (u.f.getLsbD 4 = true ↔ x < y + c) := by
  have hc : c ≤ 1 := hcarry ▸ carryNat_le _
  refine ⟨_, _, exec_sbcN _ _, exec_daa _, ?_⟩
  obtain ⟨hn, hh, hcy, hval⟩ := afterSub_spec s (bcd y) (s.f.getLsbD 4)
  rw [hcarry, ha, bcd_low hx, bcd_low hy] at hh
  rw [hcarry, ha, bcd_toNat hx, bcd_toNat hy] at hcy hval
  generalize afterSub s (bcd y) (s.f.getLsbD 4) = t at hn hh hcy hval ⊢
  have hborrow : 16 * (x / 10) + x % 10 < 16 * (y / 10) + y % 10 + c ↔ x < y + c := by omega
  obtain ⟨hresult, hflag⟩ := afterDaa_of (t := t.reportCycles 2) (low := x % 10 < y % 10 + c) (high := x < y + c)
    (by simp only [State.reportCycles_f, hh, hn, Bool.true_eq_false, false_and, or_false])
    (by simp only [State.reportCycles_f, hcy, hn, hborrow, Bool.true_eq_false, false_and, or_false])
  refine ⟨BitVec.eq_of_toNat_eq ?_, hflag⟩
  rw [State.reportCycles_a, hresult, State.reportCycles_f, hn, if_pos rfl, State.reportCycles_a, BitVec.toNat_sub,
    BitVec.toNat_ofNat, hval, bcd_toNat (Nat.mod_lt _ (by decide)), ← bcd_sub_correction hx hy hc]
  split_ifs <;> omega

/-- Settles O24: H and C after ADC and SBC, and A where N is clear, tell which digits need their correction. -/
theorem daaIsDecimal : Obligations.DaaIsDecimal :=
  fun _ _ _ hx hy ha => ⟨daa_of_adcN hx hy ha rfl, daa_of_sbcN hx hy ha rfl⟩

end Sys2Proof.Machine

/-! ## Family 50_video_unit: a scanline and a frame (R333 to R335, R349, R350) -/

namespace Sys2Proof.Machine

/-- The coordinates of pixels, in their order. -/
def coordsOf (l : List Pixel) : List (Nat × Nat) := l.map fun px => (px.x, px.y)

theorem coordsOf_append (l l' : List Pixel) : coordsOf (l ++ l') = coordsOf l ++ coordsOf l' := List.map_append

theorem append_coordsOf_none (l : List (Nat × Nat)) : l ++ coordsOf (none : Option Pixel).toList = l := List.append_nil l

theorem LcdOn.mono {m : Nat → Memory} {a n : Nat} (h : LcdOn m n) (ha : a ≤ n) : LcdOn m a :=
  fun k hk => h k (Nat.lt_of_lt_of_le hk ha)

theorem LcdOn.shift {m : Nat → Memory} {a b n : Nat} (h : LcdOn m n) (hab : a + b ≤ n) : LcdOn (fun k => m (a + k)) b :=
  fun k hk => h (a + k) (by omega)

/-! ### A scanline -/

/-- Where the unit stands after `n` dots of scanline `ly`, `n` below 456, and the coordinates of the pixels it has emitted:
still in OamScan; in Draw, whose dots are what its columns, its start-of-line penalty and its stall make them; or in HBlank,
which fills the line. -/
inductive OnLine (p : Params) (ly : Nat) : Nat → Video → List (Nat × Nat) → Prop
  | oamScan {n left wlc : Nat} (hleft : 1 ≤ left) (hn : n + left = 80) :
    OnLine p ly n { mode := .oamScan ly left, wlc := wlc } []
  | draw {n wlc : Nat} {line : DrawLine} (hn : n = 80 + line.dots) (hly : line.ly = ly) (hcol : line.col ≤ 159)
    (hdots : line.dots + line.penalty ≤ 19 + line.col + if line.windowShown then p.windowStallDots else 0) :
    OnLine p ly n { mode := .draw line, wlc := wlc } ((List.range line.col).map fun x => (x, ly))
  | hBlank {n left wlc : Nat} (hleft : 1 ≤ left) (hn : n + left = 456) :
    OnLine p ly n { mode := .hBlank ly left, wlc := wlc } (rowCoords ly)

/-- A dot of Draw. -/
theorem onLine_drawTick {p : Params} {ly n : Nat} (m : Memory) (lcdc : Byte) (wlc : Nat) {line : DrawLine}
    (hstall : p.windowStallDots ≤ 196) (hn : n = 80 + line.dots) (hly : line.ly = ly) (hcol : line.col ≤ 159)
    (hdots : line.dots + line.penalty ≤ 19 + line.col + if line.windowShown then p.windowStallDots else 0) :
    OnLine p ly (n + 1) (drawTick p m lcdc wlc line).1
      (((List.range line.col).map fun x => (x, ly)) ++ coordsOf (drawTick p m lcdc wlc line).2.toList) := by
  rcases drawTick_cases p m lcdc wlc line with ⟨penalty, shown, htick, hkind⟩ | ⟨hpen, shown, hkept, htick⟩
  · rw [htick, append_coordsOf_none]
    refine .draw (by dsimp only; omega) hly hcol ?_
    dsimp only
    obtain ⟨hpos, rfl, rfl⟩ | ⟨hzero, hnew, hpos, rfl, rfl⟩ := hkind
    · omega
    · rw [hnew, if_neg Bool.false_ne_true] at hdots
      rw [if_pos rfl]
      omega
  · have hdots' : line.dots ≤ 19 + line.col + if shown then p.windowStallDots else 0 := by
      have hstalls : (if line.windowShown then p.windowStallDots else 0) ≤ if shown then p.windowStallDots else 0 := by
        cases hw : line.windowShown with
        | true => rw [hkept hw]
        | false => exact Nat.zero_le _
      omega
    have hle : (if shown then p.windowStallDots else 0) ≤ 196 := by split <;> omega
    have hpixels : ((List.range line.col).map fun x => (x, ly)) ++ [(line.col, line.ly)] =
        (List.range (line.col + 1)).map fun x => (x, ly) := by
      rw [List.range_succ, List.map_append, hly]
      rfl
    rw [htick, emitTick_eq]
    show OnLine p ly (n + 1) _ (((List.range line.col).map fun x => (x, ly)) ++ [(line.col, line.ly)])
    rw [hpixels]
    dsimp only
    by_cases hlast : line.col + 1 = 160
    · rw [if_pos hlast, hlast, hly, hBlankDots_of_lt p (by omega)]
      exact .hBlank (by omega) (by omega)
    · rw [if_neg hlast]
      exact .draw (by dsimp only; omega) hly (by dsimp only; omega) (by dsimp only; omega)

/-- A dot of a scanline but the last. -/
theorem onLine_tick {p : Params} {ly n : Nat} {m : Memory} {v : Video} {coords : List (Nat × Nat)}
    (hstall : p.windowStallDots ≤ 196) (hon : (memRead m lcdcAddr).getLsbD 7 = true) (hn : n < 455)
    (h : OnLine p ly n v coords) :
    OnLine p ly (n + 1) (tickOneDot p m v).1 (coords ++ coordsOf (tickOneDot p m v).2.toList) := by
  cases h with
  | oamScan hleft hsum =>
    rename_i left wlc
    obtain _ | _ | left := left
    · omega
    · rw [tickOneDot_oamScan_last hon]
      have hpen := Nat.mod_lt (memRead m scxAddr).toNat (by decide : 0 < 8)
      exact .draw (by simp only; omega) rfl (Nat.zero_le _) (by simp only [Bool.false_eq_true, if_false]; omega)
    · rw [tickOneDot_oamScan hon]
      exact .oamScan (by omega) (by omega)
  | draw hn' hly hcol hdots =>
    rw [tickOneDot_draw hon]
    exact onLine_drawTick m _ _ hstall hn' hly hcol hdots
  | hBlank hleft hsum =>
    rename_i left wlc
    obtain _ | _ | left := left
    · omega
    · omega
    · rw [tickOneDot_hBlank hon]
      exact append_coordsOf_none (rowCoords ly) ▸ .hBlank (by omega) (by omega)

theorem onLine_runDots {p : Params} {m : Nat → Memory} {ly wlc : Nat} (hstall : p.windowStallDots ≤ 196)
    (n : Nat) (hn : n ≤ 455) (hon : LcdOn m n) :
    OnLine p ly n (runDots p m n { mode := .oamScan ly 80, wlc := wlc }).1
      (coordsOf (runDots p m n { mode := .oamScan ly 80, wlc := wlc }).2) := by
  induction n with
  | zero => exact .oamScan (by omega) rfl
  | succ n ih =>
    rw [runDots_end, coordsOf_append]
    exact onLine_tick hstall (hon n (Nat.lt_succ_self n)) (by omega) (ih (by omega) (hon.mono (Nat.le_succ n)))

/-- The last dot of a scanline. -/
theorem onLine_last {p : Params} {ly : Nat} {m : Memory} {v : Video} {coords : List (Nat × Nat)}
    (hstall : p.windowStallDots ≤ 196) (hon : (memRead m lcdcAddr).getLsbD 7 = true) (h : OnLine p ly 455 v coords) :
    coords = rowCoords ly ∧ (tickOneDot p m v).1.mode = (if ly = 143 then .vBlank 4560 else .oamScan (ly + 1) 80) ∧
      (tickOneDot p m v).2 = none := by
  cases h with
  | oamScan hleft hsum => omega
  | draw hn hly hcol hdots => split at hdots <;> omega
  | hBlank hleft hsum =>
    rename_i left wlc
    obtain rfl : left = 1 := by omega
    rw [tickOneDot_hBlank_last hon]
    exact ⟨rfl, if_congr (by omega) rfl rfl, rfl⟩

/-- Settles O59: 455 dots along the line, and the last. -/
theorem scanlineIs456Dots : Obligations.ScanlineIs456Dots := by
  intro p m ly wlc hstall hly hon
  have hline := onLine_runDots (ly := ly) (wlc := wlc) hstall 455 le_rfl (hon.mono (by omega))
  obtain ⟨hcoords, hmode, hnone⟩ := onLine_last hstall (hon 455 (by omega)) hline
  rw [runDots_end p m 455]
  refine ⟨hmode, ?_⟩
  rw [hnone]
  simpa [coordsOf] using hcoords

/-! ### A frame -/

/-- The first scanlines of a frame. -/
theorem runDots_lines {p : Params} {m : Nat → Memory} (wlc : Nat) (hstall : p.windowStallDots ≤ 196) (n : Nat)
    (hn : n ≤ 144) (hon : LcdOn m (n * 456)) :
    (runDots p m (n * 456) { mode := .oamScan 0 80, wlc := wlc }).1.mode =
        (if n = 144 then .vBlank 4560 else .oamScan n 80) ∧
      coordsOf (runDots p m (n * 456) { mode := .oamScan 0 80, wlc := wlc }).2 = (List.range n).flatMap rowCoords := by
  induction n with
  | zero => exact ⟨rfl, rfl⟩
  | succ n ih =>
    obtain ⟨hmode, hcoords⟩ := ih (by omega) (hon.mono (by omega))
    rw [if_neg (by omega)] at hmode
    rw [Nat.succ_mul, runDots_add]
    generalize runDots p m (n * 456) { mode := .oamScan 0 80, wlc := wlc } = r at hmode hcoords ⊢
    obtain ⟨⟨mode, wlc'⟩, pixels⟩ := r
    obtain rfl : mode = .oamScan n 80 := hmode
    obtain ⟨hnext, hrow⟩ := scanlineIs456Dots p (fun k => m (n * 456 + k)) n wlc' hstall (by omega) (hon.shift (by omega))
    refine ⟨hnext.trans (if_congr (by omega) rfl rfl), ?_⟩
    rw [coordsOf_append, hcoords, List.range_succ, List.flatMap_append, List.flatMap_singleton]
    exact congrArg _ hrow

/-- VBlank counts its dots down. -/
theorem runDots_vBlank {p : Params} {m : Nat → Memory} (wlc left n : Nat) (hon : LcdOn m n) :
    runDots p m n { mode := .vBlank (n + left + 1), wlc := wlc } = ({ mode := .vBlank (left + 1), wlc := wlc }, []) := by
  induction n generalizing left with
  | zero => rw [Nat.zero_add]; rfl
  | succ n ih =>
    have hstart : n + 1 + left + 1 = n + (left + 1) + 1 := by omega
    rw [runDots_end, hstart, ih (left + 1) (hon.mono (Nat.le_succ n)), tickOneDot_vBlank (hon n (Nat.lt_succ_self n))]
    rfl

/-- The dots of VBlank, the last of which starts the next frame. -/
theorem runDots_vBlank_all {p : Params} {m : Nat → Memory} (wlc n : Nat) (hon : LcdOn m (n + 1)) :
    runDots p m (n + 1) { mode := .vBlank (n + 1), wlc := wlc } = ({ mode := .oamScan 0 80, wlc := 0 }, []) := by
  rw [runDots_end, runDots_vBlank wlc 0 n (hon.mono (Nat.le_succ n)), tickOneDot_vBlank_last (hon n (Nat.lt_succ_self n))]
  rfl

/-- Settles O60: 144 scanlines and the 4560 dots of VBlank. -/
theorem frameIs70224Dots : Obligations.FrameIs70224Dots := by
  intro p m wlc hstall hon
  obtain ⟨hmode, hcoords⟩ := runDots_lines wlc hstall 144 le_rfl (hon.mono (by omega))
  have hframe : 70224 = 144 * 456 + (4559 + 1) := by decide
  rw [hframe, runDots_add]
  generalize runDots p m (144 * 456) { mode := .oamScan 0 80, wlc := wlc } = r at hmode hcoords ⊢
  obtain ⟨⟨mode, wlc'⟩, pixels⟩ := r
  obtain rfl : mode = .vBlank (4559 + 1) := hmode
  rw [runDots_vBlank_all wlc' 4559 (hon.shift (by omega))]
  refine ⟨rfl, ?_⟩
  rw [List.append_nil]
  exact hcoords

end Sys2Proof.Machine
